-- ==== Sys2Proof/Word.lean ====
section
/-! DEFINITION. The word types of the machine (spec/00_scope.md R6, R8). -/

namespace Sys2Proof

/-- A byte of data space (R85). -/
abbrev Byte := BitVec 8

/-- A data word, a data address, or a 16-bit register (R6, R8). -/
abbrev Word := BitVec 16

/-- A 24-bit word of program memory (R81). -/
abbrev ProgWord := BitVec 24

/-- A program counter value: 23 bits, bit 0 always 0 (R21; log entry 9). -/
abbrev Pc := BitVec 23

end Sys2Proof
end

