-- ==== Sys2Proof/Syntax.lean ====
section
/-! DEFINITION. The instructions: one constructor per row of spec/opcode_table.json, and the declared effect that stands
for an instruction outside the spec (spec/30_encoding.md R113, R117). -/

namespace Sys2Proof

/-- The operand `lit1` of `PWRSAV`: 0 is Sleep, 1 is Idle (R151). -/
inductive LowPower where
  | sleep
  | idle
  deriving DecidableEq, Repr

/-- The instructions of R113, with their operands assembled as R114 says. -/
inductive Instr where
  /-- `NOP` (R157). -/
  | nop
  /-- `GOTO Expr`, both words (R152). -/
  | goto (target : Pc)
  /-- The second word of a `GOTO`, met by itself (R112: it executes as a `NOP`). -/
  | gotoWord2 (high : BitVec 7)
  /-- `RETURN` (R154). -/
  | ret
  /-- `RETFIE` (R131). -/
  | retfie
  /-- `BRA Expr`: the signed word offset `slit16` (R153, R114 (b)). -/
  | bra (slit16 : Word)
  /-- `PUSH f` (R155). -/
  | push (f : Word)
  /-- `POP f` (R156). -/
  | pop (f : Word)
  /-- `DISI #lit14` (R130). -/
  | disi (lit14 : BitVec 14)
  /-- `RESET` (R150). -/
  | reset
  /-- `PWRSAV #lit1` (R151). -/
  | pwrsav (mode : LowPower)
  deriving DecidableEq, Repr

/-- The width of a data access (R8: n = 1 or 2). -/
inductive Width where
  | byte
  | word
  deriving DecidableEq, Repr

/-- The value a declared effect writes (R117 "value written"; log entry 12). -/
inductive WriteValue where
  /-- A fixed value. -/
  | const (v : Word)
  /-- The value last read by the same instruction, with bits kept, set and toggled: a read-modify-write. -/
  | modify (keep set toggle : Word)
  /-- A value the spec does not state, such as the quotient after a divide by zero (R158). -/
  | free
  deriving DecidableEq, Repr

/-- Read or write (R117). -/
inductive Direction where
  | read
  | write (v : WriteValue)
  deriving DecidableEq, Repr

/-- One data access of a declared effect (R117 `accesses`). -/
structure Access where
  addr : Word
  width : Width
  direction : Direction
  /-- W15 was the pointer of this access (R90). -/
  viaW15 : Bool
  /-- The access is an indirect bit manipulation (R159). -/
  indirectBitManip : Bool
  deriving DecidableEq, Repr

/-- A new value of W15 and whether the effective address calculation wrapped (R117 `w15`). -/
structure PointerUpdate where
  value : Word
  wrapped : Bool
  deriving DecidableEq, Repr

/-- The declared effect `eff` of an instruction outside the spec (R117). -/
structure Effect where
  accesses : List Access
  w15 : Option PointerUpdate
  next : Pc
  divByZero : Bool
  cycles : Nat
  deriving DecidableEq, Repr

end Sys2Proof
end

