-- ==== Sys2Proof/WellFormed.lean ====
section
/-! DEFINITION. Which instruction terms the encodings of spec/30_encoding.md R113, R114 can express. -/

namespace Sys2Proof

/-- An even 23-bit program address (R114 (c): target[0] = 0). -/
def evenPc (p : Pc) : Bool := !p.getLsbD 0

/-- An even data address (R114 (d): bit 0 = 0, word-aligned). -/
def evenAddr (a : Word) : Bool := !a.getLsbD 0

/-- A term is well-formed when some instruction word stands for it: `GOTO` targets and file-register addresses are
even; every other operand fills its field. -/
def Instr.wellFormed : Instr → Bool
  | .nop => true
  | .goto target => evenPc target
  | .gotoWord2 _ => true
  | .ret => true
  | .retfie => true
  | .bra _ => true
  | .push f => evenAddr f
  | .pop f => evenAddr f
  | .disi _ => true
  | .reset => true
  | .pwrsav _ => true

end Sys2Proof
end

