-- ==== Sys2Proof/Decode.lean ====
section
/-! DEFINITION. The decoder and the encoder, both written from the encoding table of spec/30_encoding.md R113 (rows of
opcode_table.json) and the operand assembly of R114. -/

namespace Sys2Proof

/-- One row of the encoding table: a word `w` is the instruction iff `w &&& mask = pattern` (R113). -/
structure Row where
  mnemonic : String
  mask : ProgWord
  pattern : ProgWord
  deriving DecidableEq, Repr

/-- `w` belongs to the row (R113). -/
def Row.fits (r : Row) (w : ProgWord) : Bool := w &&& r.mask == r.pattern

def rowNop : Row := ⟨"NOP", 0xFF0000#24, 0x000000#24⟩
def rowGoto : Row := ⟨"GOTO", 0xFF0001#24, 0x040000#24⟩
def rowGotoWord2 : Row := ⟨"GOTO.word2", 0xFFFF80#24, 0x000000#24⟩
def rowReturn : Row := ⟨"RETURN", 0xFFFFFF#24, 0x060000#24⟩
def rowRetfie : Row := ⟨"RETFIE", 0xFFFFFF#24, 0x064000#24⟩
def rowBra : Row := ⟨"BRA", 0xFF0000#24, 0x370000#24⟩
def rowPush : Row := ⟨"PUSH", 0xFF0001#24, 0xF80000#24⟩
def rowPop : Row := ⟨"POP", 0xFF0001#24, 0xF90000#24⟩
def rowDisi : Row := ⟨"DISI", 0xFFC000#24, 0xFC0000#24⟩
def rowReset : Row := ⟨"RESET", 0xFFFFFF#24, 0xFE0000#24⟩
def rowPwrsav : Row := ⟨"PWRSAV", 0xFFFFFE#24, 0xFE4000#24⟩

/-- The rows a first word can belong to. The row of `GOTO.word2` is not among them: it is "decoded only as the word
following a GOTO word 1" (opcode_table.json). -/
def firstRows : List Row :=
  [rowNop, rowGoto, rowReturn, rowRetfie, rowBra, rowPush, rowPop, rowDisi, rowReset, rowPwrsav]

/-- The word is none of the rows: the first word of no instruction of the table (R115). -/
def inNoRow (w : ProgWord) : Bool := firstRows.all fun r => !r.fits w

/-- The row of a constructor. -/
def Instr.row : Instr → Row
  | .nop => rowNop
  | .goto _ => rowGoto
  | .gotoWord2 _ => rowGotoWord2
  | .ret => rowReturn
  | .retfie => rowRetfie
  | .bra _ => rowBra
  | .push _ => rowPush
  | .pop _ => rowPop
  | .disi _ => rowDisi
  | .reset => rowReset
  | .pwrsav _ => rowPwrsav

/-- Why a word list is no instruction. -/
inductive DecodeError where
  /-- No row of R113 fits the first word (R115). -/
  | unknownWord (w : ProgWord)
  /-- The word after a `GOTO` word 1 does not fit `GOTO` word 2. -/
  | unknownSecondWord (w : ProgWord)
  /-- A word is missing: nothing at all, or the second word of a two-word instruction. -/
  | missingWord
  deriving DecidableEq, Repr

/-- Where a word stands: at the start of an instruction, or right after a `GOTO` word 1. -/
inductive Position where
  | first
  | afterGoto
  deriving DecidableEq, Repr

/-- The position of the first word of an encoded instruction. -/
def Instr.position : Instr → Position
  | .gotoWord2 _ => .afterGoto
  | _ => .first

/-- The instruction takes two words: bits 23:16 = 0x04 (`GOTO`) or 0x02 (`CALL`), the test on the first word alone of
R112. -/
def isTwoWord (w : ProgWord) : Bool := w.extractLsb' 16 8 == 0x04#8 || w.extractLsb' 16 8 == 0x02#8

/-- The word right after a `GOTO` word 1 (R113, row `GOTO` word 2). -/
def decodeAfterGoto (w : ProgWord) : Except DecodeError (BitVec 7) :=
  if rowGotoWord2.fits w then .ok (w.extractLsb' 0 7) else .error (.unknownSecondWord w)

/-- The `GOTO` target assembled from its two words (R114 (c)). -/
def gotoTarget (w : ProgWord) (high : BitVec 7) : Pc := high ++ w.extractLsb' 1 15 ++ 0#1

/-- A two-word instruction: `GOTO`, the only one with a row; a `CALL`, or 0x04 with bit 0 set, has none (R112, R113). -/
def decodeTwo (w w2 : ProgWord) : Except DecodeError Instr :=
  if rowGoto.fits w then (decodeAfterGoto w2).map fun high => .goto (gotoTarget w high) else .error (.unknownWord w)

/-- A one-word instruction (R113, R114). -/
def decodeOne (w : ProgWord) : Except DecodeError Instr :=
  if rowNop.fits w then .ok .nop
  else if rowReturn.fits w then .ok .ret
  else if rowRetfie.fits w then .ok .retfie
  else if rowBra.fits w then .ok (.bra (w.extractLsb' 0 16))
  else if rowPush.fits w then .ok (.push (w.extractLsb' 0 16))
  else if rowPop.fits w then .ok (.pop (w.extractLsb' 0 16))
  else if rowDisi.fits w then .ok (.disi (w.extractLsb' 0 14))
  else if rowReset.fits w then .ok .reset
  else if rowPwrsav.fits w then .ok (.pwrsav (if w.getLsbD 0 then .idle else .sleep))
  else .error (.unknownWord w)

/-- The decoder: the instruction at the head of a list of program words, with the rest of the list. -/
def decode (p : Position) (ws : List ProgWord) : Except DecodeError (Instr × List ProgWord) :=
  match p, ws with
  | _, [] => .error .missingWord
  | .afterGoto, w :: rest => (decodeAfterGoto w).map fun high => (.gotoWord2 high, rest)
  | .first, w :: rest =>
    if isTwoWord w then
      match rest with
      | [] => .error .missingWord
      | w2 :: rest2 => (decodeTwo w w2).map fun i => (i, rest2)
    else (decodeOne w).map fun i => (i, rest)

/-- The encoder: the words of an instruction, first word first (R113, R114). -/
def encode : Instr → List ProgWord
  | .nop => [0x000000#24]
  | .goto target => [0x04#8 ++ target.extractLsb' 1 15 ++ 0#1, 0#17 ++ target.extractLsb' 16 7]
  | .gotoWord2 high => [0#17 ++ high]
  | .ret => [0x060000#24]
  | .retfie => [0x064000#24]
  | .bra slit16 => [0x37#8 ++ slit16]
  | .push f => [0xF8#8 ++ f]
  | .pop f => [0xF9#8 ++ f]
  | .disi lit14 => [0x3F0#10 ++ lit14]
  | .reset => [0xFE0000#24]
  | .pwrsav .sleep => [0xFE4000#24]
  | .pwrsav .idle => [0xFE4001#24]

/-- The words of an instruction whose bits are `w`, numbered as opcode_table.json numbers them: the first program word
in bits 23:0, the second in bits 47:24; every bit from `nbits` up is 0. -/
def tableWords (nbits w : Nat) : List ProgWord :=
  [BitVec.ofNat 24 (w % 2 ^ nbits), BitVec.ofNat 24 (w % 2 ^ nbits / 2 ^ 24)]

/-- What the decoder reads from the instruction whose bits are `w` (the words laid out first word first). -/
def decodeTableWord (nbits w : Nat) : Option Instr :=
  match decode .first (tableWords nbits w) with
  | .ok (i, _) => some i
  | .error _ => none

end Sys2Proof
end

