-- ==== Sys2Proof/Config.lean ====
section
/-! DEFINITION. The implementation parameters of spec/00_scope.md R5 as one record of plain data, and the free values:
what the spec leaves to `draw` (R8). The default record is in Machine/Defaults.lean. -/

namespace Sys2Proof

/-- A range of addresses, both ends included. -/
structure Region where
  first : Nat
  last : Nat
  deriving DecidableEq, Repr

/-- The special function registers of spec/10_state.md, with the working registers (R20, R52, R55). -/
inductive Sfr where
  | w (n : Fin 16)
  | splim
  | sr
  | corcon
  | disicnt
  | rcon
  | osccon
  | intcon1
  | intcon2
  | ifs (n : Fin 8)
  | iec (n : Fin 8)
  | ipc (n : Fin 30)
  deriving DecidableEq, Repr

/-- Instruction cycles the source leaves open (R118; `NOP` 1, `RETFIE` 3 and exception entry 4 are fixed by it). -/
structure Cycles where
  goto : Nat
  bra : Nat
  ret : Nat
  push : Nat
  pop : Nat
  disi : Nat
  pwrsav : Nat
  deriving DecidableEq, Repr

/-- The implementation parameters of R5 that the source does not fix. -/
structure Config where
  /-- `ImplVec`: entry v is true when interrupt vector v is implemented (R45). -/
  implVec : Vector Bool 118
  /-- `DataImpl` as a list of regions (R85, R88). -/
  dataImpl : List Region
  /-- `ProgImpl` as a list of regions (R89). -/
  progImpl : List Region
  /-- `sfrAddr`: the data address of each register (R52). -/
  sfrAddr : List (Nat × Sfr)
  /-- `extIntVec`: the interrupt vector of each external interrupt pin (R215). -/
  extIntVec : Vector Nat 5
  /-- `N_EXT_INT`: how many of the five external interrupt pins the device has, the lowest ones (R5, R215; log entry
  24). -/
  nExtInt : Fin 6
  /-- `FSCM_EN`: the Fail-Safe Clock Monitor is enabled (R198). -/
  fscmEn : Bool
  /-- `cycles` (R118). -/
  cycles : Cycles
  /-- `ACK_SLIP_MAX` (R192). -/
  ackSlipMax : Nat
  deriving DecidableEq, Repr

/-- The n-th free 16-bit value (`draw(2^16)`, R8): no body, so no proof can know it (log entry 8). -/
opaque Config.freeWord : Nat → Word

/-- The n-th free bit: a one-bit `draw`, or a choice the spec leaves open (R192; log entries 7 and 8). -/
opaque Config.freeBit : Nat → Bool

/-- What pc becomes when sequential execution passes the top of program memory: "not in the source" (R21; log entry
9). -/
opaque Config.pcPastTop : Pc

end Sys2Proof
end

