-- ==== Sys2Proof/Machine/Defaults.lean ====
section
/-! DEFINITION. The default values of the implementation parameters: the defaults of spec/00_scope.md R5, the address map
of spec/10_state.md R52, and for the parameters the spec leaves OPEN the configuration of spec/95_test_vectors.md (log
entries 1 and 2). -/

namespace Sys2Proof.Machine

/-- The working registers at 2n. R52 gives W15 at 0x001E; the other fifteen are PRESUMED (log entry 2). -/
def defaultWregMap : List (Nat × Sfr) := (List.finRange 16).map fun n => (2 * n.val, .w n)

/-- The single registers of R52. -/
def defaultCoreMap : List (Nat × Sfr) :=
  [(0x0020, .splim), (0x0042, .sr), (0x0044, .corcon), (0x0052, .disicnt),
   (0x0080, .intcon1), (0x0082, .intcon2), (0x0740, .rcon), (0x0742, .osccon)]

/-- IFSn at 0x0084 + 2n, IECn at 0x0094 + 2n, IPCn at 0x00A4 + 2n (R52). -/
def defaultBankMap : List (Nat × Sfr) :=
  (List.finRange 8).map (fun n => (0x0084 + 2 * n.val, .ifs n)) ++
  (List.finRange 8).map (fun n => (0x0094 + 2 * n.val, .iec n)) ++
  (List.finRange 30).map (fun n => (0x00A4 + 2 * n.val, .ipc n))

/-- The default `sfrAddr` (R52). -/
def defaultSfrMap : List (Nat × Sfr) := defaultWregMap ++ defaultCoreMap ++ defaultBankMap

/-- The default `DataImpl`: every address of `defaultSfrMap`, and 0x0800 to 0x27FF (spec/95_test_vectors.md). -/
def defaultDataRegions : List Region :=
  [⟨0x0000, 0x0021⟩, ⟨0x0042, 0x0045⟩, ⟨0x0052, 0x0053⟩, ⟨0x0080, 0x00DF⟩, ⟨0x0740, 0x0743⟩, ⟨0x0800, 0x27FF⟩]

/-- The default `ProgImpl`: below 0x00AC00 (spec/95_test_vectors.md). -/
def defaultProgRegions : List Region := [⟨0x000000, 0x00ABFF⟩]

/-- The cycle counts of R118. -/
def defaultCycles : Cycles :=
  { goto := 2, bra := 2, ret := 3, push := 1, pop := 1, disi := 1, pwrsav := 1 }

/-- The default configuration (log entry 1). -/
def defaultConfig : Config :=
  { implVec := Vector.replicate 118 true
    dataImpl := defaultDataRegions
    progImpl := defaultProgRegions
    sfrAddr := defaultSfrMap
    extIntVec := #v[0, 1, 2, 3, 4]
    nExtInt := 5
    fscmEn := true
    cycles := defaultCycles
    ackSlipMax := 2 }

end Sys2Proof.Machine
end

