-- ==== Sys2Proof/Machine/State.lean ====
section
/-! DEFINITION. The architectural state of spec/10_state.md R20, the state after reset (R54), the agents' turns (R10), and
the reasons a step can stop. -/

namespace Sys2Proof.Machine

/-- The power mode of the CPU (R49). -/
inductive CpuMode where
  | run
  | sleep
  | idle
  deriving DecidableEq, Repr

/-- The implemented traps (R186). -/
inductive Trap where
  | oscillatorFailure
  | addressError
  | stackError
  | mathError
  deriving DecidableEq, Repr

/-- An exception the arbitration can select: a trap or the interrupt of a vector (R181, R189). -/
inductive Exc where
  | trap (t : Trap)
  | int (v : Nat)
  deriving DecidableEq, Repr

/-- What caused a device Reset (R260, R261). -/
inductive ResetCause where
  | software
  | trapConflict
  | external
  deriving DecidableEq, Repr

/-- An edge on an external interrupt pin (R215). -/
inductive Edge where
  | rising
  | falling
  deriving DecidableEq, Repr

/-- A step of an agent other than the CPU (R10). -/
inductive Event where
  /-- The peripheral of vector v sets its flag (R203). -/
  | request (v : Nat)
  /-- An edge on external interrupt pin `pin` (R215). -/
  | edge (pin : Fin 5) (e : Edge)
  /-- The clock monitor detects a loss of the system clock (R198). -/
  | clockFailure
  /-- A device Reset from outside (R261). -/
  | externalReset
  deriving DecidableEq, Repr

/-- Whose turn it is (R223: between two CPU steps the other agents may take any number of their steps). -/
inductive Turn where
  | cpu
  | agent (e : Event)
  deriving DecidableEq, Repr

/-- Data memory other than the SFRs: the bytes that have been written, in canonical form (`Memory.wf`). An address
not listed was never written (R54; log entry 4). -/
abbrev Memory := List Host.Cell

/-- Program memory: the 24-bit words that have been programmed, by even address (R81), in the same canonical form. -/
abbrev ProgMemory := List (Nat × ProgWord)

/-- The state of the machine (R20). -/
structure State where
  /-- Program counter (R21). -/
  pc : Pc
  /-- Working registers W0 to W15; W15 is the Stack Pointer (R22, R55). -/
  w : Vector Word 16
  /-- Stack Limit register and the latch that enables its check (R23). -/
  splim : Word
  splimEnabled : Bool
  /-- SR (R24). -/
  sr : Word
  /-- CORCON (R27). -/
  corcon : Word
  /-- INTCON1 (R29). -/
  intcon1 : Word
  /-- INTCON2 (R32). -/
  intcon2 : Word
  /-- IFS0 to IFS7 (R36, R37). -/
  ifs : Vector Word 8
  /-- IEC0 to IEC7 (R39, R40). -/
  iec : Vector Word 8
  /-- IPC0 to IPC29 (R41, R42). -/
  ipc : Vector Word 30
  /-- DISICNT (R46). -/
  disicnt : BitVec 14
  /-- The hidden mark of a non-zero software write with no DISI window (R46, R132). -/
  disicntStray : Bool
  /-- The value of that write: while the mark is true a read of DISICNT is a draw from 0 to it (R132). -/
  strayBound : BitVec 14
  /-- RCON.TRAPR (R47). -/
  trapr : Bool
  /-- OSCCON.CF (R48). -/
  cf : Bool
  /-- Power mode (R49). -/
  cpuMode : CpuMode
  /-- Instructions completed since a soft trap or interrupt became eligible (R50). -/
  ackDefer : Nat
  /-- Data memory (R85). -/
  mem : Memory
  /-- Program memory (R81). -/
  prog : ProgMemory
  /-- The declared effects of instructions outside the spec, by program address (R117; log entry 12). -/
  others : List (Nat × Effect)
  /-- The implementation parameters (R5; log entry 1). No step changes them. -/
  cfg : Config
  /-- The turns to come, next first; when none is listed the turn is the CPU's (R10; log entry 6). -/
  schedule : List Turn
  /-- How many free values have been taken (R8 `draw`; log entry 8). -/
  draws : Nat
  deriving DecidableEq, Repr

/-- Why the machine stops with a fault. Both are safe: the hardware goes on with a value the spec does not give. -/
inductive Fault where
  /-- A read of a data byte that nothing has written since Reset. Raised by `readData` (R54, U20). Safe. -/
  | unwrittenData (addr : Nat)
  /-- A fetch of a program word, or of a vector, that nobody has programmed. Raised by `fetch` and `progRead` (U10). Safe. -/
  | unprogrammed (addr : Nat)
  deriving DecidableEq, Repr

/-- Why the model gives a situation no meaning. All are the spec's own refusals and safe. -/
inductive Refusal where
  /-- The instruction has no meaning yet; answered by no arm of `exec`. Safe. -/
  | notModelled (mnemonic : String)
  /-- A word that matches no row and has no declared effect (R115, U15). Raised by the fetch. Safe. -/
  | unknownInstruction (addr : Nat)
  /-- A vector word with bit 23 or bit 0 set (R84, R209, U9). Raised by exception entry. Safe. -/
  | badVector (addr : Nat)
  /-- A hard trap condition at the CPU priority of its own level (R197, U7). Raised by `raiseHard`. Safe. -/
  | hardTrapUnacknowledgeable
  /-- `RETFIE` of a frame that would set SR.RA: a program outside the spec's model (R26, D24, U18). Raised by
  `returnFromException`. Safe. -/
  | repeatActive
  /-- `PWRSAV` inside a DISI window (R133, R151, U14). Raised by `execPwrsav`. Safe. -/
  | disiAcrossSleep
  deriving DecidableEq, Repr

/-- The machine right after reset (R54). Program memory lists nothing: a program is loaded from outside (log entry 5).
The values R54 leaves open are those of log entry 2. -/
def State.reset : State :=
  { pc := 0x000000#23
    w := (Vector.replicate 16 0x0000#16).set 15 0x0800#16
    splim := 0x0000#16
    splimEnabled := false
    sr := 0x0000#16
    corcon := 0x0000#16
    intcon1 := 0x0000#16
    intcon2 := 0x0000#16
    ifs := Vector.replicate 8 0x0000#16
    iec := Vector.replicate 8 0x0000#16
    ipc := (Vector.replicate 30 0x4444#16).set 29 0x0044#16
    disicnt := 0#14
    disicntStray := false
    strayBound := 0#14
    trapr := false
    cf := false
    cpuMode := .run
    ackDefer := 0
    mem := []
    prog := []
    others := []
    cfg := defaultConfig
    schedule := []
    draws := 0 }

end Sys2Proof.Machine
end

