-- ==== Sys2Proof/Machine/Flags.lean ====
section
/-! DEFINITION. The fields of SR, CORCON, INTCON1, INTCON2, IFSn, IECn and IPCn, the CPU priority, and what a software
write of each register leaves in it (spec/10_state.md R24 to R45, R53). -/

namespace Sys2Proof.Machine

/-! ### Bits -/

/-- `w` with bit `n` set to `b`. -/
def withBit (w : Word) (n : Nat) (b : Bool) : Word :=
  if b then w ||| BitVec.twoPow 16 n else w &&& ~~~(BitVec.twoPow 16 n)

/-- The word whose bit `x` is `f x`, for the `k` lowest bits. -/
def maskBelow (f : Nat → Bool) : Nat → Word
  | 0 => 0#16
  | k + 1 => maskBelow f k ||| (if f k then BitVec.twoPow 16 k else 0#16)

/-- The word whose bit `x` is `f x`. -/
def maskOf (f : Nat → Bool) : Word := maskBelow f 16

/-- Register `i` of a bank; no register, no bits. -/
def bankGet {n : Nat} (b : Vector Word n) (i : Nat) : Word := if h : i < n then b[i] else 0#16

/-! ### SR and CORCON -/

/-- SRL, the low byte of SR (R6, R24). -/
def State.srl (s : State) : Byte := s.sr.extractLsb' 0 8

/-- IPL<2:0> = SR<7:5> (R25). -/
def State.ipl (s : State) : BitVec 3 := s.sr.extractLsb' 5 3

/-- IPL3 = CORCON<3> (R27). -/
def State.ipl3 (s : State) : Bool := s.corcon.getLsbD 3

/-- The CPU priority IPL3 : IPL<2:0> (R28). -/
def State.cpuPri (s : State) : BitVec 4 := BitVec.ofBool s.ipl3 ++ s.ipl

/-- A status word with IPL<2:0> replaced. -/
def withIpl (sr : Word) (l : BitVec 3) : Word := sr.extractLsb' 8 8 ++ l ++ sr.extractLsb' 0 5

/-- A status word with its low byte replaced (R131). -/
def withSrl (sr : Word) (l : Byte) : Word := sr.extractLsb' 8 8 ++ l

/-- What a read of SR gives: bits 15:9 read 0 (R24, R53 (a)). -/
def srRead (sr : Word) : Word := sr &&& 0x01FF#16

/-- SR after a software write of `v`: DC, N, OV, Z, C take it, IPL<2:0> unless NSTDIS = 1, RA keeps (R24, R25, R53). -/
def srWritten (nstdis : Bool) (old v : Word) : Word :=
  if nstdis then (v &&& 0x010F#16) ||| (old &&& 0x00F0#16) else (v &&& 0x01EF#16) ||| (old &&& 0x0010#16)

/-- What a read of CORCON gives (R27). -/
def corconRead (corcon : Word) : Word := corcon &&& 0x000C#16

/-- CORCON after a software write: IPL3 can be cleared but not set, PSV takes the bit (R27, R53 (c)). -/
def corconWritten (old v : Word) : Word := (v &&& 0x0004#16) ||| (old &&& v &&& 0x0008#16)

/-! ### INTCON1 and INTCON2 -/

/-- NSTDIS = INTCON1<15> (R29, R31). -/
def State.nstdis (s : State) : Bool := s.intcon1.getLsbD 15

/-- ALTIVT = INTCON2<15> (R32, R33). -/
def State.altivt (s : State) : Bool := s.intcon2.getLsbD 15

/-- DISI = INTCON2<14> (R32, R34). -/
def State.disiActive (s : State) : Bool := s.intcon2.getLsbD 14

/-- INTxEP = INTCON2<x>: 1 selects the negative edge (R32, R35). -/
def State.intEdgeNegative (s : State) (pin : Fin 5) : Bool := s.intcon2.getLsbD pin.val

/-- What a read of INTCON1 gives, and what a software write leaves: NSTDIS and the four flags (R29, R30). -/
def intcon1Bits (v : Word) : Word := v &&& 0x801E#16

/-- What a read of INTCON2 gives (R32). -/
def intcon2Read (intcon2 : Word) : Word := intcon2 &&& 0xC01F#16

/-- INTCON2 after a software write: DISI ignores it (R34, R53 (b)). -/
def intcon2Written (old v : Word) : Word := (v &&& 0x801F#16) ||| (old &&& 0x4000#16)

/-- INTCON2 with its DISI bit set by hardware (R34). -/
def State.setDisi (s : State) (b : Bool) : State := { s with intcon2 := withBit s.intcon2 14 b }

/-! ### Traps (R186) -/

/-- The trap vector number. -/
def trapNumber : Trap → Nat
  | .oscillatorFailure => 1
  | .addressError => 2
  | .stackError => 3
  | .mathError => 4

/-- The fixed level. -/
def trapLevel : Trap → BitVec 4
  | .oscillatorFailure => 14#4
  | .addressError => 13#4
  | .stackError => 12#4
  | .mathError => 11#4

/-- Hard traps are of level 13 and above (R195). -/
def isHard : Trap → Bool
  | .oscillatorFailure => true
  | .addressError => true
  | .stackError => false
  | .mathError => false

/-- The bit of INTCON1 that is the trap's status flag (R29). -/
def trapBit : Trap → Nat
  | .oscillatorFailure => 1
  | .addressError => 3
  | .stackError => 2
  | .mathError => 4

/-- The implemented traps, highest level first. -/
def allTraps : List Trap := [.oscillatorFailure, .addressError, .stackError, .mathError]

/-- The trap's status flag, which is its request (R30, R201). -/
def trapFlag (t : Trap) (s : State) : Bool := s.intcon1.getLsbD (trapBit t)

/-- The state with the trap's flag set (R30). -/
def setTrapFlag (t : Trap) (s : State) : State := { s with intcon1 := withBit s.intcon1 (trapBit t) true }

/-! ### Interrupt vectors (R44, R45) -/

/-- Vector `v` is in `ImplVec` (R45). -/
def implemented (c : Config) (v : Nat) : Bool := if h : v < 118 then c.implVec[v] else false

/-- The implemented bits of IFSn and IECn (R36, R37, R39, R40, R45). -/
def flagMask (c : Config) (n : Nat) : Word := maskOf fun x => implemented c (16 * n + x)

/-- The implemented bits of IPCn: three of each nibble (R41, R42, R45). -/
def priMask (c : Config) (n : Nat) : Word := maskOf fun x => x % 4 != 3 && implemented c (4 * n + x / 4)

/-- IF(v) (R44). -/
def intFlag (s : State) (v : Nat) : Bool := implemented s.cfg v && (bankGet s.ifs (v / 16)).getLsbD (v % 16)

/-- IE(v) (R44). -/
def intEnable (s : State) (v : Nat) : Bool := implemented s.cfg v && (bankGet s.iec (v / 16)).getLsbD (v % 16)

/-- IP(v) (R44). -/
def intPri (s : State) (v : Nat) : BitVec 3 :=
  if implemented s.cfg v then (bankGet s.ipc (v / 4)).extractLsb' (4 * (v % 4)) 3 else 0#3

/-- The state with IF(v) set by hardware; an unimplemented vector has no flag (R38, R45). -/
def setIntFlag (s : State) (v : Nat) : State :=
  if h : v < 118 then
    if implemented s.cfg v then
      { s with ifs := s.ifs.set (v / 16) (withBit s.ifs[v / 16] (v % 16) true) }
    else s
  else s

/-- The IPCn after Reset: priority 4 for every implemented vector (R43, R54). -/
def resetIpc (c : Config) : Vector Word 30 := Vector.ofFn fun n => 0x4444#16 &&& priMask c n.val

end Sys2Proof.Machine
end

