-- ==== Sys2Proof/Machine/Ops.lean ====
section
/-! DEFINITION. The named operations of the machine: memory, free values, the DISI countdown, Reset, raising a trap
condition, register access, data accesses, the stack, arbitration, taking an exception and returning from one. -/

namespace Sys2Proof.Machine

/-- An operation ends with a value, or ends the instruction early with an outcome: a device Reset (a next state), a
fault, or a refusal. -/
abbrev Act (α : Type) := Except (Host.Outcome State Fault Refusal) α

/-- The outcome of an operation that runs to its end or stops early. -/
def finish : Act State → Host.Outcome State Fault Refusal
  | .ok s => .next s
  | .error o => o

/-! ### Memory cells -/

/-- The entry of a key. -/
def cellGet {β : Type} : List (Nat × β) → Nat → Option β
  | [], _ => none
  | (k, b) :: rest, a => if k = a then some b else cellGet rest a

/-- The list with the entry of a key set, keys kept rising. -/
def cellSet {β : Type} : List (Nat × β) → Nat → β → List (Nat × β)
  | [], a, b => [(a, b)]
  | (k, c) :: rest, a, b =>
    if a < k then (a, b) :: (k, c) :: rest
    else if a = k then (a, b) :: rest
    else (k, c) :: cellSet rest a b

/-- The keys rise strictly. -/
abbrev rising {β : Type} (m : List (Nat × β)) : Prop := (m.map Prod.fst).Pairwise (· < ·)

/-- The canonical form of data memory: addresses of data space, strictly rising (an unlisted address has no value, so
no entry can equal it). -/
abbrev Memory.wf (m : Memory) : Prop := rising m ∧ ∀ c ∈ m, c.1 < 0x10000

/-- The canonical form of program memory: even program addresses, strictly rising (R81). -/
abbrev ProgMemory.wf (m : ProgMemory) : Prop := rising m ∧ ∀ c ∈ m, c.1 < 0x800000 ∧ c.1 % 2 = 0

/-- `ProgRead(a)`: the program word at address `a` (R8, R81). -/
def progRead (a : Nat) (s : State) : Act ProgWord :=
  match cellGet s.prog a with
  | some w => .ok w
  | none => .error (.fault (.unprogrammed a))

/-- The byte of data memory at `a`, which must have been written (R54, U20). -/
def ramByte (a : Nat) (s : State) : Act Byte :=
  match cellGet s.mem a with
  | some b => .ok b
  | none => .error (.fault (.unwrittenData a))

/-- The address of the other byte of the word at the even address `a`. -/
def nextByte (a : Word) : Word := a ||| 1#16

/-- The even address of the word that holds the byte at `a`. -/
def wordBase (a : Word) : Word := a &&& 0xFFFE#16

/-- The word of data memory at the even address `a`, low byte at the lower address (R86; log entry 16). -/
def ramWord (a : Word) (s : State) : Act Word := do
  let lo ← ramByte a.toNat s
  let hi ← ramByte (nextByte a).toNat s
  .ok (hi ++ lo)

/-- Data memory with the byte at `a` written. -/
def setRamByte (a : Word) (b : Byte) (s : State) : State := { s with mem := cellSet s.mem a.toNat b }

/-- Data memory with the word at the even address `a` written (R86). -/
def setRamWord (a v : Word) (s : State) : State :=
  setRamByte (nextByte a) (v.extractLsb' 8 8) (setRamByte a (v.extractLsb' 0 8) s)

/-- The address lies in one of the regions. -/
def inRegions (rs : List Region) (a : Nat) : Bool := rs.any fun r => decide (r.first ≤ a) && decide (a ≤ r.last)

/-- `DataImpl` (R5, R88). -/
def dataImpl (s : State) (a : Word) : Bool := inRegions s.cfg.dataImpl a.toNat

/-- `ProgImpl` (R5, R89). -/
def progImpl (s : State) (p : Pc) : Bool := inRegions s.cfg.progImpl p.toNat

/-- The register at a data address (R52). -/
def sfrAt (c : Config) (a : Word) : Option Sfr := c.sfrAddr.lookup a.toNat

/-! ### Free values (R8 `draw`; log entry 8) -/

/-- `draw(2^16)`. -/
def drawWord (s : State) : Word × State := (Config.freeWord s.draws, { s with draws := s.draws + 1 })

/-- `draw({0..bound})` (R132). -/
def drawUpTo (bound : BitVec 14) (s : State) : BitVec 14 × State :=
  (BitVec.ofNat 14 ((Config.freeWord s.draws).toNat % (bound.toNat + 1)), { s with draws := s.draws + 1 })

/-- A free choice between two things. -/
def drawBit (s : State) : Bool × State := (Config.freeBit s.draws, { s with draws := s.draws + 1 })

/-! ### The DISI countdown (R133) -/

/-- `Tick(c)`: `c` instruction cycles pass. -/
def tick (c : Nat) (s : State) : State :=
  if s.disicnt = 0#14 then s
  else
    let left := BitVec.ofNat 14 (s.disicnt.toNat - c)
    if left = 0#14 then { s with disicnt := left }.setDisi false else { s with disicnt := left }

/-! ### Reset (R54, R260) -/

/-- The working registers after a Reset inside a run: free values, and the Stack Pointer at 0x0800. -/
def resetW (draws : Nat) : Vector Word 16 :=
  (Vector.ofFn fun n : Fin 16 => Config.freeWord (draws + n.val)).set 15 0x0800#16

/-- `Reset(cause)`: the values of R54; the program image, the configuration and the agents' turns stay. What R54 leaves
open is a free value (log entry 3), data memory is as never written (log entry 4). -/
def deviceReset (cause : ResetCause) (s : State) : State :=
  { State.reset with
    w := resetW s.draws
    splim := Config.freeWord (s.draws + 16)
    ipc := resetIpc s.cfg
    trapr := if cause = .trapConflict then true else Config.freeBit (s.draws + 17)
    cf := Config.freeBit (s.draws + 18)
    prog := s.prog
    others := s.others
    cfg := s.cfg
    schedule := s.schedule
    draws := s.draws + 19 }

/-! ### Raising a trap condition (R193, R194, R197, R201) -/

/-- `raise StackError`. -/
def raiseStack (s : State) : State := setTrapFlag .stackError s

/-- `raise MathError`. -/
def raiseMath (s : State) : State := setTrapFlag .mathError s

/-- A higher trap's flag is set, or the CPU priority is above the trap's level: a hard trap conflict (R197). -/
def trapConflict (t : Trap) (s : State) : Bool :=
  (allTraps.any fun u => decide (trapLevel t < trapLevel u) && trapFlag u s) || decide (trapLevel t < s.cpuPri)

/-- `raiseHard(t)` (R197). -/
def raiseHard (t : Trap) (s : State) : Act State :=
  if trapConflict t s then .error (.next (deviceReset .trapConflict s))
  else if s.cpuPri = trapLevel t then .error (.refused .hardTrapUnacknowledgeable)
  else .ok (setTrapFlag t s)

/-- `raise AddressError` when the condition holds (R199). -/
def raiseAddressIf (b : Bool) (s : State) : Act State := if b then raiseHard .addressError s else .ok s

/-! ### The program counter (R21, R89) -/

/-- The address of the next program word; past the top of program memory it is not stated (R21; log entry 9). -/
def seqPc (p : Pc) : Pc := if p.toNat + 2 < 0x800000 then p + 2#23 else Config.pcPastTop &&& 0x7FFFFE#23

/-- `pc <- target; if not ProgImpl(pc) then raise AddressError` (R89, R199 causes 4 and 5); pc<0> stays 0 (R21). -/
def jump (target : Pc) (s : State) : Act State :=
  let s := { s with pc := target &&& 0x7FFFFE#23 }
  raiseAddressIf (!progImpl s s.pc) s

/-- `pc <- pc + 2`. -/
def advance (s : State) : Act State := jump (seqPc s.pc) s

/-! ### Working registers and the Stack Pointer (R22, R90) -/

/-- W15: bit 0 reads 0 (R22). -/
def State.sp (s : State) : Word := s.w[15] &&& 0xFFFE#16

/-- Every update of W15: below 0x0800 it raises the stack error (R90). -/
def setSp (v : Word) (s : State) : State :=
  let v := v &&& 0xFFFE#16
  let s := { s with w := s.w.set 15 v }
  if v < 0x0800#16 then raiseStack s else s

/-- A working register. -/
def readW (n : Fin 16) (s : State) : Word := if n = 15 then s.sp else s.w[n]

/-- A working register written. -/
def writeW (n : Fin 16) (v : Word) (s : State) : State :=
  if n = 15 then setSp v s else { s with w := s.w.set n v }

/-- `if splimEnabled and ea > SPLIM then raise StackError` (R90). -/
def limitCheck (ea : Word) (s : State) : State :=
  if s.splimEnabled && decide (s.splim < ea) then raiseStack s else s

/-! ### The special function registers (R52, R53) -/

/-- A software write of `v` to DISICNT (R132). -/
def writeDisicnt (v : Word) (s : State) : State :=
  let v14 := v.extractLsb' 0 14
  if v14 = 0#14 then { s with disicnt := v14, disicntStray := false }.setDisi false
  else if s.disiActive then { s with disicnt := v14 }
  else { s with disicnt := v14, disicntStray := true, strayBound := v14 }

/-- A read of a register. Bits the spec does not describe (RCON, OSCCON), and DISICNT after a stray write (R132), are
free values (log entries 13 and 15). -/
def readSfr (r : Sfr) (s : State) : Word × State :=
  match r with
  | .w n => (readW n s, s)
  | .splim => (s.splim, s)
  | .sr => (srRead s.sr, s)
  | .corcon => (corconRead s.corcon, s)
  | .disicnt =>
    if s.disicntStray then
      let (v, s) := drawUpTo s.strayBound s
      (0#2 ++ v, s)
    else (0#2 ++ s.disicnt, s)
  | .rcon =>
    let (v, s) := drawWord s
    (withBit v 15 s.trapr, s)
  | .osccon =>
    let (v, s) := drawWord s
    (withBit v 3 s.cf, s)
  | .intcon1 => (intcon1Bits s.intcon1, s)
  | .intcon2 => (intcon2Read s.intcon2, s)
  | .ifs n => (s.ifs[n] &&& flagMask s.cfg n.val, s)
  | .iec n => (s.iec[n] &&& flagMask s.cfg n.val, s)
  | .ipc n => (s.ipc[n] &&& priMask s.cfg n.val, s)

/-- A software write of a register; `isWord` tells a word write from the write of one of its bytes merged with the
other, which matters to SPLIM alone (R23, R53). -/
def writeSfr (r : Sfr) (isWord : Bool) (v : Word) (s : State) : State :=
  match r with
  | .w n => writeW n v s
  | .splim => { s with splim := v, splimEnabled := s.splimEnabled || isWord }
  | .sr => { s with sr := srWritten s.nstdis s.sr v }
  | .corcon => { s with corcon := corconWritten s.corcon v }
  | .disicnt => writeDisicnt v s
  | .rcon => { s with trapr := v.getLsbD 15 }
  | .osccon => { s with cf := v.getLsbD 3 }
  | .intcon1 => { s with intcon1 := intcon1Bits v }
  | .intcon2 => { s with intcon2 := intcon2Written s.intcon2 v }
  | .ifs n => { s with ifs := s.ifs.set n (v &&& flagMask s.cfg n.val) }
  | .iec n => { s with iec := s.iec.set n (v &&& flagMask s.cfg n.val) }
  | .ipc n => { s with ipc := s.ipc.set n (v &&& priMask s.cfg n.val) }

/-! ### Data accesses (R85 to R88, R90, R160, R200) -/

/-- The byte of `v` that stands at address `a`. -/
def byteAt (a v : Word) : Byte := if a.getLsbD 0 then v.extractLsb' 8 8 else v.extractLsb' 0 8

/-- `v` with the byte that stands at address `a` replaced. -/
def withByteAt (a v : Word) (b : Byte) : Word :=
  if a.getLsbD 0 then b ++ v.extractLsb' 0 8 else v.extractLsb' 8 8 ++ b

/-- The data at an address, register or memory; a byte is zero-extended. -/
def readData (width : Width) (a : Word) (s : State) : Act (Word × State) :=
  match width with
  | .word =>
    match sfrAt s.cfg a with
    | some r => .ok (readSfr r s)
    | none => (ramWord a s).map fun v => (v, s)
  | .byte =>
    match sfrAt s.cfg (wordBase a) with
    | some r =>
      let (v, s) := readSfr r s
      .ok ((byteAt a v).setWidth 16, s)
    | none => (ramByte a.toNat s).map fun b => (b.setWidth 16, s)

/-- The data at an address written; a byte write takes the low byte of `v`. -/
def writeData (width : Width) (a v : Word) (s : State) : State :=
  match width with
  | .word =>
    match sfrAt s.cfg a with
    | some r => writeSfr r true v s
    | none => setRamWord a v s
  | .byte =>
    match sfrAt s.cfg (wordBase a) with
    | some r =>
      let (old, s) := readSfr r s
      writeSfr r false (withByteAt a old (v.extractLsb' 0 8)) s
    | none => setRamByte a (v.extractLsb' 0 8) s

/-- A write to an unimplemented data address is dropped (R88). -/
def storeAt (width : Width) (a v : Word) (s : State) : State :=
  if dataImpl s a then writeData width a v s else s

/-- A word access, or an indirect bit manipulation, at an odd address (R87, R159). -/
def misaligned (width : Width) (bitManip : Bool) (a : Word) : Bool :=
  a.getLsbD 0 && (width == .word || bitManip)

/-- A data read: the value, whether it raised the address error, and the state. A misaligned read or one from an
unimplemented address raises the condition and delivers a free value (R87, R88, R160). -/
def load (width : Width) (viaW15 bitManip : Bool) (a : Word) (s : State) : Act (Word × Bool × State) :=
  let bad := misaligned width bitManip a || !dataImpl s a
  do
    let s ← raiseAddressIf bad s
    let s := if viaW15 then limitCheck a s else s
    if bad then
      let (v, s) := drawWord s
      .ok (v, true, s)
    else
      let (v, s) ← readData width a s
      .ok (v, false, s)

/-- A data write, inhibited when the instruction has raised the address error before (`inhibited`) or by this access:
whether this access raised it, and the state (R87, R160, R200). -/
def store (width : Width) (viaW15 bitManip : Bool) (a v : Word) (inhibited : Bool) (s : State) :
    Act (Bool × State) :=
  let bad := misaligned width bitManip a
  do
    let s ← raiseAddressIf bad s
    let s := if viaW15 then limitCheck a s else s
    .ok (bad, if bad || inhibited then s else storeAt width a v s)

/-! ### The stack (R22, R90) -/

/-- `MemWrite(x[15], 2, v); x[15] <- x[15] + 2`, W15 the destination pointer; the address is even, so the access raises
no address error. Where W15 points at a register, the write is a software word write of it (R53), the push of an exception
entry too: DESIGN CHOICE (log entry 27). -/
def pushWord (inhibited : Bool) (v : Word) (s : State) : State :=
  let ea := s.sp
  let s := limitCheck ea s
  let s := if inhibited then s else storeAt .word ea v s
  let wrapped := decide (0x10000 ≤ s.sp.toNat + 2)
  let s := setSp (s.sp + 2#16) s
  if wrapped then raiseStack s else s

/-- `x[15] <- x[15] - 2; v <- MemRead(x[15], 2)`, W15 the source pointer. -/
def popWord (s : State) : Act (Word × Bool × State) :=
  let s := setSp (s.sp - 2#16) s
  load .word true false s.sp s

/-! ### Arbitration (R184, R189, R214) -/

/-- `eligibleTrap(t)`. -/
def eligibleTrap (s : State) (t : Trap) : Bool := trapFlag t s && decide (s.cpuPri < trapLevel t)

/-- `intReq(v)`: flag and enable set (R203). -/
def intReq (s : State) (v : Nat) : Bool := intFlag s v && intEnable s v

/-- `eligibleInt(v)`: requested, above the CPU priority, and not masked by DISI (R202). -/
def eligibleInt (s : State) (v : Nat) : Bool :=
  intReq s v && decide (s.cpuPri < (intPri s v).setWidth 4) && !(s.disiActive && decide (intPri s v ≤ 6#3))

/-- The better of the best vector so far and `v`: the higher user-assigned priority, the earlier vector on a tie. -/
def betterInt (s : State) (best : Option Nat) (v : Nat) : Option Nat :=
  if eligibleInt s v then
    match best with
    | none => some v
    | some b => if intPri s b < intPri s v then some v else some b
  else best

/-- The eligible interrupt of greatest priority, natural order breaking ties (R188). -/
def selectInt (s : State) : Option Nat := (List.range 118).foldl (betterInt s) none

/-- `Select()` (R189): the eligible trap of greatest level, else the best eligible interrupt. -/
def select (s : State) : Option Exc :=
  match allTraps.find? (eligibleTrap s) with
  | some t => some (.trap t)
  | none => (selectInt s).map .int

/-- `wake`: some enabled source of priority 1 or more requests (R214). -/
def wake (s : State) : Bool := (List.range 118).any fun v => intReq s v && decide (1#3 ≤ intPri s v)

/-! ### Taking an exception (R205 to R210) and returning from one (R131, R211) -/

/-- The low word of the frame: PC<15:0> (R205, R206). -/
def frameLow (s : State) : Word := s.pc.extractLsb' 0 16

/-- The high word of the frame: SRL : IPL3 : PC<22:16> (R205, R206; log entry 10). -/
def frameHigh (s : State) : Word := s.srl ++ BitVec.ofBool s.ipl3 ++ s.pc.extractLsb' 16 7

/-- IPL<2:0> after entry: the source's priority, 111 under NSTDIS (R207), a trap's level less 8 (R208). Of the state
before the pushes: for NSTDIS a DESIGN CHOICE (log entry 21). -/
def entryIpl (e : Exc) (s : State) : BitVec 3 :=
  match e with
  | .trap t => (trapLevel t).extractLsb' 0 3
  | .int v => if s.nstdis then 7#3 else intPri s v

/-- IPL<2:0> and IPL3 written at entry; an interrupt leaves IPL3 as it is (R207, R208). -/
def setEntryPri (e : Exc) (ipl : BitVec 3) (s : State) : State :=
  let s := { s with sr := withIpl s.sr ipl }
  match e with
  | .trap _ => { s with corcon := withBit s.corcon 3 true }
  | .int _ => s

/-- The first slot of the table ALTIVT selects (R33, R83). -/
def tableBase (s : State) : Nat := if s.altivt then 0x000104 else 0x000004

/-- `TrapVectorAddr(t)` (R83). -/
def trapVectorAddr (t : Nat) (s : State) : Nat := tableBase s + 2 * t

/-- `InterruptVectorAddr(v)` (R83). -/
def interruptVectorAddr (v : Nat) (s : State) : Nat := tableBase s + 0x10 + 2 * v

/-- The address of the vector slot of an exception (R83, R209). -/
def vectorAddr (e : Exc) (s : State) : Nat :=
  match e with
  | .trap t => trapVectorAddr (trapNumber t) s
  | .int v => interruptVectorAddr v s

/-- `Enter(e)`: stack the frame, write the new priority, fetch the vector, four cycles (R205, R207 to R209). -/
def enter (e : Exc) (s : State) : Act State :=
  let ipl := entryIpl e s
  let high := frameHigh s
  let s := pushWord false (frameLow s) s
  let s := pushWord false high s
  let s := setEntryPri e ipl s
  let va := vectorAddr e s
  do
    let vec ← progRead va s
    if vec.getLsbD 23 || vec.getLsbD 0 then .error (.refused (.badVector va))
    else
      let s ← jump (vec.extractLsb' 0 23) s
      .ok (tick 4 { s with cpuMode := .run, ackDefer := 0 })

/-- The return address of a frame; bit 0 of the low word is ignored (R131, R154). -/
def framePc (high low : Word) : Pc := high.extractLsb' 0 7 ++ low.extractLsb' 1 15 ++ 0#1

/-- SRL and IPL3 restored from the high word, by hardware (R131); RA is 0 throughout (R26, D24; log entry 14). -/
def restoreStatus (high : Word) (s : State) : State :=
  { s with sr := withSrl s.sr (high.extractLsb' 8 8 &&& 0xEF#8), corcon := withBit s.corcon 3 (high.getLsbD 7) }

/-- The two words on top of the stack, the higher address first (R131, R154): the high word, whether its read raised
the address error (its value is then a free value), and the low word. -/
def popFrame (s : State) : Act (Word × Bool × Word × State) := do
  let (high, bad, s) ← popWord s
  let (low, _, s) ← popWord s
  .ok (high, bad, low, s)

/-- Return from an exception: pop the frame, restore SRL and IPL3, then pc (R131, R211). A frame word with the bit of RA
set is refused (R26, D24, U18); the free value of an offending read is taken with that bit 0 (log entry 14). -/
def returnFromException (s : State) : Act State := do
  let (high, bad, low, s) ← popFrame s
  if high.getLsbD 12 && !bad then .error (.refused .repeatActive)
  else jump (framePc high low) (restoreStatus high s)

end Sys2Proof.Machine
end

