-- ==== Sys2Proof/Machine/Operands.lean ====
section
/-! DEFINITION. The operand forms of spec/30_encoding.md R114 as the instructions use them. -/

namespace Sys2Proof.Machine

/-- The target of `BRA` at address `p`: p + 2 + 2 * sext(slit16), modulo 2^23 (R114 (b)). -/
def branchTarget (p : Pc) (slit16 : Word) : Pc := p + 2#23 + 2#23 * slit16.signExtend 23

/-- A file register operand read as a word (R155): the value, whether it raised the address error, the state. -/
def loadFile (f : Word) (s : State) : Act (Word × Bool × State) := load .word false false f s

/-- A file register operand written as a word (R156): a software write when it is a register (R53). -/
def storeFile (f v : Word) (inhibited : Bool) (s : State) : Act State :=
  (store .word false false f v inhibited s).map fun r => r.2

/-- The mode `PWRSAV #lit1` enters (R151). -/
def powerMode : LowPower → CpuMode
  | .sleep => .sleep
  | .idle => .idle

end Sys2Proof.Machine
end

