-- ==== Sys2Proof/Machine/Flow.lean ====
section
/-! DEFINITION. Control flow: `NOP`, `GOTO` and its second word, `RETURN`, `BRA` (spec/41_referenced_instructions.md R152
to R154, R157). Every instruction ends with Tick (R133). -/

namespace Sys2Proof.Machine

/-- A one-cycle instruction that does nothing but move pc to the next word (R157). -/
def doNothing (s : State) : Host.Outcome State Fault Refusal := finish ((advance s).map (tick 1))

/-- `NOP` (R157). -/
def execNop (s : State) : Host.Outcome State Fault Refusal := doNothing s

/-- `GOTO Expr` (R152). -/
def execGoto (target : Pc) (s : State) : Host.Outcome State Fault Refusal :=
  finish ((jump target s).map (tick s.cfg.cycles.goto))

/-- The second word of a `GOTO`, executed by itself: a `NOP` (R112); its target bits mean nothing. -/
def execGotoWord2 (_high : BitVec 7) (s : State) : Host.Outcome State Fault Refusal := doNothing s

/-- `RETURN`: pop two words, pc from them; SRL and IPL3 stay (R154). -/
def execReturn (s : State) : Host.Outcome State Fault Refusal :=
  finish do
    let (high, _, low, t) ← popFrame s
    let t ← jump (framePc high low) t
    .ok (tick s.cfg.cycles.ret t)

/-- `BRA Expr` (R153). -/
def execBra (slit16 : Word) (s : State) : Host.Outcome State Fault Refusal :=
  finish ((jump (branchTarget s.pc slit16) s).map (tick s.cfg.cycles.bra))

end Sys2Proof.Machine
end

