-- ==== Sys2Proof/Machine/Interrupt.lean ====
section
/-! DEFINITION. `DISI` and `RETFIE` (spec/40_interrupt_instructions.md R130, R131). -/

namespace Sys2Proof.Machine

/-- The window `DISI #k` opens: DISICNT and INTCON2.DISI, and the stray mark cleared (R130, R132). -/
def openWindow (k : BitVec 14) (s : State) : State :=
  { s with disicnt := k, disicntStray := false }.setDisi (k != 0#14)

/-- `DISI #lit14`: the cycles of the instruction count against an older window, then the count is loaded (R130, R133). -/
def execDisi (lit14 : BitVec 14) (s : State) : Host.Outcome State Fault Refusal :=
  finish (advance (openWindow lit14 (tick s.cfg.cycles.disi s)))

/-- `RETFIE`: three cycles (R131). -/
def execRetfie (s : State) : Host.Outcome State Fault Refusal :=
  finish ((returnFromException s).map (tick 3))

end Sys2Proof.Machine
end

