-- ==== Sys2Proof/Machine/Stack.lean ====
section
/-! DEFINITION. `PUSH f` and `POP f` (spec/41_referenced_instructions.md R155, R156). -/

namespace Sys2Proof.Machine

/-- `PUSH f`: read f, write it at W15, then W15 + 2; the write is inhibited when the read raised the address error
(R155, R160, R200). -/
def execPush (f : Word) (s : State) : Host.Outcome State Fault Refusal :=
  finish do
    let (v, bad, t) ← loadFile f s
    let t ← advance (pushWord bad v t)
    .ok (tick s.cfg.cycles.push t)

/-- `POP f`: W15 - 2, read at W15, write f; the write is inhibited when the read raised the address error (R156, R160,
R200). -/
def execPop (f : Word) (s : State) : Host.Outcome State Fault Refusal :=
  finish do
    let (v, bad, t) ← popWord s
    let t ← storeFile f v bad t
    let t ← advance t
    .ok (tick s.cfg.cycles.pop t)

end Sys2Proof.Machine
end

