-- ==== Sys2Proof/Machine/System.lean ====
section
/-! DEFINITION. `RESET` and `PWRSAV` (spec/41_referenced_instructions.md R150, R151). -/

namespace Sys2Proof.Machine

/-- `RESET`: a software Reset of the device (R150, R260). -/
def execReset (s : State) : Host.Outcome State Fault Refusal := .next (deviceReset .software s)

/-- `PWRSAV #lit1`: pc + 2 and the mode; refused inside a DISI window (R151, R133). -/
def execPwrsav (mode : LowPower) (s : State) : Host.Outcome State Fault Refusal :=
  if s.disiActive then .refused .disiAcrossSleep
  else finish ((advance { s with cpuMode := powerMode mode }).map (tick s.cfg.cycles.pwrsav))

end Sys2Proof.Machine
end

