-- ==== Sys2Proof/Machine/Dispatch.lean ====
section
/-! DEFINITION. The one match that gives each instruction its meaning. -/

namespace Sys2Proof.Machine

def exec (i : Instr) (s : State) : Host.Outcome State Fault Refusal :=
  match i with
  | .nop => Sys2Proof.Machine.execNop s
  | .goto target => Sys2Proof.Machine.execGoto target s
  | .gotoWord2 high => Sys2Proof.Machine.execGotoWord2 high s
  | .ret => Sys2Proof.Machine.execReturn s
  | .retfie => Sys2Proof.Machine.execRetfie s
  | .bra slit16 => Sys2Proof.Machine.execBra slit16 s
  | .push f => Sys2Proof.Machine.execPush f s
  | .pop f => Sys2Proof.Machine.execPop f s
  | .disi lit14 => Sys2Proof.Machine.execDisi lit14 s
  | .reset => Sys2Proof.Machine.execReset s
  | .pwrsav mode => Sys2Proof.Machine.execPwrsav mode s

end Sys2Proof.Machine
end

