-- ==== Sys2Proof/Machine/Other.lean ====
section
/-! DEFINITION. `OTHER eff`: the step of an instruction outside the spec, given its declared effect
(spec/41_referenced_instructions.md R158 to R161). -/

namespace Sys2Proof.Machine

/-- The value a write of a declared effect carries, `last` being the value the instruction last read. -/
def writeValue (v : WriteValue) (last : Word) (s : State) : Word × State :=
  match v with
  | .const w => (w, s)
  | .modify keep set toggle => (((last &&& keep) ||| set) ^^^ toggle, s)
  | .free => drawWord s

/-- One access: `bad` says an access of this instruction has raised the address error, `last` is the value last read
(R160). -/
def doAccess (a : Access) (bad : Bool) (last : Word) (s : State) : Act (Bool × Word × State) :=
  match a.direction with
  | .read => do
    let (v, err, s) ← load a.width a.viaW15 a.indirectBitManip a.addr s
    .ok (bad || err, v, s)
  | .write val => do
    let (v, s) := writeValue val last s
    let (err, s) ← store a.width a.viaW15 a.indirectBitManip a.addr v bad s
    .ok (bad || err, last, s)

/-- The accesses in order (R160). -/
def doAccesses : List Access → Bool → Word → State → Act State
  | [], _, _, s => .ok s
  | a :: rest, bad, last, s => do
    let (bad, last, s) ← doAccess a bad last s
    doAccesses rest bad last s

/-- The update of W15, if any (R160, R90). -/
def updatePointer (u : Option PointerUpdate) (s : State) : State :=
  match u with
  | none => s
  | some u => if u.wrapped then raiseStack (setSp u.value s) else setSp u.value s

/-- The step of `OTHER eff` (R160). -/
def execOther (e : Effect) (s : State) : Host.Outcome State Fault Refusal :=
  finish do
    let s ← doAccesses e.accesses false 0#16 s
    let s := updatePointer e.w15 s
    let s := if e.divByZero then raiseMath s else s
    let s ← jump e.next s
    .ok (tick e.cycles s)

/-- The data address of a register (R52). -/
def sfrAddress (c : Config) (r : Sfr) : Option Nat := (c.sfrAddr.find? fun p => p.2 == r).map Prod.fst

/-- The instruction that ORs 0xE0 into SRL (R161, R225), as a declared effect: one byte read and one byte write at
`sfrAddr(SR)`. `flags` are RA, N, OV, Z, C "as the instruction's own flag rules leave them". -/
def orSrlEffect (srAddr : Word) (flags : BitVec 5) (next : Pc) : Effect :=
  { accesses :=
      [{ addr := srAddr, width := .byte, direction := .read, viaW15 := false, indirectBitManip := false },
       { addr := srAddr, width := .byte, direction := .write (.modify 0x00E0#16 (0x00E0#16 ||| flags.setWidth 16) 0#16),
         viaW15 := false, indirectBitManip := false }]
    w15 := none
    next := next
    divByZero := false
    cycles := 1 }

end Sys2Proof.Machine
end

