-- ==== Sys2Proof/Machine/Cpu.lean ====
section
/-! DEFINITION. Fetching an instruction, the CPU's step, and the steps of the other agents (spec/60_exceptions.md R192,
R195, R198, R203, R214, R215, R223). -/

namespace Sys2Proof.Machine

/-- What a fetch finds: an instruction of the table, or the declared effect of one outside the spec (R115, R117). -/
inductive Fetched where
  | instr (i : Instr)
  | other (e : Effect)
  deriving DecidableEq, Repr

/-- Fetching from an unimplemented address `p`: the address error condition is raised with pc there, and nothing is
executed (R89, R199 cause 5, U6). -/
def fetchUnimplemented {α : Type} (p : Pc) (s : State) : Act α :=
  match raiseHard .addressError { s with pc := p } with
  | .ok s => .error (.next s)
  | .error o => .error o

/-- The declared effect at pc, or else an outcome (R115). -/
def declaredOr (o : Host.Outcome State Fault Refusal) (s : State) : Act Fetched :=
  match s.others.lookup s.pc.toNat with
  | some e => .ok (.other e)
  | none => .error o

/-- The words of the instruction of the table that starts with `w` at pc, as far as they are programmed (R112). -/
def fetchRest (w : ProgWord) (s : State) : Act (List ProgWord) :=
  if isTwoWord w then
    if progImpl s (seqPc s.pc) then .ok (w :: (cellGet s.prog (seqPc s.pc).toNat).toList)
    else fetchUnimplemented (seqPc s.pc) s
  else .ok [w]

/-- Why the words at pc, of which the first is in a row, are no instruction of the table: the second word is not
programmed (U10), or it does not fit (R115). -/
def fetchError (e : DecodeError) (s : State) : Host.Outcome State Fault Refusal :=
  match e with
  | .missingWord => .fault (.unprogrammed (seqPc s.pc).toNat)
  | .unknownWord _ => .refused (.unknownInstruction s.pc.toNat)
  | .unknownSecondWord _ => .refused (.unknownInstruction s.pc.toNat)

/-- The instruction at pc (R223 `ExecuteNextInstruction`). A first word in no row is looked up among the declared
effects or refused, whatever follows it (R115, U15). -/
def fetch (s : State) : Act Fetched :=
  if progImpl s s.pc then
    match cellGet s.prog s.pc.toNat with
    | none => declaredOr (.fault (.unprogrammed s.pc.toNat)) s
    | some w =>
      if inNoRow w then declaredOr (.refused (.unknownInstruction s.pc.toNat)) s
      else do
        let ws ← fetchRest w s
        match decode .first ws with
        | .ok (i, _) => .ok (.instr i)
        | .error e => declaredOr (fetchError e s) s
  else fetchUnimplemented s.pc s

/-- `ExecuteNextInstruction()` (R223). -/
def executeNext (s : State) : Host.Outcome State Fault Refusal :=
  match fetch s with
  | .ok (.instr i) => exec i s
  | .ok (.other e) => execOther e s
  | .error o => o

/-- The exception may be put off by one more instruction: not a hard trap, and the counter below ACK_SLIP_MAX (R192,
R195). -/
def mayDefer (e : Exc) (s : State) : Bool :=
  match e with
  | .trap t => !isHard t && decide (s.ackDefer < s.cfg.ackSlipMax)
  | .int _ => decide (s.ackDefer < s.cfg.ackSlipMax)

/-- Enter the selected exception now, or, where that is open, execute one more instruction first: a free choice (R192,
R223; log entry 7). -/
def enterOrDefer (e : Exc) (s : State) : Host.Outcome State Fault Refusal :=
  if mayDefer e s then
    let (slip, s) := drawBit s
    if slip then executeNext { s with ackDefer := s.ackDefer + 1 } else finish (enter e s)
  else finish (enter e s)

/-- The step of a CPU that is awake (R223). -/
def awakeStep (s : State) : Host.Outcome State Fault Refusal :=
  match select s with
  | some e => enterOrDefer e s
  | none => executeNext { s with ackDefer := 0 }

/-- `CpuStep()` (R223): asleep with nothing to wake it, the CPU takes no step (R214). -/
def cpuStep (s : State) : Host.Outcome State Fault Refusal :=
  match s.cpuMode with
  | .run => awakeStep s
  | .sleep => if wake s then awakeStep { s with cpuMode := .run } else .next s
  | .idle => if wake s then awakeStep { s with cpuMode := .run } else .next s

/-- The edge sets the pin's flag: the device has the pin (R5), and INTxEP selects the edge (R215). -/
def edgeSelected (pin : Fin 5) (e : Edge) (s : State) : Bool :=
  decide (pin.val < s.cfg.nExtInt.val) &&
    match e with
    | .rising => !s.intEdgeNegative pin
    | .falling => s.intEdgeNegative pin

/-- A step of another agent (R198, R203, R215, R261). -/
def agentStep (e : Event) (s : State) : Host.Outcome State Fault Refusal :=
  match e with
  | .request v => .next (setIntFlag s v)
  | .edge pin e => .next (if edgeSelected pin e s then setIntFlag s s.cfg.extIntVec[pin] else s)
  | .clockFailure =>
    if s.cfg.fscmEn then finish ((raiseHard .oscillatorFailure s).map fun s => { s with cf := true }) else .next s
  | .externalReset => .next (deviceReset .external s)

/-- One step of the machine: the next turn's agent, or the CPU when no turn is listed (R10, R223; log entry 6). -/
def turnStep (s : State) : Host.Outcome State Fault Refusal :=
  match s.schedule with
  | [] => cpuStep s
  | .cpu :: rest => cpuStep { s with schedule := rest }
  | .agent e :: rest => agentStep e { s with schedule := rest }

/-- The end of a run, which the spec leaves to the model (R223, D1; log entry 6): the CPU is awake at a `BRA .`
(0x37FFFF), the source's idle loop, no exception is selected and no DISI window holds one back. While only the CPU
steps it stays there (`runEnded_step`). It does not claim that the other agents have stopped: a later request, trap
condition or Reset takes the CPU out of the loop again. -/
def runEnded (s : State) : Bool :=
  s.cpuMode == .run && progImpl s s.pc && cellGet s.prog s.pc.toNat == some 0x37FFFF#24 && !s.disiActive &&
    (select s).isNone

/-- Program memory with a two-word instruction stored at pc (R81). -/
def placeWords (ws : List ProgWord) (s : State) : State :=
  { s with prog := (ws.foldl (fun (acc : ProgMemory × Pc) w => (cellSet acc.1 acc.2.toNat w, seqPc acc.2)) (s.prog, s.pc)).1 }

end Sys2Proof.Machine
end

