-- ==== Sys2Proof/Machine/Step.lean ====
section
/-! DEFINITION. One step of the machine, and a state in which the next step runs a given instruction word. -/

namespace Sys2Proof.Machine

/-- One step (R223). -/
def step (s : State) : Host.Outcome State Fault Refusal := turnStep s

/-- `s` with the instruction whose bits are `w` (numbered as spec/opcode_table.json numbers them) stored at pc, its
second word after it (log entry 5). -/
def State.withFetchWord (s : State) (nbits w : Nat) : State := placeWords (tableWords nbits w) s

end Sys2Proof.Machine
end

