-- ==== Sys2Proof/Safety.lean ====
section
/-! DEFINITION. The terms the statements about the machine are written in: what is always true of a state, and when a stack
access, a jump or a data access is an ordinary one. -/

namespace Sys2Proof.Machine

/-- What holds after reset and what every step keeps: even pc and W15 (R21, R22), unimplemented bits 0 (R24, R27, R29,
R32, R36 to R42, R45, R53), RA 0 (R26, D24), the DISI invariant of R133, the stray mark only outside a window (R132),
and data memory in canonical form. -/
structure State.Inv (s : State) : Prop where
  pcEven : evenPc s.pc = true
  spEven : s.w[15].getLsbD 0 = false
  srBits : s.sr &&& 0xFE10#16 = 0#16
  corconBits : s.corcon &&& 0xFFF3#16 = 0#16
  intcon1Bits : s.intcon1 &&& 0x7FE1#16 = 0#16
  intcon2Bits : s.intcon2 &&& 0x3FE0#16 = 0#16
  ifsBits : ∀ n : Fin 8, s.ifs[n] &&& ~~~(flagMask s.cfg n.val) = 0#16
  iecBits : ∀ n : Fin 8, s.iec[n] &&& ~~~(flagMask s.cfg n.val) = 0#16
  ipcBits : ∀ n : Fin 30, s.ipc[n] &&& ~~~(priMask s.cfg n.val) = 0#16
  disiCounts : s.disiActive = true → s.disicnt ≠ 0#14
  strayOutside : s.disicntStray = true → s.disiActive = false
  memWf : Memory.wf s.mem

/-- The even address `a` is an implemented word of data memory, no register (R85, R88). -/
def plainWord (s : State) (a : Word) : Prop :=
  a.getLsbD 0 = false ∧ dataImpl s a = true ∧ sfrAt s.cfg a = none

/-- The word at the even address `a` of data memory is `v`, low byte first (R86). -/
def holdsWord (s : State) (a v : Word) : Prop :=
  plainWord s a ∧ cellGet s.mem a.toNat = some (v.extractLsb' 0 8) ∧
    cellGet s.mem (a.toNat + 1) = some (v.extractLsb' 8 8)

/-- An access through W15 at `ea` passes the SPLIM check (R90). -/
def withinLimit (s : State) (ea : Word) : Prop := s.splimEnabled = true → ea ≤ s.splim

/-- The two words a push of a frame writes: above the floor, no wrap, ordinary memory (R90, R205). -/
def frameRoom (s : State) : Prop :=
  0x0800 ≤ s.sp.toNat ∧ s.sp.toNat + 4 < 0x10000 ∧ plainWord s s.sp ∧ plainWord s (s.sp + 2#16)

/-- No hard trap conflict and no unacknowledgeable trap if an address error occurs now (R197). -/
def addressErrorPends (s : State) : Prop := trapFlag .oscillatorFailure s = false ∧ s.cpuPri < 13#4

/-- The address of the next program word is implemented, and not past the top of program memory (R21, R89). -/
def nextImplemented (s : State) : Prop :=
  s.pc.toNat + 2 < 0x800000 ∧ evenPc s.pc = true ∧ progImpl s (s.pc + 2#23) = true

/-- The instruction cycles an instruction counts DISICNT down by (R118, R133); `DISI` loads it and `RESET` clears it. -/
def ticksOf (c : Cycles) : Instr → Nat
  | .nop => 1
  | .goto _ => c.goto
  | .gotoWord2 _ => 1
  | .ret => c.ret
  | .retfie => 3
  | .bra _ => c.bra
  | .push _ => c.push
  | .pop _ => c.pop
  | .disi _ => 0
  | .reset => 0
  | .pwrsav _ => c.pwrsav

/-- Every register of `t` that R54 gives a value at any Reset holds it, and the program image and the configuration are
those of `s`. SPLIM, W0 to W14, TRAPR and CF are not said: R54 leaves them open. -/
def resetFrom (s t : State) : Prop :=
  t.pc = 0x000000#23 ∧ t.sp = 0x0800#16 ∧ t.splimEnabled = false ∧ t.sr = 0x0000#16 ∧ t.corcon = 0x0000#16 ∧
  t.cpuPri = 0#4 ∧ t.intcon1 = 0x0000#16 ∧ t.intcon2 = 0x0000#16 ∧ t.disicnt = 0#14 ∧ t.disicntStray = false ∧
  t.cpuMode = .run ∧ t.ackDefer = 0 ∧
  (∀ v, intFlag t v = false ∧ intEnable t v = false ∧ (implemented s.cfg v = true → intPri t v = 4#3)) ∧
  t.prog = s.prog ∧ t.others = s.others ∧ t.cfg = s.cfg

/-- `p` is the CPU priority a `RETFIE` now would restore: the IPL3 and IPL<2:0> of the frame it pops (R131). -/
def restoresPri (s : State) (p : BitVec 4) : Prop :=
  ∃ high bad low u, popFrame s = .ok (high, bad, low, u) ∧ p = BitVec.ofBool (high.getLsbD 7) ++ high.extractLsb' 13 3

/-- A pop through W15 that ends at the even address `a` raises the stack error: `a` is below the floor, or above SPLIM
with the check armed (R90). -/
def popRaises (s : State) (a : Word) : Prop := a < 0x0800#16 ∨ ¬ withinLimit s a

/-- It is the CPU's turn, and `t` is the state once the turn is taken off the schedule (R10, R223). -/
def cpuTurn (s t : State) : Prop :=
  (s.schedule = [] ∧ t = s) ∨ ∃ rest, s.schedule = .cpu :: rest ∧ t = { s with schedule := rest }

/-- The words at pc are those of one instruction of the table, `i` (R112, R113). -/
def decodesAtPc (s : State) (i : Instr) : Prop :=
  progImpl s s.pc = true ∧ ∃ w, cellGet s.prog s.pc.toNat = some w ∧
    ((isTwoWord w = false ∧ decode .first [w] = .ok (i, [])) ∨
     (isTwoWord w = true ∧ progImpl s (seqPc s.pc) = true ∧
       ∃ w2, cellGet s.prog (seqPc s.pc).toNat = some w2 ∧ decode .first [w, w2] = .ok (i, [])))

end Sys2Proof.Machine
end

