-- ==== Sys2Proof/Certificates/Slice0/Obligations.lean ====
section
/-! DEFINITION. The statements about the machine that the provers settle. Each docstring names the rules of spec/ the
statement formalises or rests on. -/

open Sys2Proof Sys2Proof.Machine

/-! ### Decoding and encoding -/

/-- R113, R114: decoding the words of a well-formed instruction gives it back, every operand at every value its field
admits, whatever follows. The encodings are general knowledge (log entry 11). -/
def Obligations.DecodeOfEncodeIsTheInstruction : Prop :=
  ∀ (i : Instr) (rest : List ProgWord), i.wellFormed = true →
    decode i.position (encode i ++ rest) = .ok (i, rest)

/-- R113, R112: "a word `w` is the instruction iff `w & mask = match`", for every row that a one-word instruction has;
and the first word alone tells the length: two words exactly when bits 23:16 are 0x04 or 0x02. The encodings are general
knowledge (log entry 11). -/
def Obligations.OneWordRowsDecodeExactlyTheirWords : Prop :=
  ∀ (w : ProgWord),
    (∀ r : Row, r ∈ firstRows → r ≠ rowGoto →
      (r.fits w = true ↔ ∃ i, decode .first [w] = .ok (i, []) ∧ i.row = r)) ∧
    (w.extractLsb' 16 8 = 0x04#8 ∨ w.extractLsb' 16 8 = 0x02#8 →
      decode .first [w] = .error .missingWord ∧
      ∀ ws i rest, decode .first (w :: ws) = .ok (i, rest) → ∃ w2, ws = w2 :: rest) ∧
    (¬ (w.extractLsb' 16 8 = 0x04#8 ∨ w.extractLsb' 16 8 = 0x02#8) →
      ∀ ws i rest, decode .first (w :: ws) = .ok (i, rest) → ws = rest)

/-- R113, R114 and the vectors I1 to I17 of spec/95_test_vectors.md: words written out from the encodings. The
encodings are general knowledge (log entry 11). -/
def Obligations.WordsOfTheSpecDecode : Prop :=
  decodeTableWord 24 0x00ABCD = some .nop ∧
  decodeTableWord 24 0x040200 = some (.goto 0x000200#23) ∧
  decode .first [0x042346#24, 0x000001#24] = .ok (.goto 0x012346#23, []) ∧
  decodeTableWord 24 0x060000 = some .ret ∧
  decodeTableWord 24 0x064000 = some .retfie ∧
  decodeTableWord 24 0x37FFFF = some (.bra 0xFFFF#16) ∧
  decodeTableWord 24 0xF80042 = some (.push 0x0042#16) ∧
  decodeTableWord 24 0xF90042 = some (.pop 0x0042#16) ∧
  decodeTableWord 24 0xFC0005 = some (.disi 5#14) ∧
  decodeTableWord 24 0xFE0000 = some .reset ∧
  decodeTableWord 24 0xFE4001 = some (.pwrsav .idle) ∧
  decodeTableWord 24 0xFE8000 = none

/-! ### The CPU's step -/

/-- R223: on the CPU's turn, awake and with no exception selected, a step runs the instruction the words at pc decode
to, with the acknowledgement counter back at 0. The schedule is the model's own (log entry 6). -/
def Obligations.StepRunsTheDecodedInstruction : Prop :=
  ∀ (s t : State) (i : Instr), cpuTurn s t → s.cpuMode = .run → select s = none → decodesAtPc s i →
    step s = exec i { t with ackDefer := 0 }

/-- R115, U15, R112: a word that belongs to no row runs its declared effect, and is refused when none is supplied,
whatever follows it; a `GOTO` word 1 followed by a word that is no `GOTO` word 2 likewise: the spec's choice D35 (log
entry 12). A `GOTO` word 1 whose second word nobody programmed runs its declared effect too, which no rule says and is the
model's own choice (DESIGN CHOICE, log entry 11); with none supplied it is the fault of U10 (log entry 5). One whose second
word would stand at an unimplemented address raises the address error there, which is the model's choice (log entry 18). -/
def Obligations.UnknownWordRunsItsDeclaredEffect : Prop :=
  ∀ (s t : State) (w : ProgWord), cpuTurn s t → s.cpuMode = .run → select s = none → progImpl s s.pc = true →
    cellGet s.prog s.pc.toNat = some w →
    let second := cellGet s.prog (seqPc s.pc).toNat
    ((∀ r ∈ firstRows, r.fits w = false) →
      (∀ e, s.others.lookup s.pc.toNat = some e → step s = execOther e { t with ackDefer := 0 }) ∧
      (s.others.lookup s.pc.toNat = none → step s = .refused (.unknownInstruction s.pc.toNat))) ∧
    (rowGoto.fits w = true →
      (progImpl s (seqPc s.pc) = false → addressErrorPends s →
        step s = .next { t with ackDefer := 0, pc := seqPc s.pc, intcon1 := withBit s.intcon1 3 true }) ∧
      (progImpl s (seqPc s.pc) = true → (∀ w2, second = some w2 → rowGotoWord2.fits w2 = false) →
        (∀ e, s.others.lookup s.pc.toNat = some e → step s = execOther e { t with ackDefer := 0 }) ∧
        (s.others.lookup s.pc.toNat = none →
          (second = none → step s = .fault (.unprogrammed (seqPc s.pc).toNat)) ∧
          (second ≠ none → step s = .refused (.unknownInstruction s.pc.toNat)))))

/-- R89, R199 cause 5, U6: with pc at an unimplemented address nothing executes; the address error is raised. That a
fetch from there raises the error is the model's choice (log entry 18). -/
def Obligations.NothingExecutesFromUnimplementedMemory : Prop :=
  ∀ (s t : State), cpuTurn s t → s.cpuMode = .run → select s = none → progImpl s s.pc = false →
    addressErrorPends s →
    step s = .next { t with ackDefer := 0, intcon1 := withBit s.intcon1 3 true }

/-- R192, R195, R223: a selected hard trap is entered at once; a soft trap or an interrupt is entered, or one more
instruction executes first, which can happen only while the counter is below ACK_SLIP_MAX. Which of the two happens is
a free value (log entry 7). -/
def Obligations.SelectedExceptionIsEnteredOrSlips : Prop :=
  ∀ (s t : State) (e : Exc), cpuTurn s t → s.cpuMode = .run → select s = some e →
    (e = .trap .oscillatorFailure ∨ e = .trap .addressError ∨ s.cfg.ackSlipMax ≤ s.ackDefer →
      step s = finish (enter e t)) ∧
    (e ≠ .trap .oscillatorFailure → e ≠ .trap .addressError → s.ackDefer < s.cfg.ackSlipMax →
      step s = finish (enter e { t with draws := t.draws + 1 }) ∨
      step s = executeNext { t with draws := t.draws + 1, ackDefer := t.ackDefer + 1 })

/-- R214: in Sleep or Idle the CPU takes no step until an enabled source of priority 1 or more requests; then it goes on
as a CPU that is awake. The second clause rests on choices: that nothing else ends Sleep or Idle, a trap flag set
meanwhile among it, is the spec's choice D28 and D38 (log entry 22, unsafe for just this claim), and that a CPU that
waits leaves the state as it is but for the turn is the model's (log entry 6). -/
def Obligations.SleepingCpuWaitsForAnEnabledInterrupt : Prop :=
  ∀ (s t : State), cpuTurn s t → s.cpuMode ≠ .run →
    ((∃ v, intFlag s v = true ∧ intEnable s v = true ∧ 1#3 ≤ intPri s v) →
      step s = step { s with cpuMode := .run }) ∧
    ((∀ v, intFlag s v = true → intEnable s v = true → intPri s v = 0#3) → step s = .next t)

/-! ### Arbitration -/

/-- R189: `Select()`. A trap when its flag is set above the CPU priority, the highest; else the eligible interrupt of
greatest priority, the smaller vector number on a tie; else none. The levels and the flags' bits are those of the
table of R186. The function is the spec's own formalisation (R189; log entry 20). -/
def Obligations.SelectTakesTheHighestRequest : Prop :=
  ∀ (s : State),
    let level := fun t : Trap => match t with
      | .oscillatorFailure => 14#4 | .addressError => 13#4 | .stackError => 12#4 | .mathError => 11#4
    let flag := fun t : Trap => match t with
      | .oscillatorFailure => s.intcon1.getLsbD 1 | .addressError => s.intcon1.getLsbD 3
      | .stackError => s.intcon1.getLsbD 2 | .mathError => s.intcon1.getLsbD 4
    let eligibleT := fun t : Trap => flag t = true ∧ s.cpuPri < level t
    let eligibleI := fun v : Nat => intFlag s v = true ∧ intEnable s v = true ∧
      s.cpuPri < (intPri s v).setWidth 4 ∧ ¬ (s.disiActive = true ∧ intPri s v ≤ 6#3)
    (∀ t, select s = some (.trap t) ↔ eligibleT t ∧ ∀ u, eligibleT u → level u ≤ level t) ∧
    (∀ v, select s = some (.int v) ↔ (∀ t, ¬ eligibleT t) ∧ eligibleI v ∧
      ∀ u, eligibleI u → intPri s u < intPri s v ∨ (intPri s u = intPri s v ∧ v ≤ u)) ∧
    (select s = none ↔ (∀ t, ¬ eligibleT t) ∧ ∀ v, ¬ eligibleI v)

/-- R44: in which register and bit the flag, the enable and the three priority bits of a vector stand. -/
def Obligations.VectorBitsStandWhereTheMapSays : Prop :=
  ∀ (s : State) (n : Fin 8) (x : Fin 16), implemented s.cfg (16 * n.val + x.val) = true →
    intFlag s (16 * n.val + x.val) = s.ifs[n].getLsbD x.val ∧
    intEnable s (16 * n.val + x.val) = s.iec[n].getLsbD x.val ∧
    ∀ (k : Fin 30) (j : Fin 4) (b : Fin 3), 4 * k.val + j.val = 16 * n.val + x.val →
      (intPri s (16 * n.val + x.val)).getLsbD b.val = s.ipc[k].getLsbD (4 * j.val + b.val)

/-- R45 (a choice of the spec, D22): a vector not implemented has no flag, no enable and priority 0, whatever the
registers hold, and it is never selected. Log entry 24. -/
def Obligations.UnimplementedVectorsNeverRequest : Prop :=
  ∀ (s : State) (v : Nat), implemented s.cfg v = false →
    intFlag s v = false ∧ intEnable s v = false ∧ intPri s v = 0#3 ∧ select s ≠ some (.int v)

/-- R202: while INTCON2.DISI = 1 no interrupt of priority 1 to 6 is selected, and neither a level 7 interrupt nor a trap
is affected: what is selected without the mask, if of level 7 or a trap, is selected with it. -/
def Obligations.DisiMasksLevelsOneToSixOnly : Prop :=
  ∀ (s : State), s.disiActive = true →
    (∀ v, select s = some (.int v) → intPri s v = 7#3) ∧
    (∀ t, select s = some (.trap t) ↔ select (s.setDisi false) = some (.trap t)) ∧
    (∀ v, intPri s v = 7#3 → (select s = some (.int v) ↔ select (s.setDisi false) = some (.int v)))

/-- R184: with IPL3 = 1 no user interrupt can start, and with IPL<2:0> = 111 none either. -/
def Obligations.NoInterruptAboveUserLevels : Prop :=
  ∀ (s : State) (v : Nat), s.ipl3 = true ∨ s.ipl = 7#3 → select s ≠ some (.int v)

/-! ### Traps -/

/-- R197, R47: `raiseHard`. A conflict with a pending or running higher trap resets the device with TRAPR 1; at the
trap's own level the spec refuses; otherwise the trap's INTCON1 flag is set. The reading of a conflict and the refusal
are the spec's choices D14 and D15 (log entry 19). -/
def Obligations.HardTrapConflictResetsTheDevice : Prop :=
  ∀ (s : State),
    ((trapFlag .oscillatorFailure s = true ∨ 13#4 < s.cpuPri) →
      raiseHard .addressError s = .error (.next (deviceReset .trapConflict s))) ∧
    (trapFlag .oscillatorFailure s = false → s.cpuPri = 13#4 →
      raiseHard .addressError s = .error (.refused .hardTrapUnacknowledgeable)) ∧
    (addressErrorPends s → raiseHard .addressError s = .ok { s with intcon1 := s.intcon1 ||| 0x0008#16 }) ∧
    (14#4 < s.cpuPri → raiseHard .oscillatorFailure s = .error (.next (deviceReset .trapConflict s))) ∧
    (s.cpuPri = 14#4 → raiseHard .oscillatorFailure s = .error (.refused .hardTrapUnacknowledgeable)) ∧
    (s.cpuPri < 14#4 → raiseHard .oscillatorFailure s = .ok { s with intcon1 := s.intcon1 ||| 0x0002#16 }) ∧
    (deviceReset .trapConflict s).trapr = true

/-! ### Exception entry and return -/

/-- R83: the vector address formulae in both tables, and that an exception uses the slot of its number; the numbers of
the traps are those of the table of R186. -/
def Obligations.VectorAddressFormulae : Prop :=
  ∀ (s : State),
    let base := if s.intcon2.getLsbD 15 then 0x000104 else 0x000004
    (∀ t < 8, trapVectorAddr t s = base + 2 * t) ∧
    (∀ v < 118, interruptVectorAddr v s = base + 0x10 + 2 * v) ∧
    vectorAddr (.trap .oscillatorFailure) s = base + 2 ∧ vectorAddr (.trap .addressError) s = base + 4 ∧
    vectorAddr (.trap .stackError) s = base + 6 ∧ vectorAddr (.trap .mathError) s = base + 8 ∧
    (∀ v, vectorAddr (.int v) s = interruptVectorAddr v s)

/-- R84, R180: no two exceptions share a slot, and every slot lies in its table. Only implemented traps have a vector
(log entry 20). -/
def Obligations.VectorSlotsAreDistinct : Prop :=
  ∀ (s : State) (e e' : Exc), (∀ v, e = .int v → v < 118) → (∀ v, e' = .int v → v < 118) →
    (vectorAddr e s = vectorAddr e' s → e = e') ∧
    vectorAddr e s ≤ (if s.altivt then 0x0001FE else 0x0000FE) ∧
    (if s.altivt then 0x000104 else 0x000004) ≤ vectorAddr e s

/-- R205 to R210, R213: with room on the stack and a good vector, entry stacks PC<15:0> and then
SRL : IPL3 : PC<22:16>, moves W15 up by 4, writes the new priority, loads pc, takes four cycles, and changes nothing else.
A vector at an unimplemented address (R199 cause 5) raises the address error with pc there, when it can pend at the new
priority; in a hard trap conflict the device resets, and at priority 13 the spec refuses. The frame layout is the spec's
choice D4 (log entry 10), the trap's level its choice D11 (log entry 20), that entry completes so its choice D36 (log
entries 18 and 21), the conflict and the refusal its choices D14 and D15 (log entry 19). -/
def Obligations.EntryStacksTheFrameAndVectors : Prop :=
  ∀ (s : State) (e : Exc) (vec : ProgWord), frameRoom s → withinLimit s (s.sp + 2#16) →
    cellGet s.prog (vectorAddr e s) = some vec → vec.getLsbD 23 = false → vec.getLsbD 0 = false →
    let u : State :=
      { s with
        mem := (setRamWord (s.sp + 2#16) (s.sr.extractLsb' 0 8 ++ BitVec.ofBool (s.corcon.getLsbD 3) ++ s.pc.extractLsb' 16 7)
          (setRamWord s.sp (s.pc.extractLsb' 0 16) s)).mem
        w := s.w.set 15 (s.sp + 4#16)
        sr := withIpl s.sr (entryIpl e s)
        corcon := (match e with | .trap _ => withBit s.corcon 3 true | .int _ => s.corcon)
        pc := vec.extractLsb' 0 23
        cpuMode := .run
        ackDefer := 0 }
    (progImpl s (vec.extractLsb' 0 23) = true → enter e s = .ok (tick 4 u)) ∧
    (progImpl s (vec.extractLsb' 0 23) = false →
      (addressErrorPends u → enter e s = .ok (tick 4 { u with intcon1 := withBit s.intcon1 3 true })) ∧
      (trapFlag .oscillatorFailure s = true ∨ 13#4 < u.cpuPri →
        enter e s = .error (.next (deviceReset .trapConflict s))) ∧
      (trapFlag .oscillatorFailure s = false → u.cpuPri = 13#4 →
        enter e s = .error (.refused .hardTrapUnacknowledgeable)))

/-- R207: an interrupt's entry writes the source's priority into IPL<2:0>, 111 under NSTDIS; IPL3 stays 0 and no other
bit of SR changes. -/
def Obligations.InterruptEntryWritesItsPriority : Prop :=
  ∀ (s s' : State) (v : Nat), frameRoom s → s.ipl3 = false → enter (.int v) s = .ok s' →
    s'.ipl = (if s.nstdis then 7#3 else intPri s v) ∧ s'.ipl3 = false ∧
    ∀ i, ¬ (5 ≤ i ∧ i ≤ 7) → s'.sr.getLsbD i = s.sr.getLsbD i

/-- R208, R186: a trap's entry sets IPL3 and writes the trap's level less 8 into IPL<2:0>, whatever NSTDIS is, so that
the CPU priority is the level of the table of R186. The spec's choices D11 and D13 (log entry 20). -/
def Obligations.TrapEntryWritesItsLevel : Prop :=
  ∀ (s s' : State) (t : Trap), enter (.trap t) s = .ok s' →
    s'.ipl3 = true ∧
    s'.ipl = (match t with
      | .oscillatorFailure => 6#3 | .addressError => 5#3 | .stackError => 4#3 | .mathError => 3#3) ∧
    s'.cpuPri = (match t with
      | .oscillatorFailure => 14#4 | .addressError => 13#4 | .stackError => 12#4 | .mathError => 11#4)

/-- R212, R184: an interrupt entered with NSTDIS = 1 leaves no interrupt that could be selected next. -/
def Obligations.NestingDisabledMasksEveryInterrupt : Prop :=
  ∀ (s s' : State) (v u : Nat), frameRoom s → s.ipl3 = false → s.nstdis = true → enter (.int v) s = .ok s' →
    select s' ≠ some (.int u)

/-- R190: after the entry of an interrupt with nesting enabled only a source of higher user-assigned priority can be
selected. -/
def Obligations.NoPreemptionAtTheSameLevel : Prop :=
  ∀ (s s' : State) (v u : Nat), frameRoom s → s.nstdis = false → enter (.int v) s = .ok s' →
    select s' = some (.int u) → intPri s v < intPri s' u

/-- R213: a push of the frame beyond SPLIM sets STKERR, and the entry completes. The spec's choice D36 (log entry 21).
The words of the frame are those of R205 and R206, whose layout is the spec's choice D4 (log entry 10, unsafe for a
statement about the bytes of a frame). -/
def Obligations.EntryBeyondTheLimitCompletes : Prop :=
  ∀ (s : State) (e : Exc) (vec : ProgWord), frameRoom s → ¬ withinLimit s (s.sp + 2#16) →
    cellGet s.prog (vectorAddr e s) = some vec → vec.getLsbD 23 = false → vec.getLsbD 0 = false →
    progImpl s (vec.extractLsb' 0 23) = true →
    ∃ s', enter e s = .ok s' ∧ trapFlag .stackError s' = true ∧ s'.pc = vec.extractLsb' 0 23 ∧ s'.sp = s.sp + 4#16 ∧
      holdsWord s' s.sp (s.pc.extractLsb' 0 16) ∧
      holdsWord s' (s.sp + 2#16) (s.sr.extractLsb' 0 8 ++ BitVec.ofBool (s.corcon.getLsbD 3) ++ s.pc.extractLsb' 16 7)

/-- R84, R209: a vector word with bit 23 or bit 0 set is refused. The spec's choice D21 (log entry 21). -/
def Obligations.BadVectorIsRefused : Prop :=
  ∀ (s : State) (e : Exc) (vec : ProgWord), frameRoom s → cellGet s.prog (vectorAddr e s) = some vec →
    (vec.getLsbD 23 = true ∨ vec.getLsbD 0 = true) →
    enter e s = .error (.refused (.badVector (vectorAddr e s)))

/-- R205, R211, R131: the frame an entry pushed, popped by `RETFIE`, returns to the pc, the SR, the IPL3 and the W15
from before the exception. RA is 0, as it is throughout the spec's model (R26, D24; log entry 14). -/
def Obligations.EntryThenRetfieReturns : Prop :=
  ∀ (s : State) (e : Exc) (vec : ProgWord), frameRoom s → withinLimit s (s.sp + 2#16) →
    s.sr.getLsbD 4 = false → evenPc s.pc = true → progImpl s s.pc = true →
    cellGet s.prog (vectorAddr e s) = some vec → vec.getLsbD 23 = false → vec.getLsbD 0 = false →
    progImpl s (vec.extractLsb' 0 23) = true →
    ∃ h t, enter e s = .ok h ∧ exec .retfie h = .next t ∧ t.pc = s.pc ∧ t.sr = s.sr ∧ t.ipl3 = s.ipl3 ∧
      t.cpuPri = s.cpuPri ∧ t.sp = s.sp ∧ t.ifs = s.ifs ∧ t.intcon1 = s.intcon1

/-! ### The instructions complete -/

/-- R157, R112: `NOP` moves pc to the next word and takes one cycle; the second word of a `GOTO`, executed by itself,
does the same. The latter is general knowledge (log entry 11). -/
def Obligations.NopOnlyAdvances : Prop :=
  ∀ (s : State) (high : BitVec 7), nextImplemented s →
    exec .nop s = .next (tick 1 { s with pc := s.pc + 2#23 }) ∧
    exec (.gotoWord2 high) s = .next (tick 1 { s with pc := s.pc + 2#23 })

/-- R152: `GOTO` to an implemented address. -/
def Obligations.GotoLoadsItsTarget : Prop :=
  ∀ (s : State) (target : Pc), evenPc target = true → progImpl s target = true →
    exec (.goto target) s = .next (tick s.cfg.cycles.goto { s with pc := target })

/-- R153, R114 (b): `BRA` goes to its own address + 2 + 2 * sext(slit16), modulo 2^23, when that is implemented. -/
def Obligations.BranchIsRelativeToTheNextWord : Prop :=
  ∀ (s : State) (slit16 : Word), evenPc s.pc = true →
    progImpl s (BitVec.ofInt 23 ((s.pc.toNat : Int) + 2 + 2 * slit16.toInt)) = true →
    exec (.bra slit16) s = .next (tick s.cfg.cycles.bra
      { s with pc := BitVec.ofInt 23 ((s.pc.toNat : Int) + 2 + 2 * slit16.toInt) })

/-- R199 causes 4 and 5, R152, R153, R89: `GOTO` and `BRA` to an unimplemented address, and `NOP`, `GOTO.word2`, `DISI`,
`PWRSAV`, `PUSH` and `POP` right before one, complete with pc there, their other effects done and the address error
raised. That they complete so is the DEDUCED choice of log entry 18. -/
def Obligations.JumpToUnimplementedRaisesTheAddressError : Prop :=
  ∀ (s : State), addressErrorPends s →
    (∀ target : Pc, evenPc target = true → progImpl s target = false →
      exec (.goto target) s = .next (tick s.cfg.cycles.goto
        { s with pc := target, intcon1 := withBit s.intcon1 3 true })) ∧
    (evenPc s.pc = true → ∀ slit16 : Word,
      progImpl s (BitVec.ofInt 23 ((s.pc.toNat : Int) + 2 + 2 * slit16.toInt)) = false →
      exec (.bra slit16) s = .next (tick s.cfg.cycles.bra
        { s with
          pc := BitVec.ofInt 23 ((s.pc.toNat : Int) + 2 + 2 * slit16.toInt), intcon1 := withBit s.intcon1 3 true })) ∧
    (evenPc s.pc = true → s.pc.toNat + 2 < 0x800000 → progImpl s (s.pc + 2#23) = false →
      exec .nop s = .next (tick 1 { s with pc := s.pc + 2#23, intcon1 := withBit s.intcon1 3 true }) ∧
      (∀ high, exec (.gotoWord2 high) s =
        .next (tick 1 { s with pc := s.pc + 2#23, intcon1 := withBit s.intcon1 3 true })) ∧
      (∀ k, exec (.disi k) s = .next
        { s with
          disicnt := k, disicntStray := false, intcon2 := withBit s.intcon2 14 (k != 0#14), pc := s.pc + 2#23
          intcon1 := withBit s.intcon1 3 true }) ∧
      (s.disiActive = false →
        exec (.pwrsav .sleep) s = .next (tick s.cfg.cycles.pwrsav
          { s with cpuMode := .sleep, pc := s.pc + 2#23, intcon1 := withBit s.intcon1 3 true }) ∧
        exec (.pwrsav .idle) s = .next (tick s.cfg.cycles.pwrsav
          { s with cpuMode := .idle, pc := s.pc + 2#23, intcon1 := withBit s.intcon1 3 true })) ∧
      (∀ (f v : Word) (u : State), f.getLsbD 0 = false → 0x0800 ≤ s.sp.toNat → s.sp.toNat + 2 < 0x10000 →
        plainWord s s.sp → withinLimit s s.sp → dataImpl s f = true → readData .word f s = .ok (v, u) →
        exec (.push f) s = .next (tick s.cfg.cycles.push
          { u with
            mem := (setRamWord s.sp v s).mem, w := s.w.set 15 (s.sp + 2#16), pc := s.pc + 2#23
            intcon1 := withBit s.intcon1 3 true })) ∧
      (∀ f v : Word, f.getLsbD 0 = false → 0x0802 ≤ s.sp.toNat → holdsWord s (s.sp - 2#16) v →
        withinLimit s (s.sp - 2#16) → dataImpl s f = true →
        let u := writeData .word f v { s with w := s.w.set 15 (s.sp - 2#16) }
        addressErrorPends u →
        exec (.pop f) s = .next (tick s.cfg.cycles.pop
          { u with pc := s.pc + 2#23, intcon1 := withBit u.intcon1 3 true })))

/-- R154: `RETURN` takes pc from two words on the stack; SRL and IPL3 stay. General knowledge (log entry 10). -/
def Obligations.ReturnPopsThePc : Prop :=
  ∀ (s : State) (high low : Word), 0x0804 ≤ s.sp.toNat → holdsWord s (s.sp - 2#16) high → holdsWord s (s.sp - 4#16) low →
    withinLimit s (s.sp - 2#16) →
    progImpl s (high.extractLsb' 0 7 ++ low.extractLsb' 1 15 ++ 0#1) = true →
    exec .ret s = .next (tick s.cfg.cycles.ret
      { s with w := s.w.set 15 (s.sp - 4#16), pc := high.extractLsb' 0 7 ++ low.extractLsb' 1 15 ++ 0#1 })

/-- R131: `RETFIE` takes SRL, IPL3 and pc from the frame, whatever NSTDIS is, in three cycles. The layout is the
spec's choice D4 (log entry 10). A frame that would set RA is refused, the spec's choice D24 (R26, U18; log entry 14). -/
def Obligations.RetfieRestoresTheFrame : Prop :=
  ∀ (s : State) (high low : Word), 0x0804 ≤ s.sp.toNat → holdsWord s (s.sp - 2#16) high → holdsWord s (s.sp - 4#16) low →
    withinLimit s (s.sp - 2#16) →
    (high.getLsbD 12 = false → progImpl s (high.extractLsb' 0 7 ++ low.extractLsb' 1 15 ++ 0#1) = true →
      exec .retfie s = .next (tick 3
        { s with
          w := s.w.set 15 (s.sp - 4#16)
          sr := s.sr.extractLsb' 8 8 ++ high.extractLsb' 8 8
          corcon := withBit s.corcon 3 (high.getLsbD 7)
          pc := high.extractLsb' 0 7 ++ low.extractLsb' 1 15 ++ 0#1 })) ∧
    (high.getLsbD 12 = true → exec .retfie s = .refused .repeatActive)

/-- R199 cause 5, R131, R154: `RETURN` and `RETFIE` to an unimplemented address complete with the address error raised
and pc at that address; the restored CPU priority decides whether it can pend. That they complete so is a choice,
DEDUCED (log entry 18; R131 and R199 mark it derived), the frame's layout is the spec's choice D4 (log entry 10), and a
frame with the bit of RA set is refused (log entry 14). -/
def Obligations.ReturnToUnimplementedRaisesTheAddressError : Prop :=
  ∀ (s : State) (high low : Word), 0x0804 ≤ s.sp.toNat → holdsWord s (s.sp - 2#16) high → holdsWord s (s.sp - 4#16) low →
    withinLimit s (s.sp - 2#16) → trapFlag .oscillatorFailure s = false →
    progImpl s (high.extractLsb' 0 7 ++ low.extractLsb' 1 15 ++ 0#1) = false →
    (s.cpuPri < 13#4 → ∃ t, exec .ret s = .next t ∧ trapFlag .addressError t = true ∧
      t.pc = high.extractLsb' 0 7 ++ low.extractLsb' 1 15 ++ 0#1 ∧ t.sr = s.sr ∧ t.corcon = s.corcon) ∧
    (high.getLsbD 12 = false → BitVec.ofBool (high.getLsbD 7) ++ high.extractLsb' 13 3 < 13#4 → ∃ t, exec .retfie s = .next t ∧
      trapFlag .addressError t = true ∧ t.pc = high.extractLsb' 0 7 ++ low.extractLsb' 1 15 ++ 0#1 ∧
      t.srl = high.extractLsb' 8 8 ∧ t.ipl3 = high.getLsbD 7)

/-- R155: `PUSH f` of a readable register or word writes it at W15 and moves W15 up by 2. Of an unimplemented f it sets
ADDRERR, writes nothing and moves W15 all the same (R88, R200; the value read is a free value, log entry 18). -/
def Obligations.PushStoresTheFileRegister : Prop :=
  ∀ (s : State) (f : Word), f.getLsbD 0 = false → 0x0800 ≤ s.sp.toNat → s.sp.toNat + 2 < 0x10000 → plainWord s s.sp →
    withinLimit s s.sp → nextImplemented s →
    (∀ (u : State) (v : Word), dataImpl s f = true → readData .word f s = .ok (v, u) →
      exec (.push f) s = .next (tick s.cfg.cycles.push
        { u with mem := (setRamWord s.sp v s).mem, w := s.w.set 15 (s.sp + 2#16), pc := s.pc + 2#23 })) ∧
    (dataImpl s f = false → addressErrorPends s →
      exec (.push f) s = .next (tick s.cfg.cycles.push
        { s with
          intcon1 := withBit s.intcon1 3 true, draws := s.draws + 1, w := s.w.set 15 (s.sp + 2#16), pc := s.pc + 2#23 }))

/-- R156, R88: `POP f` moves W15 down by 2 and writes the word there to f; a write to an unimplemented address does
nothing. When the stack read is from an unimplemented address it sets ADDRERR, and STKERR where the stack checks of R90
say so, and leaves f unwritten, memory or register (R160, R200). The dropped and the inhibited write are the spec's
choice D32 (log entry 18), the points of the stack checks its choice D25 (log entry 17). -/
def Obligations.PopLoadsTheFileRegister : Prop :=
  ∀ (s : State) (f : Word), f.getLsbD 0 = false → nextImplemented s →
    (∀ v : Word, 0x0802 ≤ s.sp.toNat → holdsWord s (s.sp - 2#16) v → withinLimit s (s.sp - 2#16) →
      (dataImpl s f = true → exec (.pop f) s = .next (tick s.cfg.cycles.pop
        { writeData .word f v { s with w := s.w.set 15 (s.sp - 2#16) } with pc := s.pc + 2#23 })) ∧
      (dataImpl s f = false → exec (.pop f) s = .next (tick s.cfg.cycles.pop
        { s with w := s.w.set 15 (s.sp - 2#16), pc := s.pc + 2#23 }))) ∧
    (dataImpl s (s.sp - 2#16) = false → addressErrorPends s →
      ∃ x, exec (.pop f) s = .next (tick s.cfg.cycles.pop
          { s with w := s.w.set 15 (s.sp - 2#16), pc := s.pc + 2#23, draws := s.draws + 1, intcon1 := x }) ∧
        x.getLsbD 3 = true ∧ (x.getLsbD 2 = true ↔ s.intcon1.getLsbD 2 = true ∨ popRaises s (s.sp - 2#16)) ∧
        ∀ i, i ≠ 2 → i ≠ 3 → x.getLsbD i = s.intcon1.getLsbD i)

/-- R130: `DISI #lit14` loads DISICNT and sets INTCON2.DISI exactly when the literal is not 0. That the literal itself
is loaded is the spec's choice D17 (log entry 13). -/
def Obligations.DisiLoadsTheCounter : Prop :=
  ∀ (s : State) (lit14 : BitVec 14), nextImplemented s →
    exec (.disi lit14) s = .next
      { s with
        disicnt := lit14
        disicntStray := false
        intcon2 := withBit s.intcon2 14 (lit14 != 0#14)
        pc := s.pc + 2#23 }

/-- R150, R197, R260, R261, R54: `RESET`, a hard trap conflict and an external Reset leave every register the spec gives
a reset value at that value, and the program image and the configuration unchanged; after the conflict TRAPR is 1
(R47). What R54 leaves unspecified (SPLIM, W0 to W14, CF, and TRAPR after the other two) is not stated here (log entry
3). What counts as a conflict is the spec's choice D14 (log entry 19); that an external Reset is an agent's step is its
choice D31 (log entry 26). -/
def Obligations.ResetInstructionResetsTheDevice : Prop :=
  ∀ (s : State),
    (∃ t, exec .reset s = .next t ∧ resetFrom s t) ∧
    (trapFlag .oscillatorFailure s = true ∨ 13#4 < s.cpuPri →
      ∃ t, raiseHard .addressError s = .error (.next t) ∧ resetFrom s t ∧ t.trapr = true) ∧
    (14#4 < s.cpuPri → ∃ t, raiseHard .oscillatorFailure s = .error (.next t) ∧ resetFrom s t ∧ t.trapr = true) ∧
    (∀ rest, s.schedule = .agent .externalReset :: rest →
      ∃ t, step s = .next t ∧ resetFrom s t ∧ t.schedule = rest)

/-- R151: `PWRSAV` outside a DISI window advances pc and enters the mode; inside one the spec refuses (R133, U14). The
refusal is the spec's choice D28 (log entry 22). -/
def Obligations.PwrsavEntersTheMode : Prop :=
  ∀ (s : State), nextImplemented s →
    (s.disiActive = false →
      exec (.pwrsav .sleep) s = .next (tick s.cfg.cycles.pwrsav { s with cpuMode := .sleep, pc := s.pc + 2#23 }) ∧
      exec (.pwrsav .idle) s = .next (tick s.cfg.cycles.pwrsav { s with cpuMode := .idle, pc := s.pc + 2#23 })) ∧
    (s.disiActive = true → ∀ m, exec (.pwrsav m) s = .refused .disiAcrossSleep)

/-! ### Frames -/

/-- R155, R160: whatever `PUSH f` meets short of a hard trap conflict, it changes no byte of memory outside the word at
W15, no other register than W15, pc, the INTCON1 flags and what Tick counts, when W15 points at memory. -/
def Obligations.PushFrame : Prop :=
  ∀ (s t : State) (f : Word), sfrAt s.cfg s.sp = none → trapConflict .addressError s = false →
    exec (.push f) s = .next t →
    (∀ a, a ≠ s.sp.toNat → a ≠ s.sp.toNat + 1 → cellGet t.mem a = cellGet s.mem a) ∧
    (∀ n : Fin 15, t.w[n.val] = s.w[n.val]) ∧ t.sp = s.sp + 2#16 ∧ t.sr = s.sr ∧ t.corcon = s.corcon ∧
    t.ifs = s.ifs ∧ t.iec = s.iec ∧ t.ipc = s.ipc ∧ t.splim = s.splim ∧ t.splimEnabled = s.splimEnabled ∧
    t.trapr = s.trapr ∧ t.cf = s.cf ∧ t.cpuMode = s.cpuMode ∧ t.disicntStray = s.disicntStray ∧
    t.disicnt = (tick s.cfg.cycles.push s).disicnt ∧ t.intcon2 = (tick s.cfg.cycles.push s).intcon2 ∧
    (∀ i, i ≠ 2 → i ≠ 3 → t.intcon1.getLsbD i = s.intcon1.getLsbD i)

/-- R156, R160: whatever `POP f` meets short of a hard trap conflict, for f in memory it changes no byte outside the word
at f and no register but W15, pc, the INTCON1 flags and what Tick counts. -/
def Obligations.PopToMemoryFrame : Prop :=
  ∀ (s t : State) (f : Word), sfrAt s.cfg f = none → trapConflict .addressError s = false →
    exec (.pop f) s = .next t →
    (∀ a, a ≠ f.toNat → a ≠ f.toNat + 1 → cellGet t.mem a = cellGet s.mem a) ∧
    (∀ n : Fin 15, t.w[n.val] = s.w[n.val]) ∧ t.sp = s.sp - 2#16 ∧ t.sr = s.sr ∧ t.corcon = s.corcon ∧
    t.ifs = s.ifs ∧ t.iec = s.iec ∧ t.ipc = s.ipc ∧ t.splim = s.splim ∧ t.splimEnabled = s.splimEnabled ∧
    t.trapr = s.trapr ∧ t.cf = s.cf ∧ t.cpuMode = s.cpuMode ∧ t.disicntStray = s.disicntStray ∧
    t.disicnt = (tick s.cfg.cycles.pop s).disicnt ∧ t.intcon2 = (tick s.cfg.cycles.pop s).intcon2 ∧
    (∀ i, i ≠ 2 → i ≠ 3 → t.intcon1.getLsbD i = s.intcon1.getLsbD i)

/-- R152 to R154, R157, R130, R131, R151: the instructions that store nothing change no byte of memory, no interrupt
flag, enable or priority, not SPLIM, and of INTCON1 the two trap flags alone, unless a hard trap conflict resets the
device: OSCFAIL set, or the CPU priority above 13, for `RETFIE` the one it restores too; only `RETFIE` changes SR and
CORCON, only it and `RETURN` move W15, only `PWRSAV` changes the power mode, and all but `DISI` count DISICNT down. What
counts as a conflict is the spec's choice D14 (log entry 19). -/
def Obligations.InstructionsThatStoreNothing : Prop :=
  ∀ (s t : State) (i : Instr), i ≠ .reset → (∀ f, i ≠ .push f) → (∀ f, i ≠ .pop f) → exec i s = .next t →
    ((trapFlag .oscillatorFailure s = true ∨ 13#4 < s.cpuPri ∨ (i = .retfie ∧ ∃ p, restoresPri s p ∧ 13#4 < p)) ∧
      ∃ d, s.draws ≤ d ∧ t = deviceReset .trapConflict { s with draws := d }) ∨
    ((∀ a, cellGet t.mem a = cellGet s.mem a) ∧ t.ifs = s.ifs ∧ t.iec = s.iec ∧ t.ipc = s.ipc ∧ t.splim = s.splim ∧
      t.splimEnabled = s.splimEnabled ∧ (∀ n : Fin 15, t.w[n.val] = s.w[n.val]) ∧ t.trapr = s.trapr ∧ t.cf = s.cf ∧
      (∀ b, b ≠ 2 → b ≠ 3 → t.intcon1.getLsbD b = s.intcon1.getLsbD b) ∧
      (∀ b, b ≠ 14 → t.intcon2.getLsbD b = s.intcon2.getLsbD b) ∧
      (i ≠ .retfie → t.sr = s.sr ∧ t.corcon = s.corcon) ∧
      t.sp = (if i = .ret ∨ i = .retfie then s.sp - 4#16 else s.sp) ∧
      ((∀ m, i ≠ .pwrsav m) → t.cpuMode = s.cpuMode) ∧
      ((∀ k, i ≠ .disi k) → t.disicntStray = s.disicntStray ∧
        t.disicnt = (tick (ticksOf s.cfg.cycles i) s).disicnt ∧ t.intcon2 = (tick (ticksOf s.cfg.cycles i) s).intcon2))

/-! ### Software writes of the special function registers -/

/-- R24, R25, R27, R22, R53, R92: a word stored to SR, CORCON or a working register, and what a read of each, and of
SPLIM, gives, without a side effect. DC, N, OV, Z, C of SR take the word; IPL<2:0> too unless NSTDIS = 1; RA keeps; IPL3
can only be cleared; unimplemented bits are 0 and read 0. W15 is even, and below 0x0800 it sets STKERR: that a write
through its address is checked against the floor (R90) is DEDUCED (log entry 17), that its bit 0 is 0 is the spec's
choice D26 (log entry 17), and that W0 to W14 have data addresses is PRESUMED (log entry 2). -/
def Obligations.SoftwareWriteOfTheStatusRegisters : Prop :=
  ∀ (s : State) (a v : Word), dataImpl s a = true →
    (sfrAt s.cfg a = some .sr → ∃ x, storeAt .word a v s = { s with sr := x } ∧ ∀ i : Fin 16,
      x.getLsbD i.val =
        if i.val = 8 ∨ i.val ≤ 3 then v.getLsbD i.val
        else if i.val = 4 then s.sr.getLsbD 4
        else if i.val ≤ 7 then (if s.nstdis then s.sr.getLsbD i.val else v.getLsbD i.val)
        else false) ∧
    (sfrAt s.cfg a = some .sr → ∃ x, readData .word a s = .ok (x, s) ∧ ∀ i : Fin 16,
      x.getLsbD i.val = (s.sr.getLsbD i.val && decide (i.val ≤ 8))) ∧
    (sfrAt s.cfg a = some .corcon → ∃ x, readData .word a s = .ok (x, s) ∧ ∀ i : Fin 16,
      x.getLsbD i.val = (s.corcon.getLsbD i.val && (decide (i.val = 2) || decide (i.val = 3)))) ∧
    (sfrAt s.cfg a = some .splim → readData .word a s = .ok (s.splim, s)) ∧
    (∀ n : Fin 16, n ≠ 15 → sfrAt s.cfg a = some (.w n) →
      readData .word a s = .ok (s.w[n], s) ∧ storeAt .word a v s = { s with w := s.w.set n v }) ∧
    (sfrAt s.cfg a = some (.w 15) →
      readData .word a s = .ok (s.w[15] &&& 0xFFFE#16, s) ∧
      storeAt .word a v s =
        { s with
          w := s.w.set 15 (v &&& 0xFFFE#16)
          intcon1 := if v &&& 0xFFFE#16 < 0x0800#16 then withBit s.intcon1 2 true else s.intcon1 }) ∧
    (sfrAt s.cfg a = some .corcon → ∃ x, storeAt .word a v s = { s with corcon := x } ∧ ∀ i : Fin 16,
      x.getLsbD i.val =
        if i.val = 3 then s.corcon.getLsbD 3 && v.getLsbD 3
        else if i.val = 2 then v.getLsbD 2
        else false)

/-- R29, R32, R34, R46 to R48, R53, R92: a word stored to INTCON1, INTCON2, RCON or OSCCON, and what a read of each, and of
DISICNT, gives, with no side effect but the free values of the undescribed bits. That a write of RCON sets TRAPR to bit 15
and one of OSCCON sets CF to bit 3, and what happens to their other bits, is DEDUCED (log entry 15). That DISICNT has 14 bits, so that bits 15:14 read 0, is
no statement of the source but the spec's choice D20, PRESUMED (log entry 13). -/
def Obligations.SoftwareWriteOfTheInterruptControls : Prop :=
  ∀ (s : State) (a v : Word), dataImpl s a = true →
    (sfrAt s.cfg a = some .intcon1 → readData .word a (storeAt .word a v s) =
      .ok (v &&& 0x801E#16, { s with intcon1 := v &&& 0x801E#16 })) ∧
    (sfrAt s.cfg a = some .intcon1 → storeAt .word a v s = { s with intcon1 := v &&& 0x801E#16 } ∧
      readData .word a s = .ok (s.intcon1 &&& 0x801E#16, s)) ∧
    (sfrAt s.cfg a = some .intcon2 → ∃ x, readData .word a s = .ok (x, s) ∧ ∀ i : Fin 16,
      x.getLsbD i.val =
        (s.intcon2.getLsbD i.val && (decide (i.val = 15) || decide (i.val = 14) || decide (i.val ≤ 4)))) ∧
    (sfrAt s.cfg a = some .disicnt → s.disicntStray = false →
      readData .word a s = .ok (0#2 ++ s.disicnt, s)) ∧
    (sfrAt s.cfg a = some .rcon → storeAt .word a v s = { s with trapr := v.getLsbD 15 } ∧
      ∃ x, readData .word a s = .ok (x, { s with draws := s.draws + 1 }) ∧ x.getLsbD 15 = s.trapr) ∧
    (sfrAt s.cfg a = some .osccon → storeAt .word a v s = { s with cf := v.getLsbD 3 } ∧
      ∃ x, readData .word a s = .ok (x, { s with draws := s.draws + 1 }) ∧ x.getLsbD 3 = s.cf) ∧
    (sfrAt s.cfg a = some .intcon2 → ∃ x, storeAt .word a v s = { s with intcon2 := x } ∧
      x.getLsbD 14 = s.disiActive ∧ ∀ i : Fin 16, i.val ≠ 14 →
        x.getLsbD i.val = (v.getLsbD i.val && (decide (i.val = 15) || decide (i.val ≤ 4))))

/-- R36, R37, R39 to R43, R45, R53, R92: a word stored to IFSn, IECn or IPCn sets the bits of the implemented vectors and
no other register, and a read gives those bits without a side effect. That the bits of a vector outside ImplVec ignore
the write and read 0 is the spec's choice D22 (R45; log entry 24). -/
def Obligations.SoftwareWriteOfTheVectorRegisters : Prop :=
  ∀ (s : State) (a v : Word), dataImpl s a = true →
    (∀ n : Fin 8, sfrAt s.cfg a = some (.ifs n) → ∃ x, storeAt .word a v s = { s with ifs := s.ifs.set n x } ∧
      ∀ i : Fin 16, x.getLsbD i.val = (v.getLsbD i.val && implemented s.cfg (16 * n.val + i.val))) ∧
    (∀ n : Fin 8, sfrAt s.cfg a = some (.iec n) → ∃ x, storeAt .word a v s = { s with iec := s.iec.set n x } ∧
      ∀ i : Fin 16, x.getLsbD i.val = (v.getLsbD i.val && implemented s.cfg (16 * n.val + i.val))) ∧
    (∀ n : Fin 30, sfrAt s.cfg a = some (.ipc n) → ∃ x, storeAt .word a v s = { s with ipc := s.ipc.set n x } ∧
      ∀ (j : Fin 4) (b : Fin 4), x.getLsbD (4 * j.val + b.val) =
        (v.getLsbD (4 * j.val + b.val) && decide (b.val ≠ 3) && implemented s.cfg (4 * n.val + j.val))) ∧
    (∀ n : Fin 8, sfrAt s.cfg a = some (.ifs n) → ∃ x, readData .word a s = .ok (x, s) ∧
      ∀ i : Fin 16, x.getLsbD i.val = (s.ifs[n].getLsbD i.val && implemented s.cfg (16 * n.val + i.val))) ∧
    (∀ n : Fin 8, sfrAt s.cfg a = some (.iec n) → ∃ x, readData .word a s = .ok (x, s) ∧
      ∀ i : Fin 16, x.getLsbD i.val = (s.iec[n].getLsbD i.val && implemented s.cfg (16 * n.val + i.val))) ∧
    (∀ n : Fin 30, sfrAt s.cfg a = some (.ipc n) → ∃ x, readData .word a s = .ok (x, s) ∧
      ∀ (j : Fin 4) (b : Fin 4), x.getLsbD (4 * j.val + b.val) =
        (s.ipc[n].getLsbD (4 * j.val + b.val) && decide (b.val ≠ 3) && implemented s.cfg (4 * n.val + j.val)))

/-- R23, R53, R86: a word write of SPLIM sets it and arms the check; a byte write changes one byte and does not arm it.
That a byte write does not arm it is the spec's inference in R23. That the even address is the low byte and the odd one the
high byte is little-endian, the spec's choice D5, PRESUMED (log entry 16, unsafe for the halves of a register). -/
def Obligations.OnlyAWordWriteArmsTheStackLimit : Prop :=
  ∀ (s : State) (a v : Word), a.getLsbD 0 = false → sfrAt s.cfg a = some .splim →
    writeData .word a v s = { s with splim := v, splimEnabled := true } ∧
    writeData .byte a v s = { s with splim := s.splim.extractLsb' 8 8 ++ v.extractLsb' 0 8 } ∧
    writeData .byte (a ||| 1#16) v s = { s with splim := v.extractLsb' 0 8 ++ s.splim.extractLsb' 0 8 }

/-- R132: software writes of DISICNT. Inside a window they change the count, and 0 ends the window; outside one they
never set DISI, and after a write of a value that is not 0 a read gives something from 0 to that value. The read after
a stray write is the spec's choice D18, and that DISICNT takes 14 bits of what is written its choice D20, PRESUMED (log
entry 13). -/
def Obligations.SoftwareWriteOfDisicnt : Prop :=
  ∀ (s : State) (v : Word),
    let v14 : BitVec 14 := v.extractLsb' 0 14
    (v14 = 0#14 → (writeSfr .disicnt true v s).disicnt = 0#14 ∧ (writeSfr .disicnt true v s).disiActive = false ∧
      (writeSfr .disicnt true v s).disicntStray = false) ∧
    (v14 ≠ 0#14 → s.disiActive = true → writeSfr .disicnt true v s = { s with disicnt := v14 }) ∧
    (v14 ≠ 0#14 → s.disiActive = false → (writeSfr .disicnt true v s).disiActive = false ∧
      (writeSfr .disicnt true v s).disicntStray = true ∧
      ∀ u : State, u.disicntStray = true → u.strayBound = (writeSfr .disicnt true v s).strayBound →
        (readSfr .disicnt u).1.toNat ≤ v14.toNat)

/-- R133: `Tick(c)` counts DISICNT down by c, not below 0, and ends the window when it reaches 0. The cycle counts are
configuration (log entry 25). -/
def Obligations.TickCountsDisicntDown : Prop :=
  ∀ (s : State) (c : Nat),
    (s.disicnt = 0#14 → tick c s = s) ∧
    (s.disicnt ≠ 0#14 →
      (tick c s).disicnt.toNat = s.disicnt.toNat - c ∧
      (tick c s).disiActive = (s.disiActive && decide (c < s.disicnt.toNat)) ∧
      tick c s = { s with disicnt := (tick c s).disicnt, intcon2 := (tick c s).intcon2 } ∧
      ∀ i, i ≠ 14 → (tick c s).intcon2.getLsbD i = s.intcon2.getLsbD i)

/-! ### Data accesses and the stack -/

/-- R85, R86: a word of data memory reads back as it was written, low byte at the even address, and no other byte
changes. Little-endian is the spec's choice D5 (log entry 16). -/
def Obligations.DataWordReadsBackLittleEndian : Prop :=
  ∀ (s : State) (a v : Word), plainWord s a →
    readData .word a (writeData .word a v s) = .ok (v, writeData .word a v s) ∧
    cellGet (writeData .word a v s).mem a.toNat = some (v.extractLsb' 0 8) ∧
    cellGet (writeData .word a v s).mem (a.toNat + 1) = some (v.extractLsb' 8 8) ∧
    ∀ x, x ≠ a.toNat → x ≠ a.toNat + 1 → cellGet (writeData .word a v s).mem x = cellGet s.mem x

/-- R87, R88, R159, R199, R200: a word access or an indirect bit manipulation at an odd address, and a read of an
unimplemented address, raise the address error; the write is inhibited, in memory and registers alike, and the read
delivers a free value; nothing else changes but STKERR where the access went through W15. The spec's choice D32 (log
entry 18). -/
def Obligations.OffendingAccessRaisesTheAddressError : Prop :=
  ∀ (s : State) (w : Width) (a v : Word) (via bm inhibited : Bool), addressErrorPends s →
    (a.getLsbD 0 = true → w = .word ∨ bm = true → ∃ t, store w via bm a v inhibited s = .ok (true, t) ∧
      trapFlag .addressError t = true ∧ t = { s with intcon1 := t.intcon1 } ∧
      ∀ i, i ≠ 2 → i ≠ 3 → t.intcon1.getLsbD i = s.intcon1.getLsbD i) ∧
    ((a.getLsbD 0 = true ∧ (w = .word ∨ bm = true)) ∨ dataImpl s a = false →
      ∃ t, load w via bm a s = .ok (Config.freeWord s.draws, true, t) ∧
        trapFlag .addressError t = true ∧ t = { s with intcon1 := t.intcon1, draws := s.draws + 1 } ∧
        ∀ i, i ≠ 2 → i ≠ 3 → t.intcon1.getLsbD i = s.intcon1.getLsbD i)

/-- R160, R200: once an access of an instruction has raised the address error, no later access of it changes anything,
memory or register, but ADDRERR and STKERR and the free values taken. The spec's choice D32 (log entry 18). -/
def Obligations.LaterWritesAreInhibited : Prop :=
  ∀ (accesses : List Access) (last : Word) (s t : State), doAccesses accesses true last s = .ok t →
    t = { s with intcon1 := t.intcon1, draws := t.draws } ∧
      ∀ i, i ≠ 2 → i ≠ 3 → t.intcon1.getLsbD i = s.intcon1.getLsbD i

/-- R90, R193: a push through W15 sets STKERR exactly when the address is above SPLIM with the check armed, W15 wraps
past 0xFFFF, or W15 ends below 0x0800; and the word is written all the same. The points of the checks are the spec's
choice D25 (log entry 17). -/
def Obligations.PushRaisesTheStackError : Prop :=
  ∀ (s : State) (v : Word), plainWord s s.sp → trapFlag .stackError s = false →
    (trapFlag .stackError (pushWord false v s) = true ↔
      (s.splimEnabled = true ∧ s.splim < s.sp) ∨ 0x10000 ≤ s.sp.toNat + 2 ∨ (s.sp + 2#16) < 0x0800#16) ∧
    (pushWord false v s).mem = (setRamWord s.sp v s).mem

/-- R90, R213, R131 exceptions (a): `POP`, `RETURN` and `RETFIE` whose pops read below 0x0800, or above SPLIM with the
check armed, do all they do otherwise and set STKERR, when the words are there to read; and they leave STKERR set
whenever they complete after W15 went below 0x0800, for `POP` to memory, and for `RETFIE` short of the hard trap conflict
its restored priority can bring. The points of the checks, and that a decrement below 0 is no wrap, are the spec's
choice D25 and DEDUCED (log entry 17), the layout of the frame its choice D4 (log entry 10), the bit of RA its choice D24
(log entry 14). -/
def Obligations.PopBelowTheFloorRaisesTheStackError : Prop :=
  (∀ (s t : State) (f : Word), sfrAt s.cfg f = none → trapConflict .addressError s = false →
    s.sp - 2#16 < 0x0800#16 → exec (.pop f) s = .next t → trapFlag .stackError t = true) ∧
  (∀ (s t : State), trapConflict .addressError s = false → s.sp - 2#16 < 0x0800#16 ∨ s.sp - 4#16 < 0x0800#16 →
    (exec .ret s = .next t → trapFlag .stackError t = true) ∧
    (exec .retfie s = .next t → trapFlag .stackError t = true ∨ ∃ p, restoresPri s p ∧ 13#4 < p)) ∧
  (∀ (s : State) (f v : Word), f.getLsbD 0 = false → dataImpl s f = true → nextImplemented s →
    holdsWord s (s.sp - 2#16) v → popRaises s (s.sp - 2#16) →
    exec (.pop f) s = .next (tick s.cfg.cycles.pop
      { writeData .word f v { s with w := s.w.set 15 (s.sp - 2#16), intcon1 := withBit s.intcon1 2 true } with
        pc := s.pc + 2#23 })) ∧
  (∀ (s : State) (high low : Word), holdsWord s (s.sp - 2#16) high → holdsWord s (s.sp - 4#16) low →
    popRaises s (s.sp - 2#16) ∨ popRaises s (s.sp - 4#16) →
    progImpl s (high.extractLsb' 0 7 ++ low.extractLsb' 1 15 ++ 0#1) = true →
    exec .ret s = .next (tick s.cfg.cycles.ret
      { s with
        w := s.w.set 15 (s.sp - 4#16), intcon1 := withBit s.intcon1 2 true
        pc := high.extractLsb' 0 7 ++ low.extractLsb' 1 15 ++ 0#1 }) ∧
    (high.getLsbD 12 = false → exec .retfie s = .next (tick 3
      { s with
        w := s.w.set 15 (s.sp - 4#16), intcon1 := withBit s.intcon1 2 true
        sr := s.sr.extractLsb' 8 8 ++ high.extractLsb' 8 8
        corcon := withBit s.corcon 3 (high.getLsbD 7)
        pc := high.extractLsb' 0 7 ++ low.extractLsb' 1 15 ++ 0#1 })))

/-! ### Instructions outside the table -/

/-- R158, R160, R194, R90: an instruction outside the table that makes no data access, with or without an update of W15
and a divide by zero, completes; it sets MATHERR when it divides by zero, and STKERR when its update of W15 wrapped or
went below 0x0800. The declared effect is log entry 12, that bit 0 of W15 is 0 is D26 (log entry 17). -/
def Obligations.DivideByZeroCompletesAndRaisesTheMathError : Prop :=
  ∀ (s : State) (next : Pc) (c : Nat), evenPc next = true → progImpl s next = true →
    execOther { accesses := [], w15 := none, next := next, divByZero := true, cycles := c } s =
      .next (tick c { s with pc := next, intcon1 := withBit s.intcon1 4 true }) ∧
    ∀ (p : PointerUpdate) (z : Bool),
      let stack := if p.wrapped = true ∨ p.value &&& 0xFFFE#16 < 0x0800#16 then withBit s.intcon1 2 true else s.intcon1
      execOther { accesses := [], w15 := some p, next := next, divByZero := z, cycles := c } s =
        .next (tick c
          { s with
            w := s.w.set 15 (p.value &&& 0xFFFE#16)
            intcon1 := if z then withBit stack 4 true else stack
            pc := next })

/-- R161, R225: ORing 0xE0 into SRL sets IPL<2:0> to 111, and does nothing to them when NSTDIS = 1; N, OV, Z, C are as
the instruction leaves them and DC stays. The declared effect is log entry 12. -/
def Obligations.OrIntoSrlRaisesThePriorityToSeven : Prop :=
  ∀ (s : State) (a : Word) (flags : BitVec 5) (next : Pc), a.getLsbD 0 = false → dataImpl s a = true →
    sfrAt s.cfg a = some .sr → evenPc next = true → progImpl s next = true →
    ∃ x, execOther (orSrlEffect a flags next) s = .next (tick 1 { s with sr := x, pc := next }) ∧
      x.extractLsb' 5 3 = (if s.nstdis then s.sr.extractLsb' 5 3 else 7#3) ∧
      x.extractLsb' 0 4 = flags.extractLsb' 0 4 ∧ x.getLsbD 8 = s.sr.getLsbD 8

/-! ### The other agents -/

/-- R38, R203: the peripheral of an implemented vector sets its flag and nothing else. -/
def Obligations.PeripheralSetsItsFlagOnly : Prop :=
  ∀ (s : State) (v : Nat) (rest : List Turn), s.schedule = .agent (.request v) :: rest → implemented s.cfg v = true →
    ∃ t, step s = .next t ∧ (∀ u, intFlag t u = (decide (u = v) || intFlag s u)) ∧
      t = { s with schedule := rest, ifs := t.ifs }

/-- R215, R35, R5: an edge on an external interrupt pin that the device has sets the pin's flag when INTxEP selects that
edge, and does nothing otherwise; a pin the device does not have does nothing. How many pins there are and their vectors
are configuration, an edge is one step (D23, D37; log entry 24). -/
def Obligations.PinEdgeSetsItsFlagByPolarity : Prop :=
  ∀ (s : State) (pin : Fin 5) (e : Edge) (rest : List Turn), s.schedule = .agent (.edge pin e) :: rest →
    implemented s.cfg s.cfg.extIntVec[pin] = true →
    (pin.val < s.cfg.nExtInt.val → (s.intcon2.getLsbD pin.val = false ↔ e = .rising) → ∃ t, step s = .next t ∧
      (∀ u, intFlag t u = (decide (u = s.cfg.extIntVec[pin]) || intFlag s u)) ∧
      t = { s with schedule := rest, ifs := t.ifs }) ∧
    (s.cfg.nExtInt.val ≤ pin.val ∨ ¬ (s.intcon2.getLsbD pin.val = false ↔ e = .rising) →
      step s = .next { s with schedule := rest })

/-- R198: the clock monitor, when enabled, sets OSCFAIL and CF below CPU priority 14; when not enabled it does nothing. -/
def Obligations.ClockFailureRaisesTheOscillatorTrap : Prop :=
  ∀ (s : State) (rest : List Turn), s.schedule = .agent .clockFailure :: rest →
    (s.cfg.fscmEn = true → s.cpuPri < 14#4 →
      step s = .next { s with schedule := rest, intcon1 := withBit s.intcon1 1 true, cf := true }) ∧
    (s.cfg.fscmEn = false → step s = .next { s with schedule := rest })

/-! ### Invariants and whole-machine rules -/

/-- R54: `State.reset` meets the invariant `State.Inv`. Its IPC clause leans on the configuration of log entry 1, in which
all 118 vectors are implemented. -/
def Obligations.ResetStateMeetsTheInvariant : Prop := State.reset.Inv

/-- R21, R22, R26, R45, R53, R133, R132: every step keeps the invariant `State.Inv`. Of its clauses these rest on choices:
pc<0> is 0, D3 (log entry 9, PRESUMED); W15<0> is 0, D26 (log entry 17, PRESUMED); RA is 0 throughout, D24 (log entry
14); the bits of unimplemented vectors in IFS, IEC and IPC are 0, D22 (log entry 24); the stray mark of DISICNT, D18 (log
entry 13); that a push of an exception entry which lands on a register keeps its clauses too, log entry 27 (DESIGN
CHOICE). -/
def Obligations.StepKeepsTheInvariant : Prop :=
  ∀ (s t : State), s.Inv → step s = .next t → t.Inv

/-- R96: no step changes program memory, the declared effects or the configuration. The spec's choice D8 (log entry
5). -/
def Obligations.StepKeepsTheProgramImage : Prop :=
  ∀ (s t : State), step s = .next t → t.prog = s.prog ∧ t.others = s.others ∧ t.cfg = s.cfg

/-- R27, R185, R207, R208: no instruction but `RETFIE`, of the table or outside it, can set IPL3 where it was clear, nor
can an interrupt's entry or another agent; a step that sets it runs a `RETFIE` or has a trap selected. It does not say
that the CPU priority cannot rise: while IPL3 is 1 software may raise IPL<2:0>. There is no premise that the frame lies in
data memory: where a push of an interrupt's entry lands on CORCON, in the clauses on that entry and on a step, IPL3 stays
clear only because the model takes the push for a software word write, a DESIGN CHOICE (log entry 27, unsafe for just such
a statement). -/
def Obligations.OnlyRetfieAndTrapsSetIpl3 : Prop :=
  (∀ (i : Instr) (s t : State), i ≠ .retfie → exec i s = .next t → t.ipl3 = true → s.ipl3 = true) ∧
  (∀ (e : Effect) (s t : State), execOther e s = .next t → t.ipl3 = true → s.ipl3 = true) ∧
  (∀ (v : Nat) (s t : State), finish (enter (.int v) s) = .next t → t.ipl3 = true → s.ipl3 = true) ∧
  (∀ (e : Event) (s t : State), agentStep e s = .next t → t.ipl3 = true → s.ipl3 = true) ∧
  (∀ (s t : State), step s = .next t → t.ipl3 = true → s.ipl3 = true ∨ decodesAtPc s .retfie ∨
    ∃ x, select s = some (.trap x))

/-- R54: the reset values the spec gives, at State.reset. The IPC values are those of the configuration of log entry
1, all vectors implemented. -/
def Obligations.ResetStateHoldsTheSpecsValues : Prop :=
  State.reset.pc = 0x000000#23 ∧ State.reset.sp = 0x0800#16 ∧ State.reset.splimEnabled = false ∧
  State.reset.sr = 0x0000#16 ∧ State.reset.corcon = 0x0000#16 ∧ State.reset.intcon1 = 0x0000#16 ∧
  State.reset.intcon2 = 0x0000#16 ∧ State.reset.disicnt = 0#14 ∧ State.reset.cpuMode = .run ∧
  (∀ n : Fin 8, State.reset.ifs[n] = 0x0000#16 ∧ State.reset.iec[n] = 0x0000#16) ∧
  (∀ n : Fin 30, State.reset.ipc[n] = if n.val = 29 then 0x0044#16 else 0x4444#16)
end

