-- ==== Sys2Proof/Laws/Bits.lean ====
section
/-! SUPPORT. Bit facts about the field updates of Machine/Flags.lean. -/

namespace Sys2Proof.Machine

theorem getLsbD_eq_false_of_le (w : Word) (i : Nat) (h : 16 ≤ i) : w.getLsbD i = false :=
  BitVec.getLsbD_of_ge w i h

@[simp] theorem getLsbD_withBit (w : Word) (n i : Nat) (b : Bool) :
    (withBit w n b).getLsbD i = if i = n ∧ n < 16 then b else w.getLsbD i := by
  unfold withBit
  by_cases hi : i < 16
  · by_cases hb : b = true <;> by_cases h : i = n
    · subst h; simp [hb, hi]
    · have h' : ¬ n = i := fun e => h e.symm
      simp [hb, h, h', BitVec.getLsbD_twoPow]
    · subst h; simp [hb, hi]
    · have h' : ¬ n = i := fun e => h e.symm
      simp [hb, h, hi]
  · have hw := getLsbD_eq_false_of_le w i (by omega)
    have hn : ¬ (i = n ∧ n < 16) := by omega
    rw [if_neg hn, hw]
    exact BitVec.getLsbD_of_ge _ _ (by omega)

/-- The last write of a bit counts. -/
@[simp] theorem withBit_withBit (w : Word) (n : Nat) (b c : Bool) : withBit (withBit w n b) n c = withBit w n c := by
  apply BitVec.eq_of_getLsbD_eq
  intro i hi
  simp only [getLsbD_withBit]
  split <;> simp_all

theorem getLsbD_maskBelow (f : Nat → Bool) (k i : Nat) (hk : k ≤ 16) :
    (maskBelow f k).getLsbD i = (decide (i < k) && f i) := by
  induction k with
  | zero => simp [maskBelow]
  | succ k ih =>
    have hk' : k < 16 := hk
    have ih := ih (by omega)
    unfold maskBelow
    rw [BitVec.getLsbD_or, ih]
    by_cases hik : i = k
    · subst hik; by_cases hf : f i = true <;> simp [hf, hk']
    · have hki : ¬ k = i := fun e => hik e.symm
      have hlt : (i < k + 1) = (i < k) := by apply propext; omega
      by_cases hf : f k = true <;> simp [hf, BitVec.getLsbD_twoPow, hki, hlt]

/-- Bit `i` of a mask is the function's value there. -/
@[simp] theorem getLsbD_maskOf (f : Nat → Bool) (i : Nat) :
    (maskOf f).getLsbD i = (decide (i < 16) && f i) := getLsbD_maskBelow f 16 i (Nat.le_refl 16)

/-- The bits of a status word outside IPL<2:0> stay. -/
theorem getLsbD_withIpl (sr : Word) (l : BitVec 3) (i : Nat) :
    (withIpl sr l).getLsbD i = if 5 ≤ i ∧ i < 8 then l.getLsbD (i - 5) else sr.getLsbD i := by
  unfold withIpl
  rw [BitVec.getLsbD_append, BitVec.getLsbD_append]
  by_cases h1 : i < 5
  · have : ¬ (5 ≤ i) := by omega
    simp [h1]
  · by_cases h2 : i < 8
    · have h3 : i - 5 < 3 := by omega
      have h4 : 5 ≤ i := by omega
      simp [h1, h2, h3, h4]
    · have h3 : ¬ i - 5 < 3 := by omega
      have h4 : 8 + (i - 5 - 3) = i := by omega
      by_cases h5 : i < 16
      · have : i - 5 - 3 < 8 := by omega
        simp [h1, h2, h3, h4, this]
      · have : ¬ i - 5 - 3 < 8 := by omega
        have h6 : sr.getLsbD i = false := getLsbD_eq_false_of_le sr i (by omega)
        simp [h1, h2, h3, this, h6]

/-- IPL<2:0> of a status word whose IPL<2:0> was replaced. -/
@[simp] theorem withIpl_ipl (sr : Word) (l : BitVec 3) : (withIpl sr l).extractLsb' 5 3 = l := by
  apply BitVec.eq_of_getLsbD_eq
  intro i hi
  simp [getLsbD_withIpl, hi]
  omega

/-- The bits of a status word whose low byte was replaced. -/
theorem getLsbD_withSrl (sr : Word) (l : Byte) (i : Nat) :
    (withSrl sr l).getLsbD i = if i < 8 then l.getLsbD i else sr.getLsbD i := by
  unfold withSrl
  rw [BitVec.getLsbD_append]
  by_cases h1 : i < 8
  · simp [h1]
  · by_cases h2 : i < 16
    · have h3 : i - 8 < 8 := by omega
      have h4 : 8 + (i - 8) = i := by omega
      simp [h1, h3, h4]
    · have h3 : ¬ i - 8 < 8 := by omega
      simp [h1, h3, getLsbD_eq_false_of_le sr i (by omega)]

/-- The low byte of a status word whose low byte was replaced. -/
@[simp] theorem withSrl_low (sr : Word) (l : Byte) : (withSrl sr l).extractLsb' 0 8 = l := by
  apply BitVec.eq_of_getLsbD_eq
  intro i hi
  simp [getLsbD_withSrl, hi]

/-- A popped SRL without the bit of RA is restored as it is (R26, R131). -/
theorem clearRa_of_clear {high : Word} (h : high.getLsbD 12 = false) :
    high.extractLsb' 8 8 &&& 0xEF#8 = high.extractLsb' 8 8 := by
  apply BitVec.eq_of_getLsbD_eq
  intro i hi
  have key : ∀ j : Fin 8, (0xEF#8).getLsbD j.val = decide (j.val ≠ 4) := by decide
  have k := key ⟨i, hi⟩
  simp only at k
  rw [BitVec.getLsbD_and, k]
  by_cases h4 : i = 4
  · subst h4; simpa using h
  · simp [h4]

/-- Halves put together again. -/
@[simp] theorem halves_append (v : Word) : (v.extractLsb' 8 8 ++ v.extractLsb' 0 8 : Word) = v := by
  apply BitVec.eq_of_getLsbD_eq
  intro i hi
  rw [BitVec.getLsbD_append]
  by_cases h1 : i < 8
  · simp [h1]
  · have h3 : i - 8 < 8 := by omega
    have h4 : 8 + (i - 8) = i := by omega
    simp [h1, h3, h4]

end Sys2Proof.Machine
end

