-- ==== Sys2Proof/Laws/Decode.lean ====
section
/-! SUPPORT. The encoding table: no word fits two rows, and when a word fits a row, bit by bit (spec/30_encoding.md
R113). -/

namespace Sys2Proof

/-- Some bit that both rows fix tells them apart. -/
abbrev Row.apart (r q : Row) : Prop := r.mask &&& q.mask &&& (r.pattern ^^^ q.pattern) ≠ 0#24

/-- Every two rows of the table fix some bit differently. -/
theorem firstRows_apart : firstRows.Pairwise Row.apart := by decide

/-- A word fits a row when it has the row's bit wherever the mask has one. -/
theorem fits_iff (r : Row) (w : ProgWord) :
    r.fits w = true ↔ ∀ i : Fin 24, (w.getLsbD i.val && r.mask.getLsbD i.val) = r.pattern.getLsbD i.val := by
  unfold Row.fits
  rw [beq_iff_eq]
  constructor
  · intro h i; rw [← h, BitVec.getLsbD_and]
  · intro h
    apply BitVec.eq_of_getLsbD_eq
    intro i hi
    rw [BitVec.getLsbD_and]
    exact h ⟨i, hi⟩

/-- One bit is enough to see that a word does not fit. -/
theorem not_fits_of_bit {r : Row} {w : ProgWord} (i : Nat)
    (h : (w.getLsbD i && r.mask.getLsbD i) ≠ r.pattern.getLsbD i) : r.fits w = false := by
  unfold Row.fits
  rw [beq_eq_false_iff_ne]
  intro e
  apply h
  rw [← e, BitVec.getLsbD_and]

/-- A word is in no row exactly when it fits none. -/
theorem inNoRow_iff (w : ProgWord) : inNoRow w = true ↔ ∀ r ∈ firstRows, r.fits w = false := by
  simp [inNoRow, List.all_eq_true]

/-- A word that fits a row is in a row. -/
theorem inNoRow_of_fits {r : Row} {w : ProgWord} (hr : r ∈ firstRows) (h : r.fits w = true) : inNoRow w = false := by
  cases hn : inNoRow w with
  | false => rfl
  | true => exact absurd ((inNoRow_iff w).mp hn r hr) (by rw [h]; decide)

/-- Every row fixes bits 23:16, the byte that tells an instruction's length (R112). -/
theorem topByte_of_fits {r : Row} {w : ProgWord} (hr : r ∈ firstRows) (h : r.fits w = true) :
    w.extractLsb' 16 8 = r.pattern.extractLsb' 16 8 := by
  have hm : ∀ r ∈ firstRows, r.mask.extractLsb' 16 8 = BitVec.allOnes 8 := by decide
  unfold Row.fits at h
  rw [← beq_iff_eq.mp h, BitVec.extractLsb'_and, hm r hr, BitVec.and_allOnes]

/-- Of the rows only `GOTO` has two words (R112). -/
theorem oneWord_of_fits {r : Row} {w : ProgWord} (hr : r ∈ firstRows) (hg : r ≠ rowGoto) (h : r.fits w = true) :
    isTwoWord w = false := by
  have hp : ∀ r ∈ firstRows, r ≠ rowGoto → r.pattern.extractLsb' 16 8 ≠ 0x04#8 ∧ r.pattern.extractLsb' 16 8 ≠ 0x02#8 := by
    decide
  unfold isTwoWord
  rw [topByte_of_fits hr h]
  simp [hp r hr hg]

/-- `GOTO` has two words (R112). -/
theorem twoWords_of_goto {w : ProgWord} (h : rowGoto.fits w = true) : isTwoWord w = true := by
  unfold isTwoWord
  rw [topByte_of_fits (by decide) h]
  decide

/-- Rows that are apart share no word. -/
theorem not_fits_both {r q : Row} {w : ProgWord} (h : r.apart q) (hr : r.fits w = true) : q.fits w = false := by
  unfold Row.fits at *
  rw [beq_iff_eq] at hr
  rw [beq_eq_false_iff_ne]
  intro hq
  apply h
  rw [← hr, ← hq]
  apply BitVec.eq_of_getLsbD_eq
  intro i hi
  simp only [BitVec.getLsbD_and, BitVec.getLsbD_xor]
  cases w.getLsbD i <;> cases r.mask.getLsbD i <;> cases q.mask.getLsbD i <;> simp

end Sys2Proof
end

