-- ==== Sys2Proof/Laws/Memory.lean ====
section
/-! SUPPORT. Memory cells: reading after writing, and the canonical form (spec/20_memory.md R81, R85, R86). -/

namespace Sys2Proof.Machine

@[simp] theorem cellGet_cellSet_same {β : Type} (m : List (Nat × β)) (a : Nat) (b : β) :
    cellGet (cellSet m a b) a = some b := by
  induction m with
  | nil => simp [cellSet, cellGet]
  | cons c rest ih =>
    obtain ⟨k, d⟩ := c
    unfold cellSet
    split
    · simp [cellGet]
    · split
      · simp [cellGet]
      · rename_i h1 h2
        have : ¬ k = a := fun e => h2 e.symm
        simp [cellGet, this, ih]

theorem cellGet_cellSet_other {β : Type} (m : List (Nat × β)) (a c : Nat) (b : β) (h : c ≠ a) :
    cellGet (cellSet m a b) c = cellGet m c := by
  have h' : ¬ a = c := fun e => h e.symm
  induction m with
  | nil => simp [cellSet, cellGet, h']
  | cons d rest ih =>
    obtain ⟨k, d⟩ := d
    unfold cellSet
    split
    · simp [cellGet, h']
    · split
      · rename_i h1 h2
        subst h2
        simp [cellGet, h']
      · simp [cellGet, ih]

/-- Reading one cell after setting one. -/
theorem cellGet_cellSet {β : Type} (m : List (Nat × β)) (a c : Nat) (b : β) :
    cellGet (cellSet m a b) c = if c = a then some b else cellGet m c := by
  split
  · rename_i h; rw [h, cellGet_cellSet_same]
  · rename_i h; exact cellGet_cellSet_other m a c b h

/-- The entries after setting a cell are the new one and old ones. -/
theorem mem_cellSet {β : Type} (m : List (Nat × β)) (a : Nat) (b : β) (c : Nat × β)
    (h : c ∈ cellSet m a b) : c = (a, b) ∨ c ∈ m := by
  induction m with
  | nil => simpa [cellSet] using h
  | cons d rest ih =>
    obtain ⟨k, d⟩ := d
    unfold cellSet at h
    split at h
    · simpa using h
    · split at h
      · rcases List.mem_cons.1 h with h | h
        · exact .inl h
        · exact .inr (List.mem_cons_of_mem _ h)
      · rcases List.mem_cons.1 h with h | h
        · exact .inr (h ▸ List.mem_cons_self)
        · rcases ih h with h | h
          · exact .inl h
          · exact .inr (List.mem_cons_of_mem _ h)

/-- Setting a cell keeps the keys rising. -/
theorem rising_cellSet {β : Type} (m : List (Nat × β)) (a : Nat) (b : β) (h : rising m) :
    rising (cellSet m a b) := by
  induction m with
  | nil => simp [cellSet, rising]
  | cons d rest ih =>
    obtain ⟨k, d⟩ := d
    have hk : ∀ c ∈ rest, k < c.1 := by
      have := (List.pairwise_cons.1 h).1
      intro c hc
      exact this c.1 (List.mem_map_of_mem hc)
    have hr : rising rest := (List.pairwise_cons.1 h).2
    unfold cellSet
    split
    · rename_i hlt
      refine List.pairwise_cons.2 ⟨?_, h⟩
      intro x hx
      rcases List.mem_cons.1 hx with hx | hx
      · subst hx; exact hlt
      · obtain ⟨c, hc, rfl⟩ := List.mem_map.1 hx
        exact Nat.lt_trans hlt (hk c hc)
    · split
      · rename_i h1 h2
        subst h2
        exact List.pairwise_cons.2 ⟨(List.pairwise_cons.1 h).1, hr⟩
      · rename_i h1 h2
        refine List.pairwise_cons.2 ⟨?_, ih hr⟩
        intro x hx
        obtain ⟨c, hc, rfl⟩ := List.mem_map.1 hx
        rcases mem_cellSet rest a b c hc with rfl | hc
        · show k < a
          omega
        · exact hk c hc

/-- Writing a byte of data space keeps the canonical form. -/
theorem memory_wf_setRamByte (a : Word) (b : Byte) (s : State) (h : Memory.wf s.mem) :
    Memory.wf (setRamByte a b s).mem := by
  refine ⟨rising_cellSet s.mem a.toNat b h.1, ?_⟩
  intro c hc
  rcases mem_cellSet s.mem a.toNat b c hc with rfl | hc
  · exact a.isLt
  · exact h.2 c hc

/-- Writing a word of data space keeps the canonical form. -/
theorem memory_wf_setRamWord (a v : Word) (s : State) (h : Memory.wf s.mem) :
    Memory.wf (setRamWord a v s).mem :=
  memory_wf_setRamByte _ _ _ (memory_wf_setRamByte _ _ _ h)

/-- The memory after reset is in canonical form. -/
theorem memory_wf_reset : Memory.wf State.reset.mem := by decide

/-- Storing a program word at an even program address keeps the canonical form of program memory. -/
theorem progMemory_wf_cellSet (m : ProgMemory) (p : Pc) (w : ProgWord) (hp : evenPc p = true)
    (h : ProgMemory.wf m) : ProgMemory.wf (cellSet m p.toNat w) := by
  refine ⟨rising_cellSet m p.toNat w h.1, ?_⟩
  intro c hc
  rcases mem_cellSet m p.toNat w c hc with rfl | hc
  · refine ⟨p.isLt, ?_⟩
    have : p.getLsbD 0 = false := by simpa [evenPc] using hp
    have h0 : p.toNat.testBit 0 = false := by simpa [BitVec.getLsbD] using this
    show p.toNat % 2 = 0
    rw [Nat.testBit_zero] at h0
    simp at h0
    omega
  · exact h.2 c hc

/-- The other byte of the word at an even address is the next one. -/
theorem nextByte_toNat (a : Word) (h : a.getLsbD 0 = false) : (nextByte a).toNat = a.toNat + 1 := by
  have h0 : a.toNat % 2 = 0 := by
    have : a.toNat.testBit 0 = false := by simpa [BitVec.getLsbD] using h
    rw [Nat.testBit_zero] at this
    simp at this
    omega
  have hlt := a.isLt
  have hadd : nextByte a = a + 1#16 := by
    unfold nextByte
    have : a &&& 1#16 = 0#16 := by
      apply BitVec.eq_of_getLsbD_eq
      intro i hi
      by_cases hi0 : i = 0
      · subst hi0; simpa [BitVec.getLsbD_eq_getElem] using h
      · have : (1#16).getLsbD i = false := by
          simp [BitVec.getLsbD_one, hi0]
        simp [this]
    rw [BitVec.add_eq_or_of_and_eq_zero _ _ this]
  rw [hadd, BitVec.toNat_add]
  have : (1#16).toNat = 1 := rfl
  omega

/-- The word read back after it was written (R86). -/
theorem ramWord_setRamWord_same (a v : Word) (s : State) (h : a.getLsbD 0 = false) :
    ramWord a (setRamWord a v s) = .ok v := by
  have hn := nextByte_toNat a h
  have hlo : cellGet (setRamWord a v s).mem a.toNat = some (v.extractLsb' 0 8) := by
    show cellGet (cellSet (cellSet s.mem a.toNat _) (nextByte a).toNat _) a.toNat = _
    rw [cellGet_cellSet_other _ _ _ _ (by omega), cellGet_cellSet_same]
  have hhi : cellGet (setRamWord a v s).mem (nextByte a).toNat = some (v.extractLsb' 8 8) :=
    cellGet_cellSet_same _ _ _
  simp [ramWord, ramByte, hlo, hhi, bind, Except.bind]

/-- A byte outside the word written is as before. -/
theorem cellGet_setRamWord_other (a v : Word) (s : State) (x : Nat) (h : a.getLsbD 0 = false)
    (h1 : x ≠ a.toNat) (h2 : x ≠ a.toNat + 1) : cellGet (setRamWord a v s).mem x = cellGet s.mem x := by
  have hn := nextByte_toNat a h
  show cellGet (cellSet (cellSet s.mem a.toNat _) (nextByte a).toNat _) x = _
  rw [cellGet_cellSet_other _ _ _ _ (by omega), cellGet_cellSet_other _ _ _ _ h1]

end Sys2Proof.Machine
end

