-- ==== Sys2Proof/Laws/State.lean ====
section
/-! SUPPORT. What each named update of the state leaves alone: one lemma per field and update. -/

namespace Sys2Proof.Machine

/-! ### `setDisi` (R34) -/

@[simp] theorem setDisi_pc (s : State) (b : Bool) : (s.setDisi b).pc = s.pc := rfl
@[simp] theorem setDisi_w (s : State) (b : Bool) : (s.setDisi b).w = s.w := rfl
@[simp] theorem setDisi_splim (s : State) (b : Bool) : (s.setDisi b).splim = s.splim := rfl
@[simp] theorem setDisi_splimEnabled (s : State) (b : Bool) : (s.setDisi b).splimEnabled = s.splimEnabled := rfl
@[simp] theorem setDisi_sr (s : State) (b : Bool) : (s.setDisi b).sr = s.sr := rfl
@[simp] theorem setDisi_corcon (s : State) (b : Bool) : (s.setDisi b).corcon = s.corcon := rfl
@[simp] theorem setDisi_intcon1 (s : State) (b : Bool) : (s.setDisi b).intcon1 = s.intcon1 := rfl
@[simp] theorem setDisi_ifs (s : State) (b : Bool) : (s.setDisi b).ifs = s.ifs := rfl
@[simp] theorem setDisi_iec (s : State) (b : Bool) : (s.setDisi b).iec = s.iec := rfl
@[simp] theorem setDisi_ipc (s : State) (b : Bool) : (s.setDisi b).ipc = s.ipc := rfl
@[simp] theorem setDisi_disicnt (s : State) (b : Bool) : (s.setDisi b).disicnt = s.disicnt := rfl
@[simp] theorem setDisi_disicntStray (s : State) (b : Bool) : (s.setDisi b).disicntStray = s.disicntStray := rfl
@[simp] theorem setDisi_strayBound (s : State) (b : Bool) : (s.setDisi b).strayBound = s.strayBound := rfl
@[simp] theorem setDisi_trapr (s : State) (b : Bool) : (s.setDisi b).trapr = s.trapr := rfl
@[simp] theorem setDisi_cf (s : State) (b : Bool) : (s.setDisi b).cf = s.cf := rfl
@[simp] theorem setDisi_cpuMode (s : State) (b : Bool) : (s.setDisi b).cpuMode = s.cpuMode := rfl
@[simp] theorem setDisi_ackDefer (s : State) (b : Bool) : (s.setDisi b).ackDefer = s.ackDefer := rfl
@[simp] theorem setDisi_mem (s : State) (b : Bool) : (s.setDisi b).mem = s.mem := rfl
@[simp] theorem setDisi_prog (s : State) (b : Bool) : (s.setDisi b).prog = s.prog := rfl
@[simp] theorem setDisi_others (s : State) (b : Bool) : (s.setDisi b).others = s.others := rfl
@[simp] theorem setDisi_cfg (s : State) (b : Bool) : (s.setDisi b).cfg = s.cfg := rfl
@[simp] theorem setDisi_schedule (s : State) (b : Bool) : (s.setDisi b).schedule = s.schedule := rfl
@[simp] theorem setDisi_draws (s : State) (b : Bool) : (s.setDisi b).draws = s.draws := rfl

/-! ### `setTrapFlag` (R30) -/

@[simp] theorem setTrapFlag_pc (t : Trap) (s : State) : (setTrapFlag t s).pc = s.pc := rfl
@[simp] theorem setTrapFlag_w (t : Trap) (s : State) : (setTrapFlag t s).w = s.w := rfl
@[simp] theorem setTrapFlag_splim (t : Trap) (s : State) : (setTrapFlag t s).splim = s.splim := rfl
@[simp] theorem setTrapFlag_splimEnabled (t : Trap) (s : State) : (setTrapFlag t s).splimEnabled = s.splimEnabled := rfl
@[simp] theorem setTrapFlag_sr (t : Trap) (s : State) : (setTrapFlag t s).sr = s.sr := rfl
@[simp] theorem setTrapFlag_corcon (t : Trap) (s : State) : (setTrapFlag t s).corcon = s.corcon := rfl
@[simp] theorem setTrapFlag_intcon2 (t : Trap) (s : State) : (setTrapFlag t s).intcon2 = s.intcon2 := rfl
@[simp] theorem setTrapFlag_ifs (t : Trap) (s : State) : (setTrapFlag t s).ifs = s.ifs := rfl
@[simp] theorem setTrapFlag_iec (t : Trap) (s : State) : (setTrapFlag t s).iec = s.iec := rfl
@[simp] theorem setTrapFlag_ipc (t : Trap) (s : State) : (setTrapFlag t s).ipc = s.ipc := rfl
@[simp] theorem setTrapFlag_disicnt (t : Trap) (s : State) : (setTrapFlag t s).disicnt = s.disicnt := rfl
@[simp] theorem setTrapFlag_disicntStray (t : Trap) (s : State) : (setTrapFlag t s).disicntStray = s.disicntStray := rfl
@[simp] theorem setTrapFlag_strayBound (t : Trap) (s : State) : (setTrapFlag t s).strayBound = s.strayBound := rfl
@[simp] theorem setTrapFlag_trapr (t : Trap) (s : State) : (setTrapFlag t s).trapr = s.trapr := rfl
@[simp] theorem setTrapFlag_cf (t : Trap) (s : State) : (setTrapFlag t s).cf = s.cf := rfl
@[simp] theorem setTrapFlag_cpuMode (t : Trap) (s : State) : (setTrapFlag t s).cpuMode = s.cpuMode := rfl
@[simp] theorem setTrapFlag_ackDefer (t : Trap) (s : State) : (setTrapFlag t s).ackDefer = s.ackDefer := rfl
@[simp] theorem setTrapFlag_mem (t : Trap) (s : State) : (setTrapFlag t s).mem = s.mem := rfl
@[simp] theorem setTrapFlag_prog (t : Trap) (s : State) : (setTrapFlag t s).prog = s.prog := rfl
@[simp] theorem setTrapFlag_others (t : Trap) (s : State) : (setTrapFlag t s).others = s.others := rfl
@[simp] theorem setTrapFlag_cfg (t : Trap) (s : State) : (setTrapFlag t s).cfg = s.cfg := rfl
@[simp] theorem setTrapFlag_schedule (t : Trap) (s : State) : (setTrapFlag t s).schedule = s.schedule := rfl
@[simp] theorem setTrapFlag_draws (t : Trap) (s : State) : (setTrapFlag t s).draws = s.draws := rfl

/-! ### `raiseStack` (R193) -/

@[simp] theorem raiseStack_pc (s : State) : (raiseStack s).pc = s.pc := rfl
@[simp] theorem raiseStack_w (s : State) : (raiseStack s).w = s.w := rfl
@[simp] theorem raiseStack_splim (s : State) : (raiseStack s).splim = s.splim := rfl
@[simp] theorem raiseStack_splimEnabled (s : State) : (raiseStack s).splimEnabled = s.splimEnabled := rfl
@[simp] theorem raiseStack_sr (s : State) : (raiseStack s).sr = s.sr := rfl
@[simp] theorem raiseStack_corcon (s : State) : (raiseStack s).corcon = s.corcon := rfl
@[simp] theorem raiseStack_intcon2 (s : State) : (raiseStack s).intcon2 = s.intcon2 := rfl
@[simp] theorem raiseStack_ifs (s : State) : (raiseStack s).ifs = s.ifs := rfl
@[simp] theorem raiseStack_iec (s : State) : (raiseStack s).iec = s.iec := rfl
@[simp] theorem raiseStack_ipc (s : State) : (raiseStack s).ipc = s.ipc := rfl
@[simp] theorem raiseStack_disicnt (s : State) : (raiseStack s).disicnt = s.disicnt := rfl
@[simp] theorem raiseStack_disicntStray (s : State) : (raiseStack s).disicntStray = s.disicntStray := rfl
@[simp] theorem raiseStack_strayBound (s : State) : (raiseStack s).strayBound = s.strayBound := rfl
@[simp] theorem raiseStack_trapr (s : State) : (raiseStack s).trapr = s.trapr := rfl
@[simp] theorem raiseStack_cf (s : State) : (raiseStack s).cf = s.cf := rfl
@[simp] theorem raiseStack_cpuMode (s : State) : (raiseStack s).cpuMode = s.cpuMode := rfl
@[simp] theorem raiseStack_ackDefer (s : State) : (raiseStack s).ackDefer = s.ackDefer := rfl
@[simp] theorem raiseStack_mem (s : State) : (raiseStack s).mem = s.mem := rfl
@[simp] theorem raiseStack_prog (s : State) : (raiseStack s).prog = s.prog := rfl
@[simp] theorem raiseStack_others (s : State) : (raiseStack s).others = s.others := rfl
@[simp] theorem raiseStack_cfg (s : State) : (raiseStack s).cfg = s.cfg := rfl
@[simp] theorem raiseStack_schedule (s : State) : (raiseStack s).schedule = s.schedule := rfl
@[simp] theorem raiseStack_draws (s : State) : (raiseStack s).draws = s.draws := rfl

/-! ### `raiseMath` (R194) -/

@[simp] theorem raiseMath_pc (s : State) : (raiseMath s).pc = s.pc := rfl
@[simp] theorem raiseMath_w (s : State) : (raiseMath s).w = s.w := rfl
@[simp] theorem raiseMath_splim (s : State) : (raiseMath s).splim = s.splim := rfl
@[simp] theorem raiseMath_splimEnabled (s : State) : (raiseMath s).splimEnabled = s.splimEnabled := rfl
@[simp] theorem raiseMath_sr (s : State) : (raiseMath s).sr = s.sr := rfl
@[simp] theorem raiseMath_corcon (s : State) : (raiseMath s).corcon = s.corcon := rfl
@[simp] theorem raiseMath_intcon2 (s : State) : (raiseMath s).intcon2 = s.intcon2 := rfl
@[simp] theorem raiseMath_ifs (s : State) : (raiseMath s).ifs = s.ifs := rfl
@[simp] theorem raiseMath_iec (s : State) : (raiseMath s).iec = s.iec := rfl
@[simp] theorem raiseMath_ipc (s : State) : (raiseMath s).ipc = s.ipc := rfl
@[simp] theorem raiseMath_disicnt (s : State) : (raiseMath s).disicnt = s.disicnt := rfl
@[simp] theorem raiseMath_disicntStray (s : State) : (raiseMath s).disicntStray = s.disicntStray := rfl
@[simp] theorem raiseMath_strayBound (s : State) : (raiseMath s).strayBound = s.strayBound := rfl
@[simp] theorem raiseMath_trapr (s : State) : (raiseMath s).trapr = s.trapr := rfl
@[simp] theorem raiseMath_cf (s : State) : (raiseMath s).cf = s.cf := rfl
@[simp] theorem raiseMath_cpuMode (s : State) : (raiseMath s).cpuMode = s.cpuMode := rfl
@[simp] theorem raiseMath_ackDefer (s : State) : (raiseMath s).ackDefer = s.ackDefer := rfl
@[simp] theorem raiseMath_mem (s : State) : (raiseMath s).mem = s.mem := rfl
@[simp] theorem raiseMath_prog (s : State) : (raiseMath s).prog = s.prog := rfl
@[simp] theorem raiseMath_others (s : State) : (raiseMath s).others = s.others := rfl
@[simp] theorem raiseMath_cfg (s : State) : (raiseMath s).cfg = s.cfg := rfl
@[simp] theorem raiseMath_schedule (s : State) : (raiseMath s).schedule = s.schedule := rfl
@[simp] theorem raiseMath_draws (s : State) : (raiseMath s).draws = s.draws := rfl

/-! ### `setRamByte` (R85) -/

@[simp] theorem setRamByte_pc (a : Word) (b : Byte) (s : State) : (setRamByte a b s).pc = s.pc := rfl
@[simp] theorem setRamByte_w (a : Word) (b : Byte) (s : State) : (setRamByte a b s).w = s.w := rfl
@[simp] theorem setRamByte_splim (a : Word) (b : Byte) (s : State) : (setRamByte a b s).splim = s.splim := rfl
@[simp] theorem setRamByte_splimEnabled (a : Word) (b : Byte) (s : State) : (setRamByte a b s).splimEnabled = s.splimEnabled := rfl
@[simp] theorem setRamByte_sr (a : Word) (b : Byte) (s : State) : (setRamByte a b s).sr = s.sr := rfl
@[simp] theorem setRamByte_corcon (a : Word) (b : Byte) (s : State) : (setRamByte a b s).corcon = s.corcon := rfl
@[simp] theorem setRamByte_intcon1 (a : Word) (b : Byte) (s : State) : (setRamByte a b s).intcon1 = s.intcon1 := rfl
@[simp] theorem setRamByte_intcon2 (a : Word) (b : Byte) (s : State) : (setRamByte a b s).intcon2 = s.intcon2 := rfl
@[simp] theorem setRamByte_ifs (a : Word) (b : Byte) (s : State) : (setRamByte a b s).ifs = s.ifs := rfl
@[simp] theorem setRamByte_iec (a : Word) (b : Byte) (s : State) : (setRamByte a b s).iec = s.iec := rfl
@[simp] theorem setRamByte_ipc (a : Word) (b : Byte) (s : State) : (setRamByte a b s).ipc = s.ipc := rfl
@[simp] theorem setRamByte_disicnt (a : Word) (b : Byte) (s : State) : (setRamByte a b s).disicnt = s.disicnt := rfl
@[simp] theorem setRamByte_disicntStray (a : Word) (b : Byte) (s : State) : (setRamByte a b s).disicntStray = s.disicntStray := rfl
@[simp] theorem setRamByte_strayBound (a : Word) (b : Byte) (s : State) : (setRamByte a b s).strayBound = s.strayBound := rfl
@[simp] theorem setRamByte_trapr (a : Word) (b : Byte) (s : State) : (setRamByte a b s).trapr = s.trapr := rfl
@[simp] theorem setRamByte_cf (a : Word) (b : Byte) (s : State) : (setRamByte a b s).cf = s.cf := rfl
@[simp] theorem setRamByte_cpuMode (a : Word) (b : Byte) (s : State) : (setRamByte a b s).cpuMode = s.cpuMode := rfl
@[simp] theorem setRamByte_ackDefer (a : Word) (b : Byte) (s : State) : (setRamByte a b s).ackDefer = s.ackDefer := rfl
@[simp] theorem setRamByte_prog (a : Word) (b : Byte) (s : State) : (setRamByte a b s).prog = s.prog := rfl
@[simp] theorem setRamByte_others (a : Word) (b : Byte) (s : State) : (setRamByte a b s).others = s.others := rfl
@[simp] theorem setRamByte_cfg (a : Word) (b : Byte) (s : State) : (setRamByte a b s).cfg = s.cfg := rfl
@[simp] theorem setRamByte_schedule (a : Word) (b : Byte) (s : State) : (setRamByte a b s).schedule = s.schedule := rfl
@[simp] theorem setRamByte_draws (a : Word) (b : Byte) (s : State) : (setRamByte a b s).draws = s.draws := rfl

/-! ### `setRamWord` (R85) -/

@[simp] theorem setRamWord_pc (a v : Word) (s : State) : (setRamWord a v s).pc = s.pc := rfl
@[simp] theorem setRamWord_w (a v : Word) (s : State) : (setRamWord a v s).w = s.w := rfl
@[simp] theorem setRamWord_splim (a v : Word) (s : State) : (setRamWord a v s).splim = s.splim := rfl
@[simp] theorem setRamWord_splimEnabled (a v : Word) (s : State) : (setRamWord a v s).splimEnabled = s.splimEnabled := rfl
@[simp] theorem setRamWord_sr (a v : Word) (s : State) : (setRamWord a v s).sr = s.sr := rfl
@[simp] theorem setRamWord_corcon (a v : Word) (s : State) : (setRamWord a v s).corcon = s.corcon := rfl
@[simp] theorem setRamWord_intcon1 (a v : Word) (s : State) : (setRamWord a v s).intcon1 = s.intcon1 := rfl
@[simp] theorem setRamWord_intcon2 (a v : Word) (s : State) : (setRamWord a v s).intcon2 = s.intcon2 := rfl
@[simp] theorem setRamWord_ifs (a v : Word) (s : State) : (setRamWord a v s).ifs = s.ifs := rfl
@[simp] theorem setRamWord_iec (a v : Word) (s : State) : (setRamWord a v s).iec = s.iec := rfl
@[simp] theorem setRamWord_ipc (a v : Word) (s : State) : (setRamWord a v s).ipc = s.ipc := rfl
@[simp] theorem setRamWord_disicnt (a v : Word) (s : State) : (setRamWord a v s).disicnt = s.disicnt := rfl
@[simp] theorem setRamWord_disicntStray (a v : Word) (s : State) : (setRamWord a v s).disicntStray = s.disicntStray := rfl
@[simp] theorem setRamWord_strayBound (a v : Word) (s : State) : (setRamWord a v s).strayBound = s.strayBound := rfl
@[simp] theorem setRamWord_trapr (a v : Word) (s : State) : (setRamWord a v s).trapr = s.trapr := rfl
@[simp] theorem setRamWord_cf (a v : Word) (s : State) : (setRamWord a v s).cf = s.cf := rfl
@[simp] theorem setRamWord_cpuMode (a v : Word) (s : State) : (setRamWord a v s).cpuMode = s.cpuMode := rfl
@[simp] theorem setRamWord_ackDefer (a v : Word) (s : State) : (setRamWord a v s).ackDefer = s.ackDefer := rfl
@[simp] theorem setRamWord_prog (a v : Word) (s : State) : (setRamWord a v s).prog = s.prog := rfl
@[simp] theorem setRamWord_others (a v : Word) (s : State) : (setRamWord a v s).others = s.others := rfl
@[simp] theorem setRamWord_cfg (a v : Word) (s : State) : (setRamWord a v s).cfg = s.cfg := rfl
@[simp] theorem setRamWord_schedule (a v : Word) (s : State) : (setRamWord a v s).schedule = s.schedule := rfl
@[simp] theorem setRamWord_draws (a v : Word) (s : State) : (setRamWord a v s).draws = s.draws := rfl

/-! ### `restoreStatus` (R131) -/

@[simp] theorem restoreStatus_pc (high : Word) (s : State) : (restoreStatus high s).pc = s.pc := rfl
@[simp] theorem restoreStatus_w (high : Word) (s : State) : (restoreStatus high s).w = s.w := rfl
@[simp] theorem restoreStatus_splim (high : Word) (s : State) : (restoreStatus high s).splim = s.splim := rfl
@[simp] theorem restoreStatus_splimEnabled (high : Word) (s : State) : (restoreStatus high s).splimEnabled = s.splimEnabled := rfl
@[simp] theorem restoreStatus_intcon1 (high : Word) (s : State) : (restoreStatus high s).intcon1 = s.intcon1 := rfl
@[simp] theorem restoreStatus_intcon2 (high : Word) (s : State) : (restoreStatus high s).intcon2 = s.intcon2 := rfl
@[simp] theorem restoreStatus_ifs (high : Word) (s : State) : (restoreStatus high s).ifs = s.ifs := rfl
@[simp] theorem restoreStatus_iec (high : Word) (s : State) : (restoreStatus high s).iec = s.iec := rfl
@[simp] theorem restoreStatus_ipc (high : Word) (s : State) : (restoreStatus high s).ipc = s.ipc := rfl
@[simp] theorem restoreStatus_disicnt (high : Word) (s : State) : (restoreStatus high s).disicnt = s.disicnt := rfl
@[simp] theorem restoreStatus_disicntStray (high : Word) (s : State) : (restoreStatus high s).disicntStray = s.disicntStray := rfl
@[simp] theorem restoreStatus_strayBound (high : Word) (s : State) : (restoreStatus high s).strayBound = s.strayBound := rfl
@[simp] theorem restoreStatus_trapr (high : Word) (s : State) : (restoreStatus high s).trapr = s.trapr := rfl
@[simp] theorem restoreStatus_cf (high : Word) (s : State) : (restoreStatus high s).cf = s.cf := rfl
@[simp] theorem restoreStatus_cpuMode (high : Word) (s : State) : (restoreStatus high s).cpuMode = s.cpuMode := rfl
@[simp] theorem restoreStatus_ackDefer (high : Word) (s : State) : (restoreStatus high s).ackDefer = s.ackDefer := rfl
@[simp] theorem restoreStatus_mem (high : Word) (s : State) : (restoreStatus high s).mem = s.mem := rfl
@[simp] theorem restoreStatus_prog (high : Word) (s : State) : (restoreStatus high s).prog = s.prog := rfl
@[simp] theorem restoreStatus_others (high : Word) (s : State) : (restoreStatus high s).others = s.others := rfl
@[simp] theorem restoreStatus_cfg (high : Word) (s : State) : (restoreStatus high s).cfg = s.cfg := rfl
@[simp] theorem restoreStatus_schedule (high : Word) (s : State) : (restoreStatus high s).schedule = s.schedule := rfl
@[simp] theorem restoreStatus_draws (high : Word) (s : State) : (restoreStatus high s).draws = s.draws := rfl

/-! ### `openWindow` (R130) -/

@[simp] theorem openWindow_pc (k : BitVec 14) (s : State) : (openWindow k s).pc = s.pc := rfl
@[simp] theorem openWindow_w (k : BitVec 14) (s : State) : (openWindow k s).w = s.w := rfl
@[simp] theorem openWindow_splim (k : BitVec 14) (s : State) : (openWindow k s).splim = s.splim := rfl
@[simp] theorem openWindow_splimEnabled (k : BitVec 14) (s : State) : (openWindow k s).splimEnabled = s.splimEnabled := rfl
@[simp] theorem openWindow_sr (k : BitVec 14) (s : State) : (openWindow k s).sr = s.sr := rfl
@[simp] theorem openWindow_corcon (k : BitVec 14) (s : State) : (openWindow k s).corcon = s.corcon := rfl
@[simp] theorem openWindow_intcon1 (k : BitVec 14) (s : State) : (openWindow k s).intcon1 = s.intcon1 := rfl
@[simp] theorem openWindow_ifs (k : BitVec 14) (s : State) : (openWindow k s).ifs = s.ifs := rfl
@[simp] theorem openWindow_iec (k : BitVec 14) (s : State) : (openWindow k s).iec = s.iec := rfl
@[simp] theorem openWindow_ipc (k : BitVec 14) (s : State) : (openWindow k s).ipc = s.ipc := rfl
@[simp] theorem openWindow_strayBound (k : BitVec 14) (s : State) : (openWindow k s).strayBound = s.strayBound := rfl
@[simp] theorem openWindow_trapr (k : BitVec 14) (s : State) : (openWindow k s).trapr = s.trapr := rfl
@[simp] theorem openWindow_cf (k : BitVec 14) (s : State) : (openWindow k s).cf = s.cf := rfl
@[simp] theorem openWindow_cpuMode (k : BitVec 14) (s : State) : (openWindow k s).cpuMode = s.cpuMode := rfl
@[simp] theorem openWindow_ackDefer (k : BitVec 14) (s : State) : (openWindow k s).ackDefer = s.ackDefer := rfl
@[simp] theorem openWindow_mem (k : BitVec 14) (s : State) : (openWindow k s).mem = s.mem := rfl
@[simp] theorem openWindow_prog (k : BitVec 14) (s : State) : (openWindow k s).prog = s.prog := rfl
@[simp] theorem openWindow_others (k : BitVec 14) (s : State) : (openWindow k s).others = s.others := rfl
@[simp] theorem openWindow_cfg (k : BitVec 14) (s : State) : (openWindow k s).cfg = s.cfg := rfl
@[simp] theorem openWindow_schedule (k : BitVec 14) (s : State) : (openWindow k s).schedule = s.schedule := rfl
@[simp] theorem openWindow_draws (k : BitVec 14) (s : State) : (openWindow k s).draws = s.draws := rfl

/-! ### `setEntryPri` (R207, R208) -/

@[simp] theorem setEntryPri_pc (e : Exc) (l : BitVec 3) (s : State) : (setEntryPri e l s).pc = s.pc := by cases e <;> rfl
@[simp] theorem setEntryPri_w (e : Exc) (l : BitVec 3) (s : State) : (setEntryPri e l s).w = s.w := by cases e <;> rfl
@[simp] theorem setEntryPri_splim (e : Exc) (l : BitVec 3) (s : State) : (setEntryPri e l s).splim = s.splim := by cases e <;> rfl
@[simp] theorem setEntryPri_splimEnabled (e : Exc) (l : BitVec 3) (s : State) : (setEntryPri e l s).splimEnabled = s.splimEnabled := by cases e <;> rfl
@[simp] theorem setEntryPri_intcon1 (e : Exc) (l : BitVec 3) (s : State) : (setEntryPri e l s).intcon1 = s.intcon1 := by cases e <;> rfl
@[simp] theorem setEntryPri_intcon2 (e : Exc) (l : BitVec 3) (s : State) : (setEntryPri e l s).intcon2 = s.intcon2 := by cases e <;> rfl
@[simp] theorem setEntryPri_ifs (e : Exc) (l : BitVec 3) (s : State) : (setEntryPri e l s).ifs = s.ifs := by cases e <;> rfl
@[simp] theorem setEntryPri_iec (e : Exc) (l : BitVec 3) (s : State) : (setEntryPri e l s).iec = s.iec := by cases e <;> rfl
@[simp] theorem setEntryPri_ipc (e : Exc) (l : BitVec 3) (s : State) : (setEntryPri e l s).ipc = s.ipc := by cases e <;> rfl
@[simp] theorem setEntryPri_disicnt (e : Exc) (l : BitVec 3) (s : State) : (setEntryPri e l s).disicnt = s.disicnt := by cases e <;> rfl
@[simp] theorem setEntryPri_disicntStray (e : Exc) (l : BitVec 3) (s : State) : (setEntryPri e l s).disicntStray = s.disicntStray := by cases e <;> rfl
@[simp] theorem setEntryPri_strayBound (e : Exc) (l : BitVec 3) (s : State) : (setEntryPri e l s).strayBound = s.strayBound := by cases e <;> rfl
@[simp] theorem setEntryPri_trapr (e : Exc) (l : BitVec 3) (s : State) : (setEntryPri e l s).trapr = s.trapr := by cases e <;> rfl
@[simp] theorem setEntryPri_cf (e : Exc) (l : BitVec 3) (s : State) : (setEntryPri e l s).cf = s.cf := by cases e <;> rfl
@[simp] theorem setEntryPri_cpuMode (e : Exc) (l : BitVec 3) (s : State) : (setEntryPri e l s).cpuMode = s.cpuMode := by cases e <;> rfl
@[simp] theorem setEntryPri_ackDefer (e : Exc) (l : BitVec 3) (s : State) : (setEntryPri e l s).ackDefer = s.ackDefer := by cases e <;> rfl
@[simp] theorem setEntryPri_mem (e : Exc) (l : BitVec 3) (s : State) : (setEntryPri e l s).mem = s.mem := by cases e <;> rfl
@[simp] theorem setEntryPri_prog (e : Exc) (l : BitVec 3) (s : State) : (setEntryPri e l s).prog = s.prog := by cases e <;> rfl
@[simp] theorem setEntryPri_others (e : Exc) (l : BitVec 3) (s : State) : (setEntryPri e l s).others = s.others := by cases e <;> rfl
@[simp] theorem setEntryPri_cfg (e : Exc) (l : BitVec 3) (s : State) : (setEntryPri e l s).cfg = s.cfg := by cases e <;> rfl
@[simp] theorem setEntryPri_schedule (e : Exc) (l : BitVec 3) (s : State) : (setEntryPri e l s).schedule = s.schedule := by cases e <;> rfl
@[simp] theorem setEntryPri_draws (e : Exc) (l : BitVec 3) (s : State) : (setEntryPri e l s).draws = s.draws := by cases e <;> rfl

/-! ### `setIntFlag` (R38) -/

@[simp] theorem setIntFlag_pc (s : State) (v : Nat) : (setIntFlag s v).pc = s.pc := by unfold setIntFlag; split <;> (try split) <;> rfl
@[simp] theorem setIntFlag_w (s : State) (v : Nat) : (setIntFlag s v).w = s.w := by unfold setIntFlag; split <;> (try split) <;> rfl
@[simp] theorem setIntFlag_splim (s : State) (v : Nat) : (setIntFlag s v).splim = s.splim := by unfold setIntFlag; split <;> (try split) <;> rfl
@[simp] theorem setIntFlag_splimEnabled (s : State) (v : Nat) : (setIntFlag s v).splimEnabled = s.splimEnabled := by unfold setIntFlag; split <;> (try split) <;> rfl
@[simp] theorem setIntFlag_sr (s : State) (v : Nat) : (setIntFlag s v).sr = s.sr := by unfold setIntFlag; split <;> (try split) <;> rfl
@[simp] theorem setIntFlag_corcon (s : State) (v : Nat) : (setIntFlag s v).corcon = s.corcon := by unfold setIntFlag; split <;> (try split) <;> rfl
@[simp] theorem setIntFlag_intcon1 (s : State) (v : Nat) : (setIntFlag s v).intcon1 = s.intcon1 := by unfold setIntFlag; split <;> (try split) <;> rfl
@[simp] theorem setIntFlag_intcon2 (s : State) (v : Nat) : (setIntFlag s v).intcon2 = s.intcon2 := by unfold setIntFlag; split <;> (try split) <;> rfl
@[simp] theorem setIntFlag_iec (s : State) (v : Nat) : (setIntFlag s v).iec = s.iec := by unfold setIntFlag; split <;> (try split) <;> rfl
@[simp] theorem setIntFlag_ipc (s : State) (v : Nat) : (setIntFlag s v).ipc = s.ipc := by unfold setIntFlag; split <;> (try split) <;> rfl
@[simp] theorem setIntFlag_disicnt (s : State) (v : Nat) : (setIntFlag s v).disicnt = s.disicnt := by unfold setIntFlag; split <;> (try split) <;> rfl
@[simp] theorem setIntFlag_disicntStray (s : State) (v : Nat) : (setIntFlag s v).disicntStray = s.disicntStray := by unfold setIntFlag; split <;> (try split) <;> rfl
@[simp] theorem setIntFlag_strayBound (s : State) (v : Nat) : (setIntFlag s v).strayBound = s.strayBound := by unfold setIntFlag; split <;> (try split) <;> rfl
@[simp] theorem setIntFlag_trapr (s : State) (v : Nat) : (setIntFlag s v).trapr = s.trapr := by unfold setIntFlag; split <;> (try split) <;> rfl
@[simp] theorem setIntFlag_cf (s : State) (v : Nat) : (setIntFlag s v).cf = s.cf := by unfold setIntFlag; split <;> (try split) <;> rfl
@[simp] theorem setIntFlag_cpuMode (s : State) (v : Nat) : (setIntFlag s v).cpuMode = s.cpuMode := by unfold setIntFlag; split <;> (try split) <;> rfl
@[simp] theorem setIntFlag_ackDefer (s : State) (v : Nat) : (setIntFlag s v).ackDefer = s.ackDefer := by unfold setIntFlag; split <;> (try split) <;> rfl
@[simp] theorem setIntFlag_mem (s : State) (v : Nat) : (setIntFlag s v).mem = s.mem := by unfold setIntFlag; split <;> (try split) <;> rfl
@[simp] theorem setIntFlag_prog (s : State) (v : Nat) : (setIntFlag s v).prog = s.prog := by unfold setIntFlag; split <;> (try split) <;> rfl
@[simp] theorem setIntFlag_others (s : State) (v : Nat) : (setIntFlag s v).others = s.others := by unfold setIntFlag; split <;> (try split) <;> rfl
@[simp] theorem setIntFlag_cfg (s : State) (v : Nat) : (setIntFlag s v).cfg = s.cfg := by unfold setIntFlag; split <;> (try split) <;> rfl
@[simp] theorem setIntFlag_schedule (s : State) (v : Nat) : (setIntFlag s v).schedule = s.schedule := by unfold setIntFlag; split <;> (try split) <;> rfl
@[simp] theorem setIntFlag_draws (s : State) (v : Nat) : (setIntFlag s v).draws = s.draws := by unfold setIntFlag; split <;> (try split) <;> rfl

/-! ### `limitCheck` (R90) -/

@[simp] theorem limitCheck_pc (a : Word) (s : State) : (limitCheck a s).pc = s.pc := by unfold limitCheck; split <;> rfl
@[simp] theorem limitCheck_w (a : Word) (s : State) : (limitCheck a s).w = s.w := by unfold limitCheck; split <;> rfl
@[simp] theorem limitCheck_splim (a : Word) (s : State) : (limitCheck a s).splim = s.splim := by unfold limitCheck; split <;> rfl
@[simp] theorem limitCheck_splimEnabled (a : Word) (s : State) : (limitCheck a s).splimEnabled = s.splimEnabled := by unfold limitCheck; split <;> rfl
@[simp] theorem limitCheck_sr (a : Word) (s : State) : (limitCheck a s).sr = s.sr := by unfold limitCheck; split <;> rfl
@[simp] theorem limitCheck_corcon (a : Word) (s : State) : (limitCheck a s).corcon = s.corcon := by unfold limitCheck; split <;> rfl
@[simp] theorem limitCheck_intcon2 (a : Word) (s : State) : (limitCheck a s).intcon2 = s.intcon2 := by unfold limitCheck; split <;> rfl
@[simp] theorem limitCheck_ifs (a : Word) (s : State) : (limitCheck a s).ifs = s.ifs := by unfold limitCheck; split <;> rfl
@[simp] theorem limitCheck_iec (a : Word) (s : State) : (limitCheck a s).iec = s.iec := by unfold limitCheck; split <;> rfl
@[simp] theorem limitCheck_ipc (a : Word) (s : State) : (limitCheck a s).ipc = s.ipc := by unfold limitCheck; split <;> rfl
@[simp] theorem limitCheck_disicnt (a : Word) (s : State) : (limitCheck a s).disicnt = s.disicnt := by unfold limitCheck; split <;> rfl
@[simp] theorem limitCheck_disicntStray (a : Word) (s : State) : (limitCheck a s).disicntStray = s.disicntStray := by unfold limitCheck; split <;> rfl
@[simp] theorem limitCheck_strayBound (a : Word) (s : State) : (limitCheck a s).strayBound = s.strayBound := by unfold limitCheck; split <;> rfl
@[simp] theorem limitCheck_trapr (a : Word) (s : State) : (limitCheck a s).trapr = s.trapr := by unfold limitCheck; split <;> rfl
@[simp] theorem limitCheck_cf (a : Word) (s : State) : (limitCheck a s).cf = s.cf := by unfold limitCheck; split <;> rfl
@[simp] theorem limitCheck_cpuMode (a : Word) (s : State) : (limitCheck a s).cpuMode = s.cpuMode := by unfold limitCheck; split <;> rfl
@[simp] theorem limitCheck_ackDefer (a : Word) (s : State) : (limitCheck a s).ackDefer = s.ackDefer := by unfold limitCheck; split <;> rfl
@[simp] theorem limitCheck_mem (a : Word) (s : State) : (limitCheck a s).mem = s.mem := by unfold limitCheck; split <;> rfl
@[simp] theorem limitCheck_prog (a : Word) (s : State) : (limitCheck a s).prog = s.prog := by unfold limitCheck; split <;> rfl
@[simp] theorem limitCheck_others (a : Word) (s : State) : (limitCheck a s).others = s.others := by unfold limitCheck; split <;> rfl
@[simp] theorem limitCheck_cfg (a : Word) (s : State) : (limitCheck a s).cfg = s.cfg := by unfold limitCheck; split <;> rfl
@[simp] theorem limitCheck_schedule (a : Word) (s : State) : (limitCheck a s).schedule = s.schedule := by unfold limitCheck; split <;> rfl
@[simp] theorem limitCheck_draws (a : Word) (s : State) : (limitCheck a s).draws = s.draws := by unfold limitCheck; split <;> rfl

/-! ### `setSp` (R90) -/

@[simp] theorem setSp_pc (v : Word) (s : State) : (setSp v s).pc = s.pc := by unfold setSp; dsimp only; split <;> rfl
@[simp] theorem setSp_splim (v : Word) (s : State) : (setSp v s).splim = s.splim := by unfold setSp; dsimp only; split <;> rfl
@[simp] theorem setSp_splimEnabled (v : Word) (s : State) : (setSp v s).splimEnabled = s.splimEnabled := by unfold setSp; dsimp only; split <;> rfl
@[simp] theorem setSp_sr (v : Word) (s : State) : (setSp v s).sr = s.sr := by unfold setSp; dsimp only; split <;> rfl
@[simp] theorem setSp_corcon (v : Word) (s : State) : (setSp v s).corcon = s.corcon := by unfold setSp; dsimp only; split <;> rfl
@[simp] theorem setSp_intcon2 (v : Word) (s : State) : (setSp v s).intcon2 = s.intcon2 := by unfold setSp; dsimp only; split <;> rfl
@[simp] theorem setSp_ifs (v : Word) (s : State) : (setSp v s).ifs = s.ifs := by unfold setSp; dsimp only; split <;> rfl
@[simp] theorem setSp_iec (v : Word) (s : State) : (setSp v s).iec = s.iec := by unfold setSp; dsimp only; split <;> rfl
@[simp] theorem setSp_ipc (v : Word) (s : State) : (setSp v s).ipc = s.ipc := by unfold setSp; dsimp only; split <;> rfl
@[simp] theorem setSp_disicnt (v : Word) (s : State) : (setSp v s).disicnt = s.disicnt := by unfold setSp; dsimp only; split <;> rfl
@[simp] theorem setSp_disicntStray (v : Word) (s : State) : (setSp v s).disicntStray = s.disicntStray := by unfold setSp; dsimp only; split <;> rfl
@[simp] theorem setSp_strayBound (v : Word) (s : State) : (setSp v s).strayBound = s.strayBound := by unfold setSp; dsimp only; split <;> rfl
@[simp] theorem setSp_trapr (v : Word) (s : State) : (setSp v s).trapr = s.trapr := by unfold setSp; dsimp only; split <;> rfl
@[simp] theorem setSp_cf (v : Word) (s : State) : (setSp v s).cf = s.cf := by unfold setSp; dsimp only; split <;> rfl
@[simp] theorem setSp_cpuMode (v : Word) (s : State) : (setSp v s).cpuMode = s.cpuMode := by unfold setSp; dsimp only; split <;> rfl
@[simp] theorem setSp_ackDefer (v : Word) (s : State) : (setSp v s).ackDefer = s.ackDefer := by unfold setSp; dsimp only; split <;> rfl
@[simp] theorem setSp_mem (v : Word) (s : State) : (setSp v s).mem = s.mem := by unfold setSp; dsimp only; split <;> rfl
@[simp] theorem setSp_prog (v : Word) (s : State) : (setSp v s).prog = s.prog := by unfold setSp; dsimp only; split <;> rfl
@[simp] theorem setSp_others (v : Word) (s : State) : (setSp v s).others = s.others := by unfold setSp; dsimp only; split <;> rfl
@[simp] theorem setSp_cfg (v : Word) (s : State) : (setSp v s).cfg = s.cfg := by unfold setSp; dsimp only; split <;> rfl
@[simp] theorem setSp_schedule (v : Word) (s : State) : (setSp v s).schedule = s.schedule := by unfold setSp; dsimp only; split <;> rfl
@[simp] theorem setSp_draws (v : Word) (s : State) : (setSp v s).draws = s.draws := by unfold setSp; dsimp only; split <;> rfl

/-! ### `tick` (R133) -/

@[simp] theorem tick_pc (c : Nat) (s : State) : (tick c s).pc = s.pc := by unfold tick; dsimp only; split <;> (try split) <;> rfl
@[simp] theorem tick_w (c : Nat) (s : State) : (tick c s).w = s.w := by unfold tick; dsimp only; split <;> (try split) <;> rfl
@[simp] theorem tick_splim (c : Nat) (s : State) : (tick c s).splim = s.splim := by unfold tick; dsimp only; split <;> (try split) <;> rfl
@[simp] theorem tick_splimEnabled (c : Nat) (s : State) : (tick c s).splimEnabled = s.splimEnabled := by unfold tick; dsimp only; split <;> (try split) <;> rfl
@[simp] theorem tick_sr (c : Nat) (s : State) : (tick c s).sr = s.sr := by unfold tick; dsimp only; split <;> (try split) <;> rfl
@[simp] theorem tick_corcon (c : Nat) (s : State) : (tick c s).corcon = s.corcon := by unfold tick; dsimp only; split <;> (try split) <;> rfl
@[simp] theorem tick_intcon1 (c : Nat) (s : State) : (tick c s).intcon1 = s.intcon1 := by unfold tick; dsimp only; split <;> (try split) <;> rfl
@[simp] theorem tick_ifs (c : Nat) (s : State) : (tick c s).ifs = s.ifs := by unfold tick; dsimp only; split <;> (try split) <;> rfl
@[simp] theorem tick_iec (c : Nat) (s : State) : (tick c s).iec = s.iec := by unfold tick; dsimp only; split <;> (try split) <;> rfl
@[simp] theorem tick_ipc (c : Nat) (s : State) : (tick c s).ipc = s.ipc := by unfold tick; dsimp only; split <;> (try split) <;> rfl
@[simp] theorem tick_disicntStray (c : Nat) (s : State) : (tick c s).disicntStray = s.disicntStray := by unfold tick; dsimp only; split <;> (try split) <;> rfl
@[simp] theorem tick_strayBound (c : Nat) (s : State) : (tick c s).strayBound = s.strayBound := by unfold tick; dsimp only; split <;> (try split) <;> rfl
@[simp] theorem tick_trapr (c : Nat) (s : State) : (tick c s).trapr = s.trapr := by unfold tick; dsimp only; split <;> (try split) <;> rfl
@[simp] theorem tick_cf (c : Nat) (s : State) : (tick c s).cf = s.cf := by unfold tick; dsimp only; split <;> (try split) <;> rfl
@[simp] theorem tick_cpuMode (c : Nat) (s : State) : (tick c s).cpuMode = s.cpuMode := by unfold tick; dsimp only; split <;> (try split) <;> rfl
@[simp] theorem tick_ackDefer (c : Nat) (s : State) : (tick c s).ackDefer = s.ackDefer := by unfold tick; dsimp only; split <;> (try split) <;> rfl
@[simp] theorem tick_mem (c : Nat) (s : State) : (tick c s).mem = s.mem := by unfold tick; dsimp only; split <;> (try split) <;> rfl
@[simp] theorem tick_prog (c : Nat) (s : State) : (tick c s).prog = s.prog := by unfold tick; dsimp only; split <;> (try split) <;> rfl
@[simp] theorem tick_others (c : Nat) (s : State) : (tick c s).others = s.others := by unfold tick; dsimp only; split <;> (try split) <;> rfl
@[simp] theorem tick_cfg (c : Nat) (s : State) : (tick c s).cfg = s.cfg := by unfold tick; dsimp only; split <;> (try split) <;> rfl
@[simp] theorem tick_schedule (c : Nat) (s : State) : (tick c s).schedule = s.schedule := by unfold tick; dsimp only; split <;> (try split) <;> rfl
@[simp] theorem tick_draws (c : Nat) (s : State) : (tick c s).draws = s.draws := by unfold tick; dsimp only; split <;> (try split) <;> rfl

/-! ### The fields the updates write -/

@[simp] theorem setDisi_intcon2 (s : State) (b : Bool) : (s.setDisi b).intcon2 = withBit s.intcon2 14 b := rfl
@[simp] theorem setTrapFlag_intcon1 (t : Trap) (s : State) :
    (setTrapFlag t s).intcon1 = withBit s.intcon1 (trapBit t) true := rfl
@[simp] theorem raiseStack_intcon1 (s : State) : (raiseStack s).intcon1 = withBit s.intcon1 2 true := rfl
@[simp] theorem raiseMath_intcon1 (s : State) : (raiseMath s).intcon1 = withBit s.intcon1 4 true := rfl
@[simp] theorem restoreStatus_sr (high : Word) (s : State) :
    (restoreStatus high s).sr = withSrl s.sr (high.extractLsb' 8 8 &&& 0xEF#8) := rfl
@[simp] theorem restoreStatus_corcon (high : Word) (s : State) :
    (restoreStatus high s).corcon = withBit s.corcon 3 (high.getLsbD 7) := rfl
@[simp] theorem setEntryPri_sr (e : Exc) (l : BitVec 3) (s : State) :
    (setEntryPri e l s).sr = withIpl s.sr l := by cases e <;> rfl
@[simp] theorem setSp_w (v : Word) (s : State) : (setSp v s).w = s.w.set 15 (v &&& 0xFFFE#16) := by
  unfold setSp; dsimp only; split <;> rfl
theorem setSp_intcon1 (v : Word) (s : State) :
    (setSp v s).intcon1 =
      if v &&& 0xFFFE#16 < 0x0800#16 then withBit s.intcon1 2 true else s.intcon1 := by
  unfold setSp; dsimp only; split <;> rfl
theorem limitCheck_intcon1 (a : Word) (s : State) :
    (limitCheck a s).intcon1 =
      if s.splimEnabled && decide (s.splim < a) then withBit s.intcon1 2 true else s.intcon1 := by
  unfold limitCheck; split <;> rfl

end Sys2Proof.Machine
end

