-- ==== Sys2Proof/Laws/Ops.lean ====
section
/-! SUPPORT. What the shared operations can do: one lemma per operation, for the proofs to cite instead of unfolding it. -/

namespace Sys2Proof.Machine

/-! ### Sequencing -/

@[simp] theorem finish_ok (s : State) : finish (.ok s) = .next s := rfl
@[simp] theorem finish_error (o : Host.Outcome State Fault Refusal) : finish (.error o) = o := rfl

/-- A sequence that ends well has ended well at its first part. -/
theorem bind_ok {α β : Type} {x : Act α} {f : α → Act β} {b : β} (h : x >>= f = .ok b) :
    ∃ a, x = .ok a ∧ f a = .ok b := by
  cases x with
  | ok a => exact ⟨a, rfl, h⟩
  | error o => exact nomatch h

/-- A sequence that ends early has ended early at its first part or after it. -/
theorem bind_error {α β : Type} {x : Act α} {f : α → Act β} {o : Host.Outcome State Fault Refusal}
    (h : x >>= f = .error o) : x = .error o ∨ ∃ a, x = .ok a ∧ f a = .error o := by
  cases x with
  | ok a => exact .inr ⟨a, rfl, h⟩
  | error o' => exact .inl (by injection h with h; rw [h])

@[simp] theorem ok_bind {α β : Type} (a : α) (f : α → Act β) : ((.ok a : Act α) >>= f) = f a := rfl
@[simp] theorem error_bind {α β : Type} (o : Host.Outcome State Fault Refusal) (f : α → Act β) :
    ((.error o : Act α) >>= f) = .error o := rfl
@[simp] theorem map_ok {α β : Type} (f : α → β) (a : α) : (Except.map f (.ok a) : Act β) = .ok (f a) := rfl
@[simp] theorem map_error {α β : Type} (f : α → β) (o : Host.Outcome State Fault Refusal) :
    (Except.map f (.error o) : Act β) = .error o := rfl

/-- An operation that gives a next state has run to its end, or has ended early in one. -/
theorem finish_next {x : Act State} {t : State} (h : finish x = .next t) : x = .ok t ∨ x = .error (.next t) := by
  cases x with
  | ok s => injection h with h; exact .inl (by rw [h])
  | error o => exact .inr (by rw [show o = .next t from h])

theorem map_ok_inv {α β : Type} {f : α → β} {x : Act α} {b : β} (h : x.map f = .ok b) :
    ∃ a, x = .ok a ∧ f a = b := by
  cases x with
  | ok a => injection h with h; exact ⟨a, rfl, h⟩
  | error o => exact nomatch h

theorem map_error_inv {α β : Type} {f : α → β} {x : Act α} {o : Host.Outcome State Fault Refusal}
    (h : x.map f = .error o) : x = .error o := by
  cases x with
  | ok a => exact nomatch h
  | error o' => injection h with h; rw [h]

/-! ### Raising a trap condition (R197) -/

/-- When an address error is a conflict (R197). -/
theorem trapConflict_addressError (s : State) : trapConflict .addressError s = true ↔
    (trapFlag .oscillatorFailure s = true ∨ 13#4 < s.cpuPri) := by
  unfold trapConflict
  rw [Bool.or_eq_true, decide_eq_true_eq]
  simp [allTraps, trapLevel]

/-- `raiseHard` runs on exactly when there is no conflict and the CPU priority is not the trap's own level. -/
theorem raiseHard_ok {t : Trap} {s s' : State} (h : raiseHard t s = .ok s') :
    s' = setTrapFlag t s ∧ trapConflict t s = false ∧ s.cpuPri ≠ trapLevel t := by
  unfold raiseHard at h
  split at h
  · exact nomatch h
  · split at h
    · exact nomatch h
    · rename_i h1 h2
      injection h with h
      exact ⟨h.symm, by simpa using h1, h2⟩

/-- `raiseHard` ends early in the conflict Reset or in the spec's refusal. -/
theorem raiseHard_error {t : Trap} {s : State} {o : Host.Outcome State Fault Refusal}
    (h : raiseHard t s = .error o) :
    (trapConflict t s = true ∧ o = .next (deviceReset .trapConflict s)) ∨
    (s.cpuPri = trapLevel t ∧ o = .refused .hardTrapUnacknowledgeable) := by
  unfold raiseHard at h
  split at h
  · rename_i h1
    injection h with h
    exact .inl ⟨h1, h.symm⟩
  · split at h
    · rename_i h1 h2
      injection h with h
      exact .inr ⟨h2, h.symm⟩
    · exact nomatch h

/-- What raising the address error, or not, leaves. -/
theorem raiseAddressIf_ok {b : Bool} {s s' : State} (h : raiseAddressIf b s = .ok s') :
    (b = false ∧ s' = s) ∨ (b = true ∧ s' = setTrapFlag .addressError s ∧ trapConflict .addressError s = false) := by
  cases b with
  | false => injection h with h; exact .inl ⟨rfl, h.symm⟩
  | true => exact .inr ⟨rfl, (raiseHard_ok h).1, (raiseHard_ok h).2.1⟩

theorem raiseAddressIf_error {b : Bool} {s : State} {o : Host.Outcome State Fault Refusal}
    (h : raiseAddressIf b s = .error o) :
    (trapConflict .addressError s = true ∧ o = .next (deviceReset .trapConflict s)) ∨
    o = .refused .hardTrapUnacknowledgeable := by
  cases b with
  | false => exact nomatch h
  | true => exact (raiseHard_error h).imp id And.right

@[simp] theorem raiseAddressIf_false (s : State) : raiseAddressIf false s = .ok s := rfl

/-! ### The program counter (R89) -/

/-- pc as a jump leaves it: bit 0 is 0 (R21). -/
abbrev evenTarget (p : Pc) : Pc := p &&& 0x7FFFFE#23

/-- A jump to an implemented address sets pc and nothing else. -/
theorem jump_implemented {p : Pc} {s : State} (h : progImpl s (evenTarget p) = true) :
    jump p s = .ok { s with pc := evenTarget p } := by
  have h' : progImpl { s with pc := p &&& 0x7FFFFE#23 } (p &&& 0x7FFFFE#23) = true := h
  simp [jump, h']

/-- What a jump that runs on leaves: pc, and the address error's flag if the target is unimplemented. -/
theorem jump_ok {p : Pc} {s s' : State} (h : jump p s = .ok s') :
    (progImpl s (evenTarget p) = true ∧ s' = { s with pc := evenTarget p }) ∨
    (progImpl s (evenTarget p) = false ∧ s' = setTrapFlag .addressError { s with pc := evenTarget p }) := by
  rcases raiseAddressIf_ok h with ⟨hb, rfl⟩ | ⟨hb, rfl, -⟩
  · exact .inl ⟨(Bool.not_eq_false' .. ▸ hb : _ = true), rfl⟩
  · exact .inr ⟨(Bool.not_eq_true' .. ▸ hb : _ = false), rfl⟩

theorem jump_error {p : Pc} {s : State} {o : Host.Outcome State Fault Refusal} (h : jump p s = .error o) :
    (trapConflict .addressError s = true ∧ o = .next (deviceReset .trapConflict { s with pc := evenTarget p })) ∨
    o = .refused .hardTrapUnacknowledgeable := by
  exact raiseAddressIf_error (s := { s with pc := evenTarget p }) h

/-- An even target is reached as it is. -/
theorem evenTarget_of_even {p : Pc} (h : evenPc p = true) : evenTarget p = p := by
  have h0 : p.getLsbD 0 = false := by simpa [evenPc] using h
  apply BitVec.eq_of_getLsbD_eq
  intro i hi
  rw [BitVec.getLsbD_and]
  by_cases hi0 : i = 0
  · subst hi0; rw [h0]; rfl
  · have : (0x7FFFFE#23).getLsbD i = true := by
      have : ∀ j : Fin 23, j.val ≠ 0 → (0x7FFFFE#23).getLsbD j.val = true := by decide
      exact this ⟨i, hi⟩ hi0
    rw [this, Bool.and_true]

/-! ### Registers (R52, R53) -/

/-- Reading a register takes at most free values. -/
theorem readSfr_state (r : Sfr) (s : State) : (readSfr r s).2 = { s with draws := (readSfr r s).2.draws } := by
  cases r <;> try rfl
  unfold readSfr
  dsimp only
  split <;> rfl

/-- A software write of a register changes nothing of the program image, the turns or data memory. -/
theorem writeSfr_keeps (r : Sfr) (b : Bool) (v : Word) (s : State) :
    (writeSfr r b v s).prog = s.prog ∧ (writeSfr r b v s).others = s.others ∧ (writeSfr r b v s).cfg = s.cfg ∧
    (writeSfr r b v s).schedule = s.schedule ∧ (writeSfr r b v s).mem = s.mem ∧ (writeSfr r b v s).pc = s.pc ∧
    (writeSfr r b v s).draws = s.draws ∧ (writeSfr r b v s).cpuMode = s.cpuMode ∧
    (writeSfr r b v s).ackDefer = s.ackDefer := by
  cases r with
  | w n =>
    show (writeW n v s).prog = _ ∧ _
    unfold writeW
    split <;> simp [writeSfr]
    · unfold writeW; simp_all
    · unfold writeW; simp_all
  | disicnt =>
    simp only [writeSfr, writeDisicnt]
    split
    · simp
    · split <;> simp
  | _ => simp [writeSfr]

/-! ### Data accesses (R160) -/

/-- A data read that succeeds takes at most free values. -/
theorem readData_ok {w : Width} {a v : Word} {s s' : State} (h : readData w a s = .ok (v, s')) :
    s' = { s with draws := s'.draws } := by
  unfold readData at h
  split at h
  · split at h
    · rename_i r _
      injection h with h
      have h2 : (readSfr r s).2 = s' := by rw [h]
      rw [← h2]
      exact readSfr_state r s
    · obtain ⟨x, -, hx⟩ := map_ok_inv h
      injection hx with _ hx
      subst hx
      rfl
  · split at h
    · rename_i r _
      injection h with h
      have h2 : (readSfr r s).2 = s' := by injection h
      rw [← h2]
      exact readSfr_state r s
    · obtain ⟨x, -, hx⟩ := map_ok_inv h
      injection hx with _ hx
      subst hx
      rfl

/-- A data read that stops early is a fault: a byte never written. -/
theorem readData_error {w : Width} {a : Word} {s : State} {o : Host.Outcome State Fault Refusal}
    (h : readData w a s = .error o) : ∃ f, o = .fault f := by
  have byte : ∀ (n : Nat) (o : Host.Outcome State Fault Refusal), ramByte n s = .error o → ∃ f, o = .fault f := by
    intro n o h
    unfold ramByte at h
    split at h
    · exact nomatch h
    · injection h with h; exact ⟨_, h.symm⟩
  unfold readData at h
  split at h
  · split at h
    · exact nomatch h
    · have h := map_error_inv h
      unfold ramWord at h
      rcases bind_error h with h | ⟨lo, -, h⟩
      · exact byte _ _ h
      · rcases bind_error h with h | ⟨hi, -, h⟩
        · exact byte _ _ h
        · exact nomatch h
  · split at h
    · exact nomatch h
    · exact byte _ _ (map_error_inv h)

/-- What a data read that runs on leaves: the address error's and the stack error's flags at most, and free values. -/
theorem load_ok {w : Width} {via bm bad : Bool} {a v : Word} {s s' : State}
    (h : load w via bm a s = .ok (v, bad, s')) :
    bad = (misaligned w bm a || !dataImpl s a) ∧
    ∃ s1, raiseAddressIf bad s = .ok s1 ∧
      s' = { (if via then limitCheck a s1 else s1) with draws := s'.draws } ∧
      (bad = true → v = Config.freeWord s.draws ∧ s'.draws = s.draws + 1) ∧
      (bad = false → readData w a (if via then limitCheck a s1 else s1) = .ok (v, s')) := by
  unfold load at h
  obtain ⟨s1, h1, h⟩ := bind_ok h
  have hd : (if via then limitCheck a s1 else s1).draws = s.draws := by
    rcases raiseAddressIf_ok h1 with ⟨-, rfl⟩ | ⟨-, rfl, -⟩ <;> split <;> simp
  dsimp only at h
  split at h
  · rename_i hb
    simp only [Except.ok.injEq, Prod.mk.injEq] at h
    obtain ⟨rfl, rfl, rfl⟩ := h
    exact ⟨hb.symm, s1, hb ▸ h1, rfl, fun _ => ⟨by simp [drawWord, hd], by simp [drawWord, hd]⟩, fun h => nomatch h⟩
  · rename_i hb
    have hb : (misaligned w bm a || !dataImpl s a) = false := by simpa using hb
    obtain ⟨⟨v', s2⟩, hr, h⟩ := bind_ok h
    simp only [Except.ok.injEq, Prod.mk.injEq] at h
    obtain ⟨rfl, rfl, rfl⟩ := h
    exact ⟨hb.symm, s1, hb ▸ h1, readData_ok hr, fun h => (nomatch h), fun _ => hr⟩

/-- A data read stops early in the conflict Reset, the spec's refusal, or a fault. -/
theorem load_error {w : Width} {via bm : Bool} {a : Word} {s : State} {o : Host.Outcome State Fault Refusal}
    (h : load w via bm a s = .error o) :
    (trapConflict .addressError s = true ∧ o = .next (deviceReset .trapConflict s)) ∨
    o = .refused .hardTrapUnacknowledgeable ∨ ∃ f, o = .fault f := by
  unfold load at h
  rcases bind_error h with h | ⟨s1, -, h⟩
  · rcases raiseAddressIf_error h with h | h
    · exact .inl h
    · exact .inr (.inl h)
  · dsimp only at h
    split at h
    · exact nomatch h
    · rcases bind_error h with h | ⟨⟨v, s2⟩, -, h⟩
      · exact .inr (.inr (readData_error h))
      · exact nomatch h

/-- What a data write that runs on leaves. -/
theorem store_ok {w : Width} {via bm inh bad : Bool} {a v : Word} {s s' : State}
    (h : store w via bm a v inh s = .ok (bad, s')) :
    bad = misaligned w bm a ∧
    ∃ s1, raiseAddressIf bad s = .ok s1 ∧
      s' = (if bad || inh then (if via then limitCheck a s1 else s1)
        else storeAt w a v (if via then limitCheck a s1 else s1)) := by
  unfold store at h
  obtain ⟨s1, h1, h⟩ := bind_ok h
  simp only [Except.ok.injEq, Prod.mk.injEq] at h
  obtain ⟨rfl, rfl⟩ := h
  exact ⟨rfl, s1, h1, rfl⟩

theorem store_error {w : Width} {via bm inh : Bool} {a v : Word} {s : State} {o : Host.Outcome State Fault Refusal}
    (h : store w via bm a v inh s = .error o) :
    (trapConflict .addressError s = true ∧ o = .next (deviceReset .trapConflict s)) ∨
    o = .refused .hardTrapUnacknowledgeable := by
  unfold store at h
  rcases bind_error h with h | ⟨s1, -, h⟩
  · exact raiseAddressIf_error h
  · exact nomatch h

/-! ### The stack (R90) -/

/-- W15 reads even. -/
theorem sp_even (s : State) : s.sp.getLsbD 0 = false := by
  unfold State.sp
  rw [BitVec.getLsbD_and]
  have : (0xFFFE#16).getLsbD 0 = false := by decide
  rw [this, Bool.and_false]

/-- An even word is its own even part. -/
theorem and_even_of_even {a : Word} (h : a.getLsbD 0 = false) : a &&& 0xFFFE#16 = a := by
  apply BitVec.eq_of_getLsbD_eq
  intro i hi
  rw [BitVec.getLsbD_and]
  by_cases hi0 : i = 0
  · subst hi0; rw [h]; rfl
  · have : (0xFFFE#16).getLsbD i = true := by
      have : ∀ j : Fin 16, j.val ≠ 0 → (0xFFFE#16).getLsbD j.val = true := by decide
      exact this ⟨i, hi⟩ hi0
    rw [this, Bool.and_true]

/-- W15 after it was set. -/
@[simp] theorem setSp_sp (v : Word) (s : State) : (setSp v s).sp = v &&& 0xFFFE#16 := by
  simp [State.sp, BitVec.and_assoc]

/-- The low bit of an address, as a number. -/
theorem even_toNat {a : Word} : a.getLsbD 0 = false ↔ a.toNat % 2 = 0 := by
  have : a.getLsbD 0 = a.toNat.testBit 0 := rfl
  rw [this, Nat.testBit_zero]
  simp

/-- The two neighbours of an even address are even. -/
theorem even_add_two {a : Word} (h : a.getLsbD 0 = false) : (a + 2#16).getLsbD 0 = false := by
  rw [even_toNat] at *
  rw [BitVec.toNat_add]
  have : (2#16).toNat = 2 := rfl
  omega

theorem even_sub_two {a : Word} (h : a.getLsbD 0 = false) : (a - 2#16).getLsbD 0 = false := by
  rw [even_toNat] at *
  rw [BitVec.toNat_sub]
  have : (2#16).toNat = 2 := rfl
  omega

end Sys2Proof.Machine
end

