-- ==== Sys2Proof/Laws/Invariant.lean ====
section
/-! SUPPORT. Every shared operation keeps the invariant `State.Inv`: one lemma per operation. -/

namespace Sys2Proof.Machine

/-! ### Masks -/

/-- A word whose bits under `m` are 0 keeps them so through `withBit` of a bit outside `m`. -/
theorem and_withBit {w m : Word} {n : Nat} {b : Bool} (hm : m.getLsbD n = false) (h : w &&& m = 0#16) :
    withBit w n b &&& m = 0#16 := by
  apply BitVec.eq_of_getLsbD_eq
  intro i hi
  have hi' := congrArg (BitVec.getLsbD · i) h
  simp only [BitVec.getLsbD_and] at hi' ⊢
  rw [getLsbD_withBit]
  split
  · rename_i hc; rw [hc.1, hm]; simp
  · exact hi'

/-- Masked bits are 0 under the complement. -/
theorem and_not_of_and (v m : Word) : (v &&& m) &&& ~~~m = 0#16 := by
  apply BitVec.eq_of_getLsbD_eq
  intro i hi
  simp only [BitVec.getLsbD_and, BitVec.getLsbD_not, hi]
  cases m.getLsbD i <;> simp

/-! ### Operations that keep the invariant -/

/-- The invariant does not look at these fields. -/
theorem inv_of_eq {s t : State} (h : s.Inv) (h1 : evenPc t.pc = true) (h2 : t.w = s.w) (h3 : t.sr = s.sr) (h4 : t.corcon = s.corcon)
    (h5 : t.intcon1 = s.intcon1) (h6 : t.intcon2 = s.intcon2) (h7 : t.ifs = s.ifs) (h8 : t.iec = s.iec)
    (h9 : t.ipc = s.ipc) (h10 : t.cfg = s.cfg) (h11 : t.disicnt = s.disicnt) (h12 : t.disicntStray = s.disicntStray)
    (h13 : t.mem = s.mem) : t.Inv := by
  constructor
  · exact h1
  · rw [h2]; exact h.spEven
  · rw [h3]; exact h.srBits
  · rw [h4]; exact h.corconBits
  · rw [h5]; exact h.intcon1Bits
  · rw [h6]; exact h.intcon2Bits
  · rw [h7, h10]; exact h.ifsBits
  · rw [h8, h10]; exact h.iecBits
  · rw [h9, h10]; exact h.ipcBits
  · unfold State.disiActive; rw [h6, h11]; exact h.disiCounts
  · unfold State.disiActive; rw [h6, h12]; exact h.strayOutside
  · rw [h13]; exact h.memWf

theorem inv_setTrapFlag {s : State} (t : Trap) (h : s.Inv) : (setTrapFlag t s).Inv := by
  constructor
  · exact h.pcEven
  · exact h.spEven
  · exact h.srBits
  · exact h.corconBits
  · rw [setTrapFlag_intcon1]
    apply and_withBit _ h.intcon1Bits
    cases t <;> decide
  · exact h.intcon2Bits
  · exact h.ifsBits
  · exact h.iecBits
  · exact h.ipcBits
  · exact h.disiCounts
  · exact h.strayOutside
  · exact h.memWf

theorem inv_withIntcon2 {s : State} {x : Word} {c : BitVec 14} {b : Bool} (h : s.Inv) (h1 : x &&& 0x3FE0#16 = 0#16)
    (h2 : x.getLsbD 14 = true → c ≠ 0#14) (h3 : b = true → x.getLsbD 14 = false) :
    State.Inv { s with intcon2 := x, disicnt := c, disicntStray := b } := by
  constructor
  · exact h.pcEven
  · exact h.spEven
  · exact h.srBits
  · exact h.corconBits
  · exact h.intcon1Bits
  · exact h1
  · exact h.ifsBits
  · exact h.iecBits
  · exact h.ipcBits
  · exact h2
  · exact h3
  · exact h.memWf

theorem inv_tick {s : State} (c : Nat) (h : s.Inv) : (tick c s).Inv := by
  unfold tick
  split
  · exact h
  · dsimp only
    split
    · rename_i h2
      refine inv_withIntcon2 (s := s) h (and_withBit (by decide) h.intcon2Bits) ?_ ?_
      · rw [getLsbD_withBit]; simp
      · intro _; rw [getLsbD_withBit]; simp
    · rename_i h2
      exact inv_withIntcon2 (s := s) h h.intcon2Bits (fun _ => h2) h.strayOutside

theorem inv_raiseHard {s t : State} {x : Trap} (h : s.Inv) (hr : raiseHard x s = .ok t) : t.Inv := by
  rw [(raiseHard_ok hr).1]; exact inv_setTrapFlag x h

theorem inv_raiseAddressIf {s t : State} {b : Bool} (h : s.Inv) (hr : raiseAddressIf b s = .ok t) : t.Inv := by
  rcases raiseAddressIf_ok hr with ⟨-, rfl⟩ | ⟨-, rfl, -⟩
  · exact h
  · exact inv_setTrapFlag _ h

theorem evenTarget_even (p : Pc) : evenPc (evenTarget p) = true := by
  unfold evenPc evenTarget
  rw [BitVec.getLsbD_and, show (0x7FFFFE#23).getLsbD 0 = false by decide, Bool.and_false]; rfl

theorem inv_setPc {s : State} {p : Pc} (h : s.Inv) (hp : evenPc p = true) : State.Inv { s with pc := p } :=
  inv_of_eq h hp rfl rfl rfl rfl rfl rfl rfl rfl rfl rfl rfl rfl

theorem inv_draws {s : State} {d : Nat} (h : s.Inv) : State.Inv { s with draws := d } :=
  inv_of_eq h h.pcEven rfl rfl rfl rfl rfl rfl rfl rfl rfl rfl rfl rfl

/-- The invariant does not look at the power mode, the acknowledgement counter, CF, the turns or the free values. -/
theorem inv_hidden {s : State} (m : CpuMode) (a : Nat) (c : Bool) (l : List Turn) (d : Nat) (h : s.Inv) :
    State.Inv { s with cpuMode := m, ackDefer := a, cf := c, schedule := l, draws := d } :=
  inv_of_eq h h.pcEven rfl rfl rfl rfl rfl rfl rfl rfl rfl rfl rfl rfl

theorem inv_jump {s t : State} {p : Pc} (h : s.Inv) (hj : jump p s = .ok t) : t.Inv := by
  rcases jump_ok hj with ⟨-, rfl⟩ | ⟨-, rfl⟩
  · exact inv_setPc h (evenTarget_even p)
  · exact inv_setTrapFlag _ (inv_setPc h (evenTarget_even p))

theorem inv_setW {s : State} {n : Fin 16} {v : Word} (h : s.Inv) (hn : n = 15 → v.getLsbD 0 = false) :
    State.Inv { s with w := s.w.set n v } := by
  constructor
  · exact h.pcEven
  · by_cases hn' : n = 15
    · subst hn'; simpa using hn rfl
    · have : n.val ≠ 15 := fun e => hn' (Fin.ext e)
      rw [Vector.getElem_set_ne _ _ this]
      exact h.spEven
  · exact h.srBits
  · exact h.corconBits
  · exact h.intcon1Bits
  · exact h.intcon2Bits
  · exact h.ifsBits
  · exact h.iecBits
  · exact h.ipcBits
  · exact h.disiCounts
  · exact h.strayOutside
  · exact h.memWf

theorem inv_setSp {s : State} {v : Word} (h : s.Inv) : (setSp v s).Inv := by
  have he : (v &&& 0xFFFE#16).getLsbD 0 = false := by
    rw [BitVec.getLsbD_and, show (0xFFFE#16).getLsbD 0 = false by decide, Bool.and_false]
  unfold setSp
  dsimp only
  split
  · exact inv_setTrapFlag .stackError (inv_setW (n := 15) h fun _ => he)
  · exact inv_setW (n := 15) h fun _ => he

theorem inv_limitCheck {s : State} {a : Word} (h : s.Inv) : (limitCheck a s).Inv := by
  unfold limitCheck
  split
  · exact inv_setTrapFlag .stackError h
  · exact h

theorem inv_setRamByte {s : State} {a : Word} {b : Byte} (h : s.Inv) : (setRamByte a b s).Inv := by
  constructor
  · exact h.pcEven
  · exact h.spEven
  · exact h.srBits
  · exact h.corconBits
  · exact h.intcon1Bits
  · exact h.intcon2Bits
  · exact h.ifsBits
  · exact h.iecBits
  · exact h.ipcBits
  · exact h.disiCounts
  · exact h.strayOutside
  · exact memory_wf_setRamByte a b s h.memWf

theorem bank_set {n : Nat} {b : Vector Word n} {m : Nat → Word} {k : Fin n} {v : Word}
    (h : ∀ i : Fin n, b[i] &&& m i.val = 0#16) (hv : v &&& m k.val = 0#16) (i : Fin n) :
    (b.set k v)[i] &&& m i.val = 0#16 := by
  by_cases hk : k.val = i.val
  · have : k = i := Fin.ext hk
    subst this
    simpa using hv
  · rw [Fin.getElem_fin, Vector.getElem_set_ne _ _ hk]
    exact h i

theorem inv_writeSfr {s : State} {r : Sfr} {b : Bool} {v : Word} (h : s.Inv) : (writeSfr r b v s).Inv := by
  have hs := h
  obtain ⟨h1, h2, h3, h4, h5, h6, h7, h8, h9, h10, h11, h12⟩ := h
  cases r with
  | w n =>
    show (writeW n v s).Inv
    unfold writeW
    split
    · exact inv_setSp hs
    · rename_i hn; exact inv_setW hs fun e => absurd e hn
  | splim => exact ⟨h1, h2, h3, h4, h5, h6, h7, h8, h9, h10, h11, h12⟩
  | sr =>
    refine ⟨h1, h2, ?_, h4, h5, h6, h7, h8, h9, h10, h11, h12⟩
    apply BitVec.eq_of_getLsbD_eq
    intro i hi
    have hi' := congrArg (BitVec.getLsbD · i) h3
    have : ∀ j : Fin 16, (0xFE10#16).getLsbD j.val = true → (0x010F#16).getLsbD j.val = false ∧
      (0x01EF#16).getLsbD j.val = false := by decide
    have := this ⟨i, hi⟩
    simp only [writeSfr, srWritten]
    split <;> simp only [BitVec.getLsbD_and, BitVec.getLsbD_or] at hi' ⊢ <;>
      cases hc : (0xFE10#16).getLsbD i <;> simp_all
  | corcon =>
    refine ⟨h1, h2, h3, ?_, h5, h6, h7, h8, h9, h10, h11, h12⟩
    apply BitVec.eq_of_getLsbD_eq
    intro i hi
    have : ∀ j : Fin 16, (0xFFF3#16).getLsbD j.val = true → (0x0004#16).getLsbD j.val = false ∧ (0x0008#16).getLsbD j.val = false := by decide
    have := this ⟨i, hi⟩
    simp only [writeSfr, corconWritten, BitVec.getLsbD_and, BitVec.getLsbD_or]
    cases hc : (0xFFF3#16).getLsbD i <;> simp_all
  | disicnt =>
    show (writeDisicnt v s).Inv
    unfold writeDisicnt
    dsimp only
    split
    · refine inv_withIntcon2 (s := s) hs (and_withBit (by decide) h6) ?_ ?_
      · rw [getLsbD_withBit]; simp
      · intro _; rw [getLsbD_withBit]; simp
    · rename_i hz
      split
      · exact inv_withIntcon2 (s := s) hs h6 (fun _ => hz) h11
      · rename_i ha
        have ha : s.intcon2.getLsbD 14 = false := by simpa [State.disiActive] using ha
        exact ⟨h1, h2, h3, h4, h5, h6, h7, h8, h9, fun _ => hz, fun _ => ha, h12⟩
  | rcon => exact ⟨h1, h2, h3, h4, h5, h6, h7, h8, h9, h10, h11, h12⟩
  | osccon => exact ⟨h1, h2, h3, h4, h5, h6, h7, h8, h9, h10, h11, h12⟩
  | intcon1 =>
    refine ⟨h1, h2, h3, h4, ?_, h6, h7, h8, h9, h10, h11, h12⟩
    show (v &&& 0x801E#16) &&& 0x7FE1#16 = 0#16
    rw [BitVec.and_assoc, show (0x801E#16 &&& 0x7FE1#16) = 0#16 by decide, BitVec.and_zero]
  | intcon2 =>
    have e14 : (intcon2Written s.intcon2 v).getLsbD 14 = s.intcon2.getLsbD 14 := by
      simp only [intcon2Written, BitVec.getLsbD_and, BitVec.getLsbD_or, show (0x801F#16).getLsbD 14 = false by decide,
        show (0x4000#16).getLsbD 14 = true by decide]
      simp
    refine ⟨h1, h2, h3, h4, h5, ?_, h7, h8, h9, ?_, ?_, h12⟩
    · show ((v &&& 0x801F#16) ||| (s.intcon2 &&& 0x4000#16)) &&& 0x3FE0#16 = 0#16
      apply BitVec.eq_of_getLsbD_eq
      intro i hi
      have : ∀ j : Fin 16, (0x3FE0#16).getLsbD j.val = true → (0x801F#16).getLsbD j.val = false ∧ (0x4000#16).getLsbD j.val = false := by decide
      have := this ⟨i, hi⟩
      simp only [BitVec.getLsbD_and, BitVec.getLsbD_or]
      cases hc : (0x3FE0#16).getLsbD i <;> simp_all
    · intro h; exact h10 (show s.intcon2.getLsbD 14 = true from e14.symm.trans h)
    · intro h; exact e14.trans (h11 h)
  | ifs n => exact ⟨h1, h2, h3, h4, h5, h6, bank_set (m := fun i => ~~~(flagMask s.cfg i)) h7 (and_not_of_and _ _), h8, h9, h10, h11, h12⟩
  | iec n => exact ⟨h1, h2, h3, h4, h5, h6, h7, bank_set (m := fun i => ~~~(flagMask s.cfg i)) h8 (and_not_of_and _ _), h9, h10, h11, h12⟩
  | ipc n => exact ⟨h1, h2, h3, h4, h5, h6, h7, h8, bank_set (m := fun i => ~~~(priMask s.cfg i)) h9 (and_not_of_and _ _), h10, h11, h12⟩

theorem inv_readSfr {s : State} {r : Sfr} (h : s.Inv) : (readSfr r s).2.Inv := by
  rw [readSfr_state]; exact inv_draws h

theorem inv_writeData {s : State} {w : Width} {a v : Word} (h : s.Inv) : (writeData w a v s).Inv := by
  unfold writeData
  split
  · split
    · exact inv_writeSfr h
    · exact inv_setRamByte (inv_setRamByte h)
  · split
    · exact inv_writeSfr (inv_readSfr h)
    · exact inv_setRamByte h

theorem inv_storeAt {s : State} {w : Width} {a v : Word} (h : s.Inv) : (storeAt w a v s).Inv := by
  unfold storeAt
  split
  · exact inv_writeData h
  · exact h

theorem inv_load {s t : State} {w : Width} {via bm bad : Bool} {a v : Word} (h : s.Inv)
    (hl : load w via bm a s = .ok (v, bad, t)) : t.Inv := by
  obtain ⟨-, s1, h1, h2, -⟩ := load_ok hl
  rw [h2]
  apply inv_draws
  have := inv_raiseAddressIf h h1
  split
  · exact inv_limitCheck this
  · exact this

theorem inv_store {s t : State} {w : Width} {via bm inh bad : Bool} {a v : Word} (h : s.Inv)
    (hs : store w via bm a v inh s = .ok (bad, t)) : t.Inv := by
  obtain ⟨-, s1, h1, h2⟩ := store_ok hs
  rw [h2]
  have h3 : (if via then limitCheck a s1 else s1).Inv := by
    split
    · exact inv_limitCheck (inv_raiseAddressIf h h1)
    · exact inv_raiseAddressIf h h1
  split
  · exact h3
  · exact inv_storeAt h3

theorem inv_pushWord {s : State} {b : Bool} {v : Word} (h : s.Inv) : (pushWord b v s).Inv := by
  unfold pushWord
  dsimp only
  have h1 : (if b then limitCheck s.sp s else storeAt .word s.sp v (limitCheck s.sp s)).Inv := by
    split
    · exact inv_limitCheck h
    · exact inv_storeAt (inv_limitCheck h)
  generalize (if b = true then limitCheck s.sp s else storeAt .word s.sp v (limitCheck s.sp s)) = u at h1 ⊢
  split
  · exact inv_setTrapFlag .stackError (inv_setSp h1)
  · exact inv_setSp h1

theorem inv_popWord {s t : State} {v : Word} {b : Bool} (h : s.Inv) (hp : popWord s = .ok (v, b, t)) : t.Inv :=
  inv_load (inv_setSp h) hp

theorem inv_popFrame {s t : State} {x y : Word} {b : Bool} (h : s.Inv) (hp : popFrame s = .ok (x, b, y, t)) : t.Inv := by
  obtain ⟨⟨v, b, u⟩, h1, hp⟩ := bind_ok hp
  obtain ⟨⟨v', b', u'⟩, h2, hp⟩ := bind_ok hp
  simp only [Except.ok.injEq, Prod.mk.injEq] at hp
  obtain ⟨-, -, -, rfl⟩ := hp
  exact inv_popWord (inv_popWord h h1) h2

theorem inv_deviceReset {s : State} (c : ResetCause) : (deviceReset c s).Inv := by
  constructor
  · show evenPc 0x000000#23 = true; decide
  · show ((Vector.ofFn _).set 15 0x0800#16)[15].getLsbD 0 = false
    rw [Vector.getElem_set_self]; decide
  · show 0x0000#16 &&& _ = _; decide
  · show 0x0000#16 &&& _ = _; decide
  · show 0x0000#16 &&& _ = _; decide
  · show 0x0000#16 &&& _ = _; decide
  · intro n; show (Vector.replicate 8 0x0000#16)[n] &&& _ = _; simp
  · intro n; show (Vector.replicate 8 0x0000#16)[n] &&& _ = _; simp
  · intro n; show (resetIpc s.cfg)[n] &&& _ = _
    simp only [resetIpc, Fin.getElem_fin, Vector.getElem_ofFn]
    exact and_not_of_and _ _
  · intro h; exact absurd h (by show ¬ (0x0000#16).getLsbD 14 = true; decide)
  · intro h; exact nomatch h
  · exact memory_wf_reset

theorem inv_restoreStatus {s : State} {x : Word} (h : s.Inv) : (restoreStatus x s).Inv := by
  obtain ⟨h1, h2, h3, h4, h5, h6, h7, h8, h9, h10, h11, h12⟩ := h
  refine ⟨h1, h2, ?_, ?_, h5, h6, h7, h8, h9, h10, h11, h12⟩
  · apply BitVec.eq_of_getLsbD_eq
    intro i hi
    have hi' := congrArg (BitVec.getLsbD · i) h3
    have : ∀ j : Fin 16, (0xFE10#16).getLsbD j.val = true → 8 ≤ j.val ∨ (0xEF#8).getLsbD j.val = false := by decide
    have := this ⟨i, hi⟩
    rw [restoreStatus_sr]
    simp only [BitVec.getLsbD_and, getLsbD_withSrl] at hi' ⊢
    cases hc : (0xFE10#16).getLsbD i
    · simp
    · rcases this hc with h8 | h8
      · simp only at h8
        rw [if_neg (by omega)]; rw [← hi', hc]
      · simp only at h8
        rw [h8]
        split
        · simp
        · rw [← hi', hc]
  · rw [restoreStatus_corcon]; exact and_withBit (by decide) h4

theorem inv_setEntryPri {s : State} {e : Exc} {l : BitVec 3} (h : s.Inv) : (setEntryPri e l s).Inv := by
  have h' : State.Inv { s with sr := withIpl s.sr l } := by
    obtain ⟨h1, h2, h3, h4, h5, h6, h7, h8, h9, h10, h11, h12⟩ := h
    refine ⟨h1, h2, ?_, h4, h5, h6, h7, h8, h9, h10, h11, h12⟩
    apply BitVec.eq_of_getLsbD_eq
    intro i hi
    have hi' := congrArg (BitVec.getLsbD · i) h3
    have : ∀ j : Fin 16, (0xFE10#16).getLsbD j.val = true → 8 ≤ j.val ∨ j.val < 5 := by decide
    have := this ⟨i, hi⟩
    simp only [BitVec.getLsbD_and, getLsbD_withIpl] at hi' ⊢
    cases hc : (0xFE10#16).getLsbD i
    · simp
    · have := this hc
      simp only at this
      rw [if_neg (by omega)]; rw [← hi', hc]
  cases e with
  | int v => exact h'
  | trap t =>
    obtain ⟨h1, h2, h3, h4, h5, h6, h7, h8, h9, h10, h11, h12⟩ := h'
    exact ⟨h1, h2, h3, and_withBit (by decide) h4, h5, h6, h7, h8, h9, h10, h11, h12⟩

theorem inv_enter {s t : State} {e : Exc} (h : s.Inv) (he : enter e s = .ok t) : t.Inv := by
  unfold enter at he
  obtain ⟨vec, -, he⟩ := bind_ok he
  split at he
  · exact nomatch he
  · obtain ⟨u, hj, he⟩ := bind_ok he
    injection he with he
    subst he
    have hu := inv_jump (inv_setEntryPri (inv_pushWord (inv_pushWord h))) hj
    exact inv_tick 4 (inv_of_eq hu hu.pcEven rfl rfl rfl rfl rfl rfl rfl rfl rfl rfl rfl rfl)

theorem inv_setIntFlag {s : State} {v : Nat} (h : s.Inv) : (setIntFlag s v).Inv := by
  unfold setIntFlag
  split
  · split
    · rename_i hv hi
      obtain ⟨h1, h2, h3, h4, h5, h6, h7, h8, h9, h10, h11, h12⟩ := h
      have hm : (~~~(flagMask s.cfg (v / 16))).getLsbD (v % 16) = false := by
        have hlt : v % 16 < 16 := Nat.mod_lt _ (by decide)
        rw [BitVec.getLsbD_not, flagMask, getLsbD_maskOf]
        have : 16 * (v / 16) + v % 16 = v := Nat.div_add_mod v 16
        simp [hlt, this, hi]
      have h8' : v / 16 < 8 := by omega
      exact ⟨h1, h2, h3, h4, h5, h6, bank_set (m := fun i => ~~~(flagMask s.cfg i)) (k := ⟨v / 16, h8'⟩) h7
        (and_withBit hm (h7 ⟨v / 16, h8'⟩)), h8, h9, h10, h11, h12⟩
    · exact h
  · exact h

end Sys2Proof.Machine
end

