-- ==== Sys2Proof/Laws/PerInstr.lean ====
section
/-! SUPPORT. Per instruction: the first word of its encoding belongs to its row of the table (spec/30_encoding.md R113). -/

namespace Sys2Proof.Laws.FitsRow

/-- The first encoded word of a well-formed instruction fits the row of its constructor. -/
def Statement (i : Instr) : Prop :=
  i.wellFormed = true → ∃ w rest, encode i = w :: rest ∧ i.row.fits w = true

/-- A word with a fixed high byte fits a row that fixes the high byte alone. -/
theorem highByte (name : String) (c : BitVec 8) (x : Word) :
    (⟨name, 0xFF#8 ++ 0#16, c ++ 0#16⟩ : Row).fits (c ++ x) = true := by
  rw [fits_iff]
  intro i
  simp only [BitVec.getLsbD_append]
  by_cases h : i.val < 16
  · simp [h]
  · have hc : ∀ j : Nat, j < 8 → (0xFF#8).getLsbD j = true := by decide
    have : i.val - 16 < 8 := by omega
    simp only [h, hc _ this]
    simp

theorem nop : Statement .nop := fun _ => ⟨_, _, rfl, by decide⟩
theorem goto (target : Pc) : Statement (.goto target) := by
  intro _
  refine ⟨_, _, rfl, ?_⟩
  rw [fits_iff]
  intro i
  have key : ∀ j : Fin 24, (0xFF0001#24).getLsbD j.val = (decide (16 ≤ j.val) || decide (j.val = 0)) ∧
      (0x040000#24).getLsbD j.val = decide (j.val = 18) := by decide
  have key8 : ∀ j : Fin 8, (0x04#8).getLsbD j.val = decide (j.val = 2) := by decide
  obtain ⟨k1, k2⟩ := key i
  simp only [Instr.row, rowGoto, k1, k2, BitVec.getLsbD_append]
  by_cases h0 : i.val = 0
  · simp [h0]
  · by_cases h : i.val < 16
    · have h15 : i.val - 1 < 15 := by omega
      have h16 : ¬ 16 ≤ i.val := by omega
      have h18 : ¬ i.val = 18 := by omega
      simp [h0, h16, h18]
    · have h15 : ¬ i.val - 1 < 15 := by omega
      have h1 : ¬ i.val < 1 := by omega
      have h16 : 16 ≤ i.val := by omega
      have h8 := key8 ⟨i.val - 1 - 15, by omega⟩
      simp only at h8
      have e : (i.val - 1 - 15 = 2) = (i.val = 18) := by apply propext; omega
      simp [h1, h15, h16, h8, e]
theorem gotoWord2 (high : BitVec 7) : Statement (.gotoWord2 high) := by
  intro _
  refine ⟨_, _, rfl, ?_⟩
  rw [fits_iff]
  intro i
  have key : ∀ j : Fin 24, (0xFFFF80#24).getLsbD j.val = decide (7 ≤ j.val) := by decide
  simp only [Instr.row, rowGotoWord2, key i, BitVec.getLsbD_append]
  by_cases h : i.val < 7
  · have : ¬ 7 ≤ i.val := by omega
    simp [this]
  · simp [h]
theorem ret : Statement .ret := fun _ => ⟨_, _, rfl, by decide⟩
theorem retfie : Statement .retfie := fun _ => ⟨_, _, rfl, by decide⟩
theorem bra (slit16 : Word) : Statement (.bra slit16) := fun _ => ⟨_, _, rfl, highByte _ _ _⟩

/-- A word with a fixed high byte and an even low word fits a row that fixes the high byte and bit 0. -/
theorem highByteEven (name : String) (c : BitVec 8) (x : Word) (h : evenAddr x = true) :
    (⟨name, 0xFF#8 ++ 1#16, c ++ 0#16⟩ : Row).fits (c ++ x) = true := by
  have hx : x.getLsbD 0 = false := by simpa [evenAddr] using h
  rw [fits_iff]
  intro i
  simp only [BitVec.getLsbD_append]
  by_cases h : i.val < 16
  · by_cases h0 : i.val = 0
    · rw [h0]; simp only [hx]; rfl
    · simp [h, h0]
  · have hc : ∀ j : Nat, j < 8 → (0xFF#8).getLsbD j = true := by decide
    have : i.val - 16 < 8 := by omega
    simp only [h, hc _ this]
    simp

theorem push (f : Word) : Statement (.push f) := fun h => ⟨_, _, rfl, highByteEven _ _ _ h⟩
theorem pop (f : Word) : Statement (.pop f) := fun h => ⟨_, _, rfl, highByteEven _ _ _ h⟩
theorem disi (lit14 : BitVec 14) : Statement (.disi lit14) := by
  intro _
  refine ⟨_, _, rfl, ?_⟩
  rw [fits_iff]
  intro i
  have key : ∀ j : Fin 24, (0xFFC000#24).getLsbD j.val = decide (14 ≤ j.val) := by decide
  have hi : ∀ j : Fin 24, 14 ≤ j.val → (0x3F0#10).getLsbD (j.val - 14) = (0xFC0000#24).getLsbD j.val := by decide
  have lo : ∀ j : Fin 24, ¬ 14 ≤ j.val → (0xFC0000#24).getLsbD j.val = false := by decide
  simp only [Instr.row, rowDisi, key i, BitVec.getLsbD_append]
  by_cases h : i.val < 14
  · have h' : ¬ 14 ≤ i.val := by omega
    simp only [lo i h', h', decide_false, Bool.and_false]
  · have h' : 14 ≤ i.val := by omega
    simp only [h, h', hi i h', decide_true, if_false, Bool.and_true]
theorem reset : Statement .reset := fun _ => ⟨_, _, rfl, by decide⟩
theorem pwrsav (mode : LowPower) : Statement (.pwrsav mode) := by
  intro _
  cases mode <;> exact ⟨_, _, rfl, by decide⟩

end Sys2Proof.Laws.FitsRow
end

