-- ==== Sys2Proof/Laws/Runs.lean ====
section
/-! SUPPORT. What the shared operations do in the ordinary case: conditions on the state under which each runs to its end,
and what it then leaves. -/

namespace Sys2Proof.Machine

/-! ### Traps and jumps -/

/-- An address error that can pend sets its flag (R197). -/
theorem raiseHard_pends {s : State} (h : addressErrorPends s) : raiseHard .addressError s = .ok { s with intcon1 := withBit s.intcon1 3 true } := by
  obtain ⟨h1, h2⟩ := h
  have hc : trapConflict .addressError s = false := by
    unfold trapConflict
    have hh : ¬ (13#4 < s.cpuPri) := by intro h; exact absurd (BitVec.lt_trans h2 h) (BitVec.lt_irrefl _)
    simp [allTraps, trapLevel, h1, hh]
  have hn : s.cpuPri ≠ 13#4 := by intro h; rw [h] at h2; exact absurd h2 (by decide)
  simp [raiseHard, hc, trapLevel, hn, setTrapFlag, trapBit]
/-- A jump to an unimplemented address, its address error pending (R89). -/
theorem jump_unimplemented {s : State} {p : Pc} (h : addressErrorPends s) (he : evenPc p = true) (hp : progImpl s p = false) :
    jump p s = .ok { s with pc := p, intcon1 := withBit s.intcon1 3 true } := by
  have e := evenTarget_of_even he
  have h' : addressErrorPends { s with pc := p } := h
  have hp' : progImpl { s with pc := p } p = false := hp
  unfold jump
  simp only [show p &&& 0x7FFFFE#23 = p from e]
  rw [hp']
  exact raiseHard_pends h'

/-- The step to the next program word (R89). -/
theorem advance_of_next {s : State} (h : nextImplemented s) : advance s = .ok { s with pc := s.pc + 2#23 } := by
  obtain ⟨h1, h2, h3⟩ := h
  have e : evenTarget (s.pc + 2#23) = s.pc + 2#23 := by
    apply evenTarget_of_even
    simp only [evenPc, Bool.not_eq_true', BitVec.getLsbD] at h2 ⊢
    rw [Nat.testBit_zero] at h2 ⊢
    rw [BitVec.toNat_add]
    have : (2#23).toNat = 2 := rfl
    simp at h2 ⊢
    omega
  unfold advance
  have : seqPc s.pc = s.pc + 2#23 := by simp [seqPc, h1]
  rw [this, jump_implemented (by rw [e]; exact h3), e]


/-! ### The stack -/

/-- An access within SPLIM raises nothing (R90). -/
theorem limitCheck_ok {s : State} {a : Word} (hl : withinLimit s a) : limitCheck a s = s := by
    unfold limitCheck
    rw [if_neg]
    unfold withinLimit at hl
    intro hh
    simp only [Bool.and_eq_true, decide_eq_true_eq] at hh
    exact absurd (hl hh.1) (by simpa using hh.2)

/-- A word access at an even address is aligned (R87). -/
theorem misaligned_even {f : Word} (hf : f.getLsbD 0 = false) (b : Bool) (w : Width) : misaligned w b f = false := by
  unfold misaligned; rw [hf]; rfl

/-- Reading a word that was written, through W15: the value, and the SPLIM check. -/
theorem load_held {s : State} {a v : Word} (h : holdsWord s a v) :
    load .word true false a s = .ok (v, false, limitCheck a s) := by
  obtain ⟨⟨he, hd, hs⟩, h1, h2⟩ := h
  have hr : ramWord a (limitCheck a s) = .ok v := by
    simp [ramWord, ramByte, h1, nextByte_toNat a he, h2]
  simp [load, misaligned_even he, hd, readData, hs, hr]

/-- The same within SPLIM. -/
theorem load_holds {s : State} {a v : Word} (h : holdsWord s a v) (hl : withinLimit s a) :
    load .word true false a s = .ok (v, false, s) := by
  rw [load_held h, limitCheck_ok hl]

/-- W15 set to an even address above the floor. -/
theorem setSp_ok {s : State} {v : Word} (he : v.getLsbD 0 = false) (h : 0x0800 ≤ v.toNat) :
    setSp v s = { s with w := s.w.set 15 v } := by
  have h1 := and_even_of_even he
  have h2 : ¬ (v < 0x0800#16) := by
    rw [BitVec.lt_def]; simp; omega
  simp [setSp, h1, h2]

/-- W15 as it was set. -/
theorem setSp_sp_even {s : State} {v : Word} (he : v.getLsbD 0 = false) : State.sp { s with w := s.w.set 15 v } = v := by
  simp [State.sp]
  exact and_even_of_even he

/-- A pop of a word that was pushed (R90). -/
theorem popWord_ok {s : State} {v : Word} (h0 : 0x0802 ≤ s.sp.toNat) (h : holdsWord s (s.sp - 2#16) v)
    (hl : withinLimit s (s.sp - 2#16)) : popWord s = .ok (v, false, { s with w := s.w.set 15 (s.sp - 2#16) }) := by
  have he := even_sub_two (sp_even s)
  have hn : 0x0800 ≤ (s.sp - 2#16).toNat := by
    rw [BitVec.toNat_sub]; have : (2#16).toNat = 2 := rfl; have := s.sp.isLt; omega
  unfold popWord
  rw [setSp_ok he hn]
  dsimp only
  have hsp : State.sp { s with w := s.w.set 15 (s.sp - 2#16) } = s.sp - 2#16 := by
    simp [State.sp]
    exact and_even_of_even he
  rw [hsp]
  exact load_holds (s := { s with w := s.w.set 15 (s.sp - 2#16) }) h hl

/-- The flag of the stack error, raised. -/
theorem raiseStack_eq (s : State) : raiseStack s = { s with intcon1 := withBit s.intcon1 2 true } := rfl

/-- A flag raised twice. -/
@[simp] theorem withBit_twice (w : Word) (n : Nat) : withBit (withBit w n true) n true = withBit w n true := by
  simp [withBit, BitVec.or_assoc]

/-- A pop of a word from below the floor or above SPLIM reads it and sets STKERR (R90). -/
theorem popWord_raises {s : State} {v : Word} (h : holdsWord s (s.sp - 2#16) v) (hr : popRaises s (s.sp - 2#16)) :
    popWord s = .ok (v, false,
      { s with w := s.w.set 15 (s.sp - 2#16), intcon1 := withBit s.intcon1 2 true }) := by
  have he := even_sub_two (sp_even s)
  have ha := and_even_of_even he
  unfold popWord setSp
  dsimp only
  rw [ha]
  split
  · have hsp : State.sp (raiseStack { s with w := s.w.set 15 (s.sp - 2#16) }) = s.sp - 2#16 := by
      simp [State.sp, raiseStack_eq]; exact ha
    rw [hsp, load_held (s := raiseStack { s with w := s.w.set 15 (s.sp - 2#16) }) h]
    unfold limitCheck
    split <;> simp [raiseStack_eq]
  · rename_i hn
    have hsp : State.sp { s with w := s.w.set 15 (s.sp - 2#16) } = s.sp - 2#16 := by simp [State.sp]; exact ha
    have hc : s.splimEnabled = true ∧ s.splim < s.sp - 2#16 := by
      rcases hr with hr | hr
      · exact absurd hr hn
      · unfold withinLimit at hr
        rw [Classical.not_imp, BitVec.not_le] at hr
        exact hr
    rw [hsp, load_held (s := { s with w := s.w.set 15 (s.sp - 2#16) }) h]
    unfold limitCheck
    rw [if_pos (by simpa using hc)]
    rfl

/-- A pop of a frame (R131, R154). -/
theorem popFrame_ok {s : State} {high low : Word} (h0 : 0x0804 ≤ s.sp.toNat) (h : holdsWord s (s.sp - 2#16) high)
    (h' : holdsWord s (s.sp - 4#16) low) (hl : withinLimit s (s.sp - 2#16)) :
    popFrame s = .ok (high, false, low, { s with w := s.w.set 15 (s.sp - 4#16) }) := by
  have he := even_sub_two (sp_even s)
  have hsp : State.sp { s with w := s.w.set 15 (s.sp - 2#16) } = s.sp - 2#16 := by
    simp [State.sp]
    exact and_even_of_even he
  have hn : (s.sp - 2#16).toNat = s.sp.toNat - 2 := by
    rw [BitVec.toNat_sub]; have : (2#16).toNat = 2 := rfl; have := s.sp.isLt; omega
  have hn4 : (s.sp - 4#16).toNat = s.sp.toNat - 4 := by
    rw [BitVec.toNat_sub]; have : (4#16).toNat = 4 := rfl; have := s.sp.isLt; omega
  have h24 : s.sp - 2#16 - 2#16 = s.sp - 4#16 := by
    rw [BitVec.sub_sub]; rfl
  unfold popFrame
  rw [popWord_ok (by omega) h hl]
  simp only [ok_bind]
  have hl2 : withinLimit s (s.sp - 4#16) := by
    intro hh
    have := hl hh
    rw [BitVec.le_def] at *
    omega
  have := popWord_ok (s := { s with w := s.w.set 15 (s.sp - 2#16) }) (v := low) (by rw [hsp]; omega) (by rw [hsp, h24]; exact h') (by rw [hsp, h24]; exact hl2)
  rw [this, hsp, h24]
  simp

/-- A push above the floor, on memory (R90). -/
theorem pushWord_ok {s : State} {v : Word} (h0 : 0x0800 ≤ s.sp.toNat) (h1 : s.sp.toNat + 2 < 0x10000)
    (hp : plainWord s s.sp) : pushWord false v s =
      { limitCheck s.sp s with mem := (setRamWord s.sp v s).mem, w := s.w.set 15 (s.sp + 2#16) } := by
  have he := even_add_two (sp_even s)
  have hn : (s.sp + 2#16).toNat = s.sp.toNat + 2 := by
    rw [BitVec.toNat_add]; have : (2#16).toNat = 2 := rfl; omega
  have hst : ∀ u : State, dataImpl u s.sp = true → sfrAt u.cfg s.sp = none → storeAt .word s.sp v u = setRamWord s.sp v u := by
    intro u h1 h2
    simp [storeAt, h1, writeData, h2]
  obtain ⟨-, hd, hs⟩ := hp
  unfold pushWord
  dsimp only
  have hlc : dataImpl (limitCheck s.sp s) s.sp = true ∧ sfrAt (limitCheck s.sp s).cfg s.sp = none := by
    unfold dataImpl; rw [limitCheck_cfg]; exact ⟨hd, hs⟩
  simp only [Bool.false_eq_true, if_false]
  rw [hst _ hlc.1 hlc.2]
  have hsp : (setRamWord s.sp v (limitCheck s.sp s)).sp = s.sp := by
    simp [State.sp, setRamWord, setRamByte]
  rw [hsp, setSp_ok he (by omega)]
  rw [if_neg (by simp; omega)]
  simp [setRamWord, setRamByte]

/-- A return address is even (R21). -/
theorem framePc_even (h l : Word) : evenPc (framePc h l) = true := by
  unfold framePc evenPc; rw [BitVec.getLsbD_append]; rfl

/-- IPL<2:0> of a status word restored from a frame. -/
theorem withSrl_ipl (high w : Word) : (withSrl w (high.extractLsb' 8 8)).extractLsb' 5 3 = high.extractLsb' 13 3 := by
  apply BitVec.eq_of_getLsbD_eq
  intro i hi
  have : 5 + i < 8 := by omega
  simp [getLsbD_withSrl, hi, this]
  rw [show 8 + (5 + i) = 13 + i by omega]

/-- A return from an exception whose frame does not have the bit of RA set (R26, R131). -/
theorem returnFromException_of_frame {s u : State} {high low : Word} (hp : popFrame s = .ok (high, false, low, u))
    (hr : high.getLsbD 12 = false) :
    returnFromException s = jump (framePc high low) (restoreStatus high u) := by
  unfold returnFromException
  simp only [hp, ok_bind, hr, Bool.false_and, Bool.false_eq_true, if_false]

/-- A frame with that bit set is refused (R26, D24, U18). -/
theorem returnFromException_ra {s u : State} {high low : Word} (hp : popFrame s = .ok (high, false, low, u))
    (hr : high.getLsbD 12 = true) : returnFromException s = .error (.refused .repeatActive) := by
  unfold returnFromException
  simp only [hp, ok_bind, hr, Bool.not_false, Bool.and_self, if_true]

/-! ### Fetching -/

/-- A word of no row decodes to nothing, whatever follows it. -/
theorem decode_unknown {w : ProgWord} (hf : ∀ r ∈ firstRows, r.fits w = false) (ws : List ProgWord) :
    decode .first (w :: ws) =
      .error (if isTwoWord w = true ∧ ws = [] then .missingWord else .unknownWord w) := by
  cases ht : isTwoWord w with
  | false =>
    simp [decode, ht, decodeOne, hf rowNop (by decide), hf rowReturn (by decide), hf rowRetfie (by decide),
      hf rowBra (by decide), hf rowPush (by decide), hf rowPop (by decide), hf rowDisi (by decide),
      hf rowReset (by decide), hf rowPwrsav (by decide)]
    rfl
  | true =>
    cases ws with
    | nil => simp [decode, ht]
    | cons w2 rest => simp [decode, ht, decodeTwo, hf rowGoto (by decide)]; rfl

/-- A word of no row is looked up among the declared effects, whatever follows it (R115). -/
theorem fetch_unknown {u : State} {w : ProgWord} (hp : progImpl u u.pc = true) (hw : cellGet u.prog u.pc.toNat = some w)
    (hf : inNoRow w = true) : fetch u = declaredOr (.refused (.unknownInstruction u.pc.toNat)) u := by
  unfold fetch
  rw [if_pos hp, hw]
  simp only [hf, if_true]

/-- A word that starts an instruction is in a row. -/
theorem inNoRow_of_decode {w : ProgWord} {ws rest : List ProgWord} {i : Instr}
    (h : decode .first (w :: ws) = .ok (i, rest)) : inNoRow w = false := by
  cases hn : inNoRow w with
  | false => rfl
  | true =>
    rw [decode_unknown ((inNoRow_iff w).mp hn)] at h
    exact nomatch h

/-- The words of a table instruction at pc are fetched as that instruction. -/
theorem fetch_instr {u : State} {i : Instr} (h : decodesAtPc u i) : fetch u = .ok (.instr i) := by
  obtain ⟨h5, w, h6, h7⟩ := h
  unfold fetch fetchRest
  rw [if_pos h5, h6]
  rcases h7 with ⟨h7, h8⟩ | ⟨h7, h8, w2, h9, h10⟩
  · simp [inNoRow_of_decode h8, h7, h8]
  · simp [inNoRow_of_decode h10, h7, h8, h9, h10]

/-- A `GOTO` word 1 before a word that is no `GOTO` word 2 is looked up among the declared effects too (R115). -/
theorem fetch_badSecondWord {u : State} {w w2 : ProgWord} (hp : progImpl u u.pc = true)
    (hw : cellGet u.prog u.pc.toNat = some w) (hg : rowGoto.fits w = true) (h2 : progImpl u (seqPc u.pc) = true)
    (hw2 : cellGet u.prog (seqPc u.pc).toNat = some w2) (hb : rowGotoWord2.fits w2 = false) :
    fetch u = declaredOr (.refused (.unknownInstruction u.pc.toNat)) u := by
  unfold fetch fetchRest
  rw [if_pos hp, hw]
  simp [inNoRow_of_fits (r := rowGoto) (by decide) hg, twoWords_of_goto hg, h2, hw2, decode, decodeTwo, hg, decodeAfterGoto, hb, Except.map, fetchError]

/-- A `GOTO` whose second word would stand at an unimplemented address (R89, R112; log entry 18). -/
theorem fetch_secondWordUnimplemented {u : State} {w : ProgWord} (hp : progImpl u u.pc = true)
    (hw : cellGet u.prog u.pc.toNat = some w) (hg : rowGoto.fits w = true) (h2 : progImpl u (seqPc u.pc) = false) :
    fetch u = fetchUnimplemented (seqPc u.pc) u := by
  unfold fetch fetchRest
  rw [if_pos hp, hw]
  simp only [inNoRow_of_fits (r := rowGoto) (by decide) hg, twoWords_of_goto hg, if_true, h2, Bool.false_eq_true, if_false]
  unfold fetchUnimplemented
  cases raiseHard .addressError { u with pc := seqPc u.pc } <;> rfl

/-- A `GOTO` whose second word is not programmed (U10). -/
theorem fetch_secondWordUnprogrammed {u : State} {w : ProgWord} (hp : progImpl u u.pc = true)
    (hw : cellGet u.prog u.pc.toNat = some w) (hg : rowGoto.fits w = true) (h2 : progImpl u (seqPc u.pc) = true)
    (hw2 : cellGet u.prog (seqPc u.pc).toNat = none) :
    fetch u = declaredOr (.fault (.unprogrammed (seqPc u.pc).toNat)) u := by
  unfold fetch fetchRest
  rw [if_pos hp, hw]
  simp [inNoRow_of_fits (r := rowGoto) (by decide) hg, twoWords_of_goto hg, h2, hw2, decode, fetchError]

/-- A step on the CPU's turn is the CPU's (R10, R223). -/
theorem step_of_cpuTurn {s t : State} (h : cpuTurn s t) : step s = cpuStep t := by
  rcases h with ⟨hs, rfl⟩ | ⟨rest, hs, rfl⟩ <;> simp [step, turnStep, hs]

/-! ### The end of a run -/

/-- What `runEnded` says. -/
theorem runEnded_iff (s : State) : runEnded s = true ↔ s.cpuMode = .run ∧ progImpl s s.pc = true ∧
    cellGet s.prog s.pc.toNat = some 0x37FFFF#24 ∧ s.disiActive = false ∧ select s = none := by
  simp only [runEnded, Bool.and_eq_true, beq_iff_eq, Bool.not_eq_true', Option.isNone_iff_eq_none, and_assoc]

/-- With no window open `Tick` counts DISICNT alone (R133). -/
theorem tick_noWindow {s : State} (c : Nat) (h : s.disiActive = false) : ∃ n, tick c s = { s with disicnt := n } := by
  have e : withBit s.intcon2 14 false = s.intcon2 := by
    apply BitVec.eq_of_getLsbD_eq
    intro i hi
    rw [getLsbD_withBit]
    split
    · rename_i hc; rw [hc.1]; exact h.symm
    · rfl
  unfold tick
  split
  · exact ⟨_, rfl⟩
  · dsimp only
    split
    · exact ⟨_, by simp only [State.setDisi]; rw [e]⟩
    · exact ⟨_, rfl⟩

/-- A branch to itself (R114 (b)). -/
theorem branchTarget_self (p : Pc) : branchTarget p 0xFFFF#16 = p := by
  unfold branchTarget
  rw [show 2#23 * (0xFFFF#16).signExtend 23 = -2#23 by decide, BitVec.add_assoc, show (2#23 + -2#23 : Pc) = 0#23 by decide,
    BitVec.add_zero]

/-- From the end of a run a step of the CPU leaves the run at its end: pc stays, and nothing changes but the turn, the
acknowledgement counter and a DISICNT that opens no window (R223). -/
theorem runEnded_step {s t : State} (ht : cpuTurn s t) (he : evenPc s.pc = true) (h : runEnded s = true) :
    ∃ n, step s = .next { t with ackDefer := 0, disicnt := n } ∧
      runEnded { t with ackDefer := 0, disicnt := n } = true := by
  obtain ⟨h1, h2, h3, h4, h5⟩ := (runEnded_iff s).mp h
  have key : ∀ u : State, u.cpuMode = .run → progImpl u u.pc = true → cellGet u.prog u.pc.toNat = some 0x37FFFF#24 →
      u.disiActive = false → select u = none → evenPc u.pc = true →
      ∃ n, cpuStep u = .next { u with ackDefer := 0, disicnt := n } ∧
        runEnded { u with ackDefer := 0, disicnt := n } = true := by
    intro u h1 h2 h3 h4 h5 he
    have hf : fetch { u with ackDefer := 0 } = .ok (.instr (.bra 0xFFFF#16)) :=
      fetch_instr (u := { u with ackDefer := 0 }) ⟨h2, _, h3, .inl ⟨by decide, by rfl⟩⟩
    obtain ⟨n, hn⟩ := tick_noWindow (s := { u with ackDefer := 0 }) u.cfg.cycles.bra h4
    refine ⟨n, ?_, (runEnded_iff _).mpr ⟨h1, h2, h3, h4, h5⟩⟩
    have hj : jump u.pc { u with ackDefer := 0 } = .ok { u with ackDefer := 0 } := by
      have e := evenTarget_of_even he
      rw [jump_implemented (s := { u with ackDefer := 0 }) (by rw [e]; exact h2), e]
    have hx : exec (.bra 0xFFFF#16) { u with ackDefer := 0 } = .next { u with ackDefer := 0, disicnt := n } := by
      show finish ((jump (branchTarget u.pc 0xFFFF#16) { u with ackDefer := 0 }).map (tick u.cfg.cycles.bra)) = _
      rw [branchTarget_self, hj, map_ok, hn]
      rfl
    have hc : cpuStep u = executeNext { u with ackDefer := 0 } := by unfold cpuStep awakeStep; rw [h1, h5]
    rw [hc]
    unfold executeNext
    rw [hf]
    exact hx
  rw [step_of_cpuTurn ht]
  rcases ht with ⟨-, rfl⟩ | ⟨rest, -, rfl⟩
  · exact key _ h1 h2 h3 h4 h5 he
  · exact key { s with schedule := rest } h1 h2 h3 h4 h5 he

end Sys2Proof.Machine
end

