-- ==== Sys2Proof/Laws/Select.lean ====
section
/-! SUPPORT. What the arbitration among interrupts finds (spec/60_exceptions.md R189). -/

namespace Sys2Proof.Machine

/-- What makes an interrupt eligible, as a proposition (R189). -/
def EligibleInt (s : State) (v : Nat) : Prop := intFlag s v = true ∧ intEnable s v = true ∧
      s.cpuPri < (intPri s v).setWidth 4 ∧ ¬ (s.disiActive = true ∧ intPri s v ≤ 6#3)

/-- The test is the proposition. -/
theorem eligibleInt_iff (s : State) (v : Nat) : eligibleInt s v = true ↔ EligibleInt s v := by
  unfold eligibleInt intReq EligibleInt
  simp only [Bool.and_eq_true, decide_eq_true_eq, Bool.not_eq_true', Bool.and_eq_false_iff, decide_eq_false_iff_not, not_and]
  constructor
  · rintro ⟨⟨⟨a, b⟩, c⟩, d⟩
    refine ⟨a, b, c, fun h => ?_⟩
    rcases d with d | d
    · rw [h] at d; exact nomatch d
    · exact d
  · rintro ⟨a, b, c, d⟩
    refine ⟨⟨⟨a, b⟩, c⟩, ?_⟩
    cases h : s.disiActive
    · exact .inl rfl
    · exact .inr (d h)

/-- The best eligible interrupt among the vectors below `n`: the greatest priority, the smallest vector of that priority. -/
def BestBelow (s : State) (n : Nat) : Option Nat → Prop
  | none => ∀ v < n, ¬ EligibleInt s v
  | some b => b < n ∧ EligibleInt s b ∧ ∀ u < n, EligibleInt s u → intPri s u < intPri s b ∨ (intPri s u = intPri s b ∧ b ≤ u)

/-- The arbitration over the vectors below `n` finds the best of them. -/
theorem bestBelow_fold (s : State) (n : Nat) : BestBelow s n ((List.range n).foldl (betterInt s) none) := by
  induction n with
  | zero => intro v hv; omega
  | succ n ih =>
    rw [List.range_succ, List.foldl_append]
    simp only [List.foldl_cons, List.foldl_nil]
    generalize (List.range n).foldl (betterInt s) none = r at ih
    unfold betterInt
    split
    · rename_i he
      have he := (eligibleInt_iff s n).1 he
      cases r with
      | none =>
        refine ⟨by omega, he, fun u hu hel => ?_⟩
        by_cases h : u = n
        · subst h; exact .inr ⟨rfl, by omega⟩
        · exact absurd hel (ih u (by omega))
      | some b =>
        obtain ⟨h1, h2, h3⟩ := ih
        dsimp only
        split
        · rename_i hlt
          refine ⟨by omega, he, fun u hu hel => ?_⟩
          by_cases h : u = n
          · subst h; exact .inr ⟨rfl, by omega⟩
          · rcases h3 u (by omega) hel with h | ⟨h, -⟩
            · exact .inl (BitVec.lt_trans h hlt)
            · exact .inl (h ▸ hlt)
        · rename_i hlt
          refine ⟨by omega, h2, fun u hu hel => ?_⟩
          by_cases h : u = n
          · subst h
            rw [BitVec.lt_def] at *
            by_cases e : intPri s u = intPri s b
            · exact .inr ⟨e, by omega⟩
            · left
              have : (intPri s u).toNat ≠ (intPri s b).toNat := fun h => e (BitVec.toNat_inj.1 h)
              omega
          · exact h3 u (by omega) hel
    · rename_i he
      have he : ¬ EligibleInt s n := fun h => he ((eligibleInt_iff s n).2 h)
      cases r with
      | none =>
        intro v hv hel
        by_cases h : v = n
        · subst h; exact he hel
        · exact ih v (by omega) hel
      | some b =>
        obtain ⟨h1, h2, h3⟩ := ih
        refine ⟨by omega, h2, fun u hu hel => ?_⟩
        by_cases h : u = n
        · subst h; exact absurd hel he
        · exact h3 u (by omega) hel

/-- Only a vector of the table is eligible. -/
theorem eligibleInt_lt {s : State} {v : Nat} (h : EligibleInt s v) : v < 118 := by
  by_contra hv
  have := h.1
  simp [intFlag, implemented, hv] at this

/-- What `selectInt` answers. -/
theorem selectInt_best (s : State) : BestBelow s 118 (selectInt s) := bestBelow_fold s 118

end Sys2Proof.Machine
end

