-- ==== Sys2Proof/Tests/Slice0.lean ====
section
/-! SUPPORT. Small tests: ill-formed terms, words written out from the encodings, single steps whose results stand in
spec/95_test_vectors.md (each named in its comment), and for each statement a state that meets its hypotheses. -/

namespace Sys2Proof.Tests

open Sys2Proof Sys2Proof.Machine

/-! ### Helpers -/

/-- The outcome is a next state with the property. -/
def next (o : Host.Outcome State Fault Refusal) (p : State → Bool) : Bool :=
  match o with
  | .next s => p s
  | _ => false

/-- The outcome is this refusal. -/
def refusedAs (o : Host.Outcome State Fault Refusal) (r : Refusal) : Bool :=
  match o with
  | .refused q => q == r
  | _ => false

/-- The operation runs to its end in a state with the property. -/
def done (a : Act State) (p : State → Bool) : Bool :=
  match a with
  | .ok s => p s
  | _ => false

/-- The word of data memory at an address, if it was written. -/
def wordAt (s : State) (a : Word) : Option Word :=
  match ramWord a s with
  | .ok v => some v
  | _ => none

/-- The reset state with data words, program words, W15 and pc. -/
def start (pc : Pc) (sp : Word) (mem : List (Word × Word)) (prog : List (Nat × ProgWord)) : State :=
  let s := { State.reset with pc := pc, w := State.reset.w.set 15 sp, prog := prog }
  mem.foldl (fun s m => setRamWord m.1 m.2 s) s

/-- A frame of pc 0x012346 with SRL 0x49 on the stack (vector E2 and F3). -/
def framed : State := start 0x000300#23 0x0904#16 [(0x0900#16, 0x2346#16), (0x0902#16, 0x4901#16)] []

/-- The configuration of spec/95_test_vectors.md with every program address implemented. -/
def wide (s : State) : State := { s with cfg := { s.cfg with progImpl := [⟨0, 0x7FFFFF⟩] } }

/-- A state ready for the entry of Int(2) at 0x000300 (vector E1). -/
def ready : State :=
  { start 0x000204#23 0x0800#16 [] [(0x000018, 0x000300#24)] with
    ifs := State.reset.ifs.set 0 0x0004#16, iec := State.reset.iec.set 0 0x0004#16 }

/-! ### Well-formedness and decoding -/

theorem test_illFormed_goto : Instr.wellFormed (.goto 0x000201#23) = false := by decide
theorem test_illFormed_push : Instr.wellFormed (.push 0x0043#16) = false := by decide
theorem test_illFormed_pop : Instr.wellFormed (.pop 0x0801#16) = false := by decide

/- R113, word by word. -/
theorem test_decode_nop : decode .first [0b000000001111111111111111#24] = .ok (.nop, []) := by rfl
theorem test_decode_goto :
    decode .first [0b000001000010001101000110#24, 0b000000000000000000000001#24] = .ok (.goto 0x012346#23, []) := by rfl
theorem test_decode_gotoWord2 : decode .afterGoto [0b000000000000000001111111#24] = .ok (.gotoWord2 0x7F#7, []) := by rfl
theorem test_decode_gotoWord2_bad : decode .first [0x040000#24, 0x000080#24] = .error (.unknownSecondWord 0x000080#24) := by rfl
theorem test_decode_ret : decode .first [0b000001100000000000000000#24] = .ok (.ret, []) := by rfl
theorem test_decode_retfie : decode .first [0b000001100100000000000000#24] = .ok (.retfie, []) := by rfl
theorem test_decode_bra : decode .first [0b001101111111111111111110#24] = .ok (.bra 0xFFFE#16, []) := by rfl
theorem test_decode_push : decode .first [0b111110000000000010100100#24] = .ok (.push 0x00A4#16, []) := by rfl
theorem test_decode_push_odd : decode .first [0xF800A5#24] = .error (.unknownWord 0xF800A5#24) := by rfl
theorem test_decode_pop : decode .first [0b111110010000000010000100#24] = .ok (.pop 0x0084#16, []) := by rfl
theorem test_decode_disi : decode .first [0b111111000011111111111111#24] = .ok (.disi 0x3FFF#14, []) := by rfl
theorem test_decode_reset : decode .first [0b111111100000000000000000#24] = .ok (.reset, []) := by rfl
theorem test_decode_pwrsav : decode .first [0b111111100100000000000001#24] = .ok (.pwrsav .idle, []) := by rfl
/- R112: `CALL`, and 0x04 with bit 0 set, take two words too, and have no row. -/
theorem test_decode_call : decode .first [0x020200#24, 0x000000#24] = .error (.unknownWord 0x020200#24) := by rfl
theorem test_decode_call_alone : decode .first [0x020200#24] = .error .missingWord := by rfl
theorem test_decode_goto_odd : decode .first [0x040201#24, 0x000000#24] = .error (.unknownWord 0x040201#24) := by rfl
/- I18: 0xFE8000 matches no row. -/
theorem test_decode_unknown : decode .first [0xFE8000#24] = .error (.unknownWord 0xFE8000#24) := by rfl

/-! ### Single steps (spec/95_test_vectors.md) -/

/- I1. -/
theorem test_step_goto : next (step (State.reset.withFetchWord 24 0x040200)) (fun s => s.pc == 0x000200#23) = true := by decide
/- T12. -/
theorem test_goto_unimplemented :
    next (exec (.goto 0x00B000#23) State.reset) (fun s => s.pc == 0x00B000#23 && s.intcon1 == 0x0008#16) = true := by decide
/- I5. -/
theorem test_nop : next (exec .nop (start 0x000202#23 0x0800#16 [] [])) (fun s => s.pc == 0x000204#23) = true := by decide
/- R112: a second word executed by itself. -/
theorem test_gotoWord2 :
    next (exec (.gotoWord2 0x01#7) (start 0x000202#23 0x0800#16 [] [])) (fun s => s.pc == 0x000204#23) = true := by decide
/- I3, I4. -/
theorem test_bra_self : next (exec (.bra 0xFFFF#16) (start 0x000204#23 0x0800#16 [] [])) (fun s => s.pc == 0x000204#23) = true := by decide
theorem test_bra_forward : next (exec (.bra 2#16) (start 0x000204#23 0x0800#16 [] [])) (fun s => s.pc == 0x00020A#23) = true := by decide
/- I10: bits 15:7 of the high word are ignored. -/
theorem test_return : next (exec .ret (start 0x000204#23 0x0804#16 [(0x0800#16, 0x0300#16), (0x0802#16, 0xFF80#16)] []))
    (fun s => s.pc == 0x000300#23 && s.sr == 0#16 && !s.ipl3 && s.sp == 0x0800#16) = true := by decide
/- F3: DC keeps the handler's value. -/
theorem test_retfie : next (exec .retfie { wide framed with sr := 0x01C4#16 })
    (fun s => s.pc == 0x012346#23 && s.sr == 0x0149#16 && s.sp == 0x0900#16 && !s.ipl3) = true := by decide
/- F5: NSTDIS does not block the restore. -/
theorem test_retfie_nstdis :
    next (exec .retfie { start 0x000300#23 0x0804#16 [(0x0800#16, 0x0204#16), (0x0802#16, 0#16)] [] with
      sr := 0x00E0#16, intcon1 := 0x8000#16 }) (fun s => s.sr == 0#16 && s.pc == 0x000204#23) = true := by decide
/- I6. -/
theorem test_push : next (exec (.push 0x0042#16) { State.reset with sr := 0x0040#16 })
    (fun s => wordAt s 0x0800#16 == some 0x0040#16 && s.sp == 0x0802#16) = true := by decide
/- T4: the word is written although it is above SPLIM. -/
theorem test_push_limit :
    next (exec (.push 0x0042#16) { start 0x000204#23 0x0812#16 [] [] with splim := 0x0810#16, splimEnabled := true })
      (fun s => s.intcon1 == 0x0004#16 && wordAt s 0x0812#16 == some 0#16 && s.sp == 0x0814#16) = true := by decide
/- I8: IPL is read-only under NSTDIS. -/
theorem test_pop_nstdis : next (exec (.pop 0x0042#16)
    { start 0x000204#23 0x0802#16 [(0x0800#16, 0x0040#16)] [] with sr := 0x00E0#16, intcon1 := 0x8000#16 })
    (fun s => s.sr == 0x00E0#16 && s.sp == 0x0800#16) = true := by decide
/- T2: below the floor, and at 0x07FE unimplemented. -/
theorem test_pop_floor : next (exec (.pop 0x0000#16) State.reset)
    (fun s => s.sp == 0x07FE#16 && s.intcon1 == 0x000C#16) = true := by decide
/- G7: the old count ticks, then the new one is loaded. -/
theorem test_disi : next (exec (.disi 2#14) { State.reset with disicnt := 9#14, intcon2 := 0x4000#16 })
    (fun s => s.disicnt == 2#14 && s.disiActive) = true := by decide
/- G8. -/
theorem test_disi_zero : next (exec (.disi 0#14) { State.reset with disicnt := 9#14, intcon2 := 0x4000#16 })
    (fun s => s.disicnt == 0#14 && !s.disiActive) = true := by decide
/- I11. -/
theorem test_reset : next (exec .reset ready)
    (fun s => s.pc == 0#23 && s.sp == 0x0800#16 && s.ifs[0] == 0#16 && s.ipc[29] == 0x0044#16) = true := by decide
/- I12, and G14. -/
theorem test_pwrsav : next (exec (.pwrsav .sleep) State.reset) (fun s => s.cpuMode == .sleep && s.pc == 2#23) = true := by decide
theorem test_pwrsav_window : (match exec (.pwrsav .sleep) { State.reset with disicnt := 9#14, intcon2 := 0x4000#16 } with
    | .refused .disiAcrossSleep => true
    | _ => false) = true := by decide
/- E3. -/
theorem test_entry : done (enter (.int 9)
    { start 0x012346#23 0x0900#16 [] [(0x000026, 0x001000#24)] with sr := 0x0149#16, ipc := State.reset.ipc.set 2 0x4464#16 })
    (fun s => wordAt s 0x0900#16 == some 0x2346#16 && wordAt s 0x0902#16 == some 0x4901#16 && s.sr == 0x01C9#16 &&
      s.pc == 0x001000#23) = true := by decide
/- E6. -/
theorem test_entry_trap : done (enter (.trap .stackError)
    { start 0x000404#23 0x0804#16 [] [(0x00000A, 0x000500#24)] with sr := 0x0060#16, corcon := 0x0008#16, intcon1 := 0x0004#16 })
    (fun s => wordAt s 0x0804#16 == some 0x0404#16 && wordAt s 0x0806#16 == some 0x6080#16 && s.sr == 0x0080#16 && s.ipl3 &&
      s.cpuPri == 12#4) = true := by decide
/- A7. -/
theorem test_select_disi : select { State.reset with
    ifs := State.reset.ifs.set 0 0x0220#16, iec := State.reset.iec.set 0 0x0220#16, intcon2 := 0x4000#16,
    ipc := (State.reset.ipc.set 1 0x4464#16).set 2 0x4474#16 } = some (.int 9) := by decide
/- A11. -/
theorem test_select_trap : select { ready with intcon1 := 0x0014#16 } = some (.trap .stackError) := by decide
/- P7: the divide step. -/
theorem test_other_divide : next (execOther ⟨[], none, 0x000202#23, true, 18⟩ (start 0x000200#23 0x0800#16 [] []))
    (fun s => s.intcon1 == 0x0010#16 && s.pc == 0x000202#23) = true := by decide
/- P8: SRL OR 0xE0 with N = 1. -/
theorem test_other_srl : next (execOther (orSrlEffect 0x0042#16 0b01000#5 0x000204#23) (start 0x000202#23 0x0802#16 [] []))
    (fun s => s.sr == 0x00E8#16) = true := by decide
/- X3. -/
theorem test_edge : next (step { State.reset with intcon2 := 0x0001#16, schedule := [.agent (.edge 0 .falling)] })
    (fun s => s.ifs[0] == 0x0001#16) = true := by decide
/- T15: a hard trap conflict Reset. -/
theorem test_conflict : next (exec (.goto 0x00B000#23) { State.reset with sr := 0x00C0#16, corcon := 0x0008#16, intcon1 := 0x0002#16 })
    (fun s => s.trapr && s.pc == 0#23 && s.intcon1 == 0#16) = true := by decide

/-! ### States that meet the hypotheses of the statements, each clause at a boundary value -/

theorem witness_DecodeOfEncode : Instr.wellFormed (.goto 0x7FFFFE#23) = true ∧ Instr.wellFormed (.gotoWord2 0x7F#7) = true ∧
    Instr.wellFormed (.pop 0xFFFE#16) = true := by decide

/- The two lengths: 0x04 and 0x02 take two words, the bytes beside them one. -/
theorem witness_OneWordRows_length : (0x04FFFE#24).extractLsb' 16 8 = 0x04#8 ∧ (0x02FFFF#24).extractLsb' 16 8 = 0x02#8 ∧
    decode .first [0x04FFFE#24, 0x00007F#24] = .ok (.goto 0x7FFFFE#23, []) ∧
    (¬ ((0x060000#24).extractLsb' 16 8 = 0x04#8 ∨ (0x060000#24).extractLsb' 16 8 = 0x02#8)) ∧
    decode .first [0x060000#24, 0x00007F#24] = .ok (.ret, [0x00007F#24]) := by decide

theorem witness_OneWordRows : rowPwrsav ∈ firstRows ∧ rowPwrsav ≠ rowGoto ∧ rowPwrsav.fits 0xFE4001#24 = true := by decide

/-- A CPU about to execute one instruction at 0x000204, the turn listed or not. -/
def atNop : State := start 0x000204#23 0x0800#16 [] [(0x000204, 0x00FFFF#24)]
def atGoto : State :=
  { start 0x000204#23 0x0800#16 [] [(0x000204, 0x042346#24), (0x000206, 0x000001#24)] with schedule := [.cpu] }

theorem witness_StepRuns_oneWord : cpuTurn atNop atNop ∧ atNop.cpuMode = .run ∧ select atNop = none ∧ decodesAtPc atNop .nop :=
  ⟨.inl ⟨rfl, rfl⟩, rfl, by decide, by decide, _, rfl, .inl ⟨by decide, by rfl⟩⟩

theorem witness_StepRuns_twoWords : cpuTurn atGoto { atGoto with schedule := [] } ∧ atGoto.cpuMode = .run ∧
    select atGoto = none ∧ decodesAtPc atGoto (.goto 0x012346#23) :=
  ⟨.inr ⟨[], rfl, rfl⟩, rfl, by decide, by decide, _, rfl, .inr ⟨by decide, by decide, _, rfl, by rfl⟩⟩

/-- A word of no row at pc, with and without a declared effect. -/
def atUnknown : State := start 0x000204#23 0x0800#16 [] [(0x000204, 0xFE8000#24)]

theorem witness_UnknownWord : cpuTurn atUnknown atUnknown ∧ atUnknown.cpuMode = .run ∧ select atUnknown = none ∧
    progImpl atUnknown atUnknown.pc = true ∧ cellGet atUnknown.prog atUnknown.pc.toNat = some 0xFE8000#24 ∧
    (∀ r ∈ firstRows, r.fits 0xFE8000#24 = false) ∧ atUnknown.others.lookup atUnknown.pc.toNat = none :=
  ⟨.inl ⟨rfl, rfl⟩, rfl, by decide, by decide, rfl, by decide, by decide⟩

/-- A `GOTO` word 1 at pc: its second word not programmed, no `GOTO` word 2, and past the last implemented address. -/
def atHalfGoto : State := start 0x000204#23 0x0800#16 [] [(0x000204, 0x040200#24)]
def atBadGoto : State := start 0x000204#23 0x0800#16 [] [(0x000204, 0x040200#24), (0x000206, 0x000080#24)]
def atLastGoto : State := start 0x00ABFE#23 0x0800#16 [] [(0x00ABFE, 0x040200#24)]

theorem witness_UnknownWord_goto : cpuTurn atHalfGoto atHalfGoto ∧ select atHalfGoto = none ∧
    progImpl atHalfGoto atHalfGoto.pc = true ∧ rowGoto.fits 0x040200#24 = true ∧
    progImpl atHalfGoto (seqPc atHalfGoto.pc) = true ∧ cellGet atHalfGoto.prog (seqPc atHalfGoto.pc).toNat = none ∧
    atHalfGoto.others.lookup atHalfGoto.pc.toNat = none :=
  ⟨.inl ⟨rfl, rfl⟩, by decide, by decide, by decide, by decide, by decide, by decide⟩

theorem witness_UnknownWord_badSecondWord : cpuTurn atBadGoto atBadGoto ∧ select atBadGoto = none ∧
    progImpl atBadGoto atBadGoto.pc = true ∧ progImpl atBadGoto (seqPc atBadGoto.pc) = true ∧
    cellGet atBadGoto.prog (seqPc atBadGoto.pc).toNat = some 0x000080#24 ∧ rowGotoWord2.fits 0x000080#24 = false :=
  ⟨.inl ⟨rfl, rfl⟩, by decide, by decide, by decide, by decide, by decide⟩

theorem witness_UnknownWord_lastAddress : cpuTurn atLastGoto atLastGoto ∧ select atLastGoto = none ∧
    progImpl atLastGoto atLastGoto.pc = true ∧ progImpl atLastGoto (seqPc atLastGoto.pc) = false ∧
    addressErrorPends atLastGoto :=
  ⟨.inl ⟨rfl, rfl⟩, by decide, by decide, by decide, by unfold addressErrorPends; decide⟩

/- R115, U15: a first word in no row is refused whatever follows it: a `CALL` whose second word is programmed, is not, or
would stand at an unimplemented address. -/
theorem test_call_refused :
    refusedAs (step { atBadGoto with prog := [(0x000204, 0x020200#24), (0x000206, 0x000000#24)] })
      (.unknownInstruction 0x000204) = true ∧
    refusedAs (step { atHalfGoto with prog := [(0x000204, 0x020200#24)] }) (.unknownInstruction 0x000204) = true ∧
    refusedAs (step { atLastGoto with prog := [(0x00ABFE, 0x020200#24)] }) (.unknownInstruction 0x00ABFE) = true := by decide

/- U10: a `GOTO` whose second word nobody programmed; one whose second word is no `GOTO` word 2 is refused. -/
theorem test_goto_halves : (match step atHalfGoto with
      | .fault (.unprogrammed 0x000206) => true
      | _ => false) = true ∧
    refusedAs (step atBadGoto) (.unknownInstruction 0x000204) = true := by decide

theorem witness_UnknownWord_declared : List.lookup atUnknown.pc.toNat
    { atUnknown with others := [(0x000204, ⟨[], none, 0x000206#23, true, 18⟩)] }.others =
      some ⟨[], none, 0x000206#23, true, 18⟩ := by decide

/-- pc at the first unimplemented address, the CPU priority just below the address error's. -/
def atHole : State := { start 0x00AC00#23 0x0800#16 [] [] with sr := 0x0080#16, corcon := 0x0008#16 }

theorem witness_NothingExecutes : cpuTurn atHole atHole ∧ atHole.cpuMode = .run ∧ select atHole = none ∧
    progImpl atHole atHole.pc = false ∧ addressErrorPends atHole :=
  ⟨.inl ⟨rfl, rfl⟩, rfl, by decide, by decide, by unfold addressErrorPends; decide⟩

def hardReady : State := { ready with intcon1 := 0x0008#16 }
def limitReady : State := { ready with ackDefer := 2 }
def softReady : State := { ready with ackDefer := 1, intcon1 := 0x0004#16 }

theorem witness_Selected_hard : cpuTurn hardReady hardReady ∧ hardReady.cpuMode = .run ∧
    select hardReady = some (.trap .addressError) := ⟨.inl ⟨rfl, rfl⟩, rfl, by decide⟩

theorem witness_Selected_limit : cpuTurn limitReady limitReady ∧ limitReady.cpuMode = .run ∧
    select limitReady = some (.int 2) ∧ limitReady.cfg.ackSlipMax ≤ limitReady.ackDefer :=
  ⟨.inl ⟨rfl, rfl⟩, rfl, by decide, by decide⟩

theorem witness_Selected_slip : cpuTurn softReady softReady ∧ softReady.cpuMode = .run ∧
    select softReady = some (.trap .stackError) ∧ Exc.trap .stackError ≠ .trap .oscillatorFailure ∧
    Exc.trap .stackError ≠ .trap .addressError ∧ softReady.ackDefer < softReady.cfg.ackSlipMax :=
  ⟨.inl ⟨rfl, rfl⟩, rfl, by decide, by decide, by decide, by decide⟩

/-- Asleep, with a request of priority 1. -/
def asleep : State := { ready with cpuMode := .sleep, ipc := ready.ipc.set 0 0x0100#16 }

theorem witness_Sleeping_wakes : cpuTurn asleep asleep ∧ asleep.cpuMode ≠ .run ∧
    ∃ v, intFlag asleep v = true ∧ intEnable asleep v = true ∧ 1#3 ≤ intPri asleep v :=
  ⟨.inl ⟨rfl, rfl⟩, by decide, 2, by decide⟩

theorem witness_Sleeping_waits (v : Nat) : intFlag { State.reset with cpuMode := .idle } v = true →
    intEnable { State.reset with cpuMode := .idle } v = true → intPri State.reset v = 0#3 := by
  intro h
  have hz : ∀ n, (bankGet (Vector.replicate 8 0x0000#16) n).getLsbD (v % 16) = false := by
    intro n
    unfold bankGet
    split <;> simp
  have h' : (implemented defaultConfig v && (bankGet (Vector.replicate 8 0x0000#16) (v / 16)).getLsbD (v % 16)) = true := h
  rw [hz, Bool.and_false] at h'
  exact nomatch h'

theorem witness_VectorBits : implemented State.reset.cfg (16 * (7 : Fin 8).val + (5 : Fin 16).val) = true ∧
    implemented State.reset.cfg 118 = false ∧ 4 * (29 : Fin 30).val + (1 : Fin 4).val = 16 * (7 : Fin 8).val + (5 : Fin 16).val := by decide

def masked : State := { ready with intcon2 := 0x4000#16, disicnt := 1#14, ipc := ready.ipc.set 0 0x0700#16 }

theorem witness_DisiMasks : masked.disiActive = true ∧ select masked = some (.int 2) ∧ intPri masked 2 = 7#3 ∧
    select { masked with intcon1 := 0x0010#16 } = some (.trap .mathError) := by decide

theorem witness_NoInterrupt : { ready with corcon := 0x0008#16 }.ipl3 = true ∧ { ready with sr := 0x00E0#16 }.ipl = 7#3 := by
  decide

theorem witness_HardTrap : trapFlag .oscillatorFailure { ready with intcon1 := 0x0002#16 } = true ∧
    13#4 < { ready with sr := 0x00C0#16, corcon := 0x0008#16 }.cpuPri ∧
    (trapFlag .oscillatorFailure ready = false ∧ { ready with sr := 0x00A0#16, corcon := 0x0008#16 }.cpuPri = 13#4) ∧
    14#4 < { ready with sr := 0x00E0#16, corcon := 0x0008#16 }.cpuPri ∧
    { ready with sr := 0x00C0#16, corcon := 0x0008#16 }.cpuPri = 14#4 ∧
    { ready with sr := 0x00A0#16, corcon := 0x0008#16 }.cpuPri < 14#4 := by decide

theorem witness_HardTrap_pends : addressErrorPends { ready with sr := 0x0080#16, corcon := 0x0008#16 } := by
  unfold addressErrorPends; decide

/- S1, S2: printed addresses. -/
theorem test_vector_addresses : trapVectorAddr 7 State.reset = 0x000012 ∧ interruptVectorAddr 117 State.reset = 0x0000FE ∧
    trapVectorAddr 0 { State.reset with intcon2 := 0x8000#16 } = 0x000104 ∧
    interruptVectorAddr 53 { State.reset with intcon2 := 0x8000#16 } = 0x00017E := by decide

theorem witness_VectorSlots : (∀ v, Exc.int 117 = .int v → v < 118) ∧ ∀ v, Exc.trap .mathError = .int v → v < 118 :=
  ⟨fun v h => by injection h with h; omega, fun v h => nomatch h⟩

/-- Ready to enter, the second push exactly at SPLIM. -/
def readyLimited : State := { ready with splim := 0x0802#16, splimEnabled := true }
/-- The same, the second push beyond SPLIM. -/
def readyBeyond : State := { ready with splim := 0x0801#16, splimEnabled := true }

theorem witness_Entry : frameRoom readyLimited ∧ withinLimit readyLimited (readyLimited.sp + 2#16) ∧
    cellGet readyLimited.prog (vectorAddr (.int 2) readyLimited) = some 0x000300#24 ∧ (0x000300#24).getLsbD 23 = false ∧
    (0x000300#24).getLsbD 0 = false ∧ progImpl readyLimited ((0x000300#24).extractLsb' 0 23) = true ∧
    readyLimited.sr.getLsbD 4 = false ∧ evenPc readyLimited.pc = true ∧ progImpl readyLimited readyLimited.pc = true := by
  unfold frameRoom plainWord withinLimit; decide

/-- Vector E9: the vector at an unimplemented address; the CPU priority after the entry 4, 13 and 14. -/
def readyHole : State := { ready with prog := [(0x000006, 0x00B000#24), (0x000008, 0x00B000#24), (0x000018, 0x00B000#24)] }

theorem witness_Entry_unimplemented : frameRoom readyHole ∧ withinLimit readyHole (readyHole.sp + 2#16) ∧
    cellGet readyHole.prog (vectorAddr (.int 2) readyHole) = some 0x00B000#24 ∧
    cellGet readyHole.prog (vectorAddr (.trap .addressError) readyHole) = some 0x00B000#24 ∧
    cellGet readyHole.prog (vectorAddr (.trap .oscillatorFailure) readyHole) = some 0x00B000#24 ∧
    (0x00B000#24).getLsbD 23 = false ∧ (0x00B000#24).getLsbD 0 = false ∧
    progImpl readyHole ((0x00B000#24).extractLsb' 0 23) = false := by
  unfold frameRoom plainWord withinLimit; decide

/- The three clauses: pending, the conflict by priority and by OSCFAIL, and priority 13. -/
theorem witness_Entry_priorities :
    addressErrorPends { readyHole with sr := withIpl readyHole.sr (entryIpl (.int 2) readyHole) } ∧
    13#4 < { readyHole with sr := withIpl readyHole.sr (entryIpl (.trap .oscillatorFailure) readyHole), corcon := 0x0008#16 }.cpuPri ∧
    trapFlag .oscillatorFailure { readyHole with intcon1 := 0x0002#16 } = true ∧
    trapFlag .oscillatorFailure readyHole = false ∧
    { readyHole with sr := withIpl readyHole.sr (entryIpl (.trap .addressError) readyHole), corcon := 0x0008#16 }.cpuPri = 13#4 := by
  unfold addressErrorPends; decide

/- E9. -/
theorem test_entry_unimplemented : done (enter (.int 2) readyHole)
    (fun s => s.pc == 0x00B000#23 && s.intcon1 == 0x0008#16 && s.sp == 0x0804#16 && wordAt s 0x0800#16 == some 0x0204#16) = true := by
  decide

theorem witness_EntryBeyond : frameRoom readyBeyond ∧ ¬ withinLimit readyBeyond (readyBeyond.sp + 2#16) ∧
    cellGet readyBeyond.prog (vectorAddr (.int 2) readyBeyond) = some 0x000300#24 ∧ (0x000300#24).getLsbD 23 = false ∧
    (0x000300#24).getLsbD 0 = false ∧ progImpl readyBeyond ((0x000300#24).extractLsb' 0 23) = true := by
  unfold frameRoom plainWord withinLimit; decide

theorem witness_InterruptEntry : frameRoom ready ∧ ready.ipl3 = false ∧ done (enter (.int 2) ready) (fun s => s.ipl == 4#3) = true := by
  unfold frameRoom plainWord; decide

def readyNstdis : State := { ready with intcon1 := 0x8000#16 }

theorem witness_NestingDisabled : frameRoom readyNstdis ∧ readyNstdis.ipl3 = false ∧ readyNstdis.nstdis = true ∧
    done (enter (.int 2) readyNstdis) (fun s => s.ipl == 7#3) = true := by
  unfold frameRoom plainWord; decide

theorem witness_TrapEntry : done (enter (.trap .mathError) { ready with prog := [(0x00000C, 0x000400#24)], intcon1 := 0x8010#16 })
    (fun s => s.cpuPri == 11#4) = true := by decide

/-- A second request of priority 5, which pre-empts. -/
def readyTwo : State :=
  { ready with ifs := ready.ifs.set 0 0x0024#16, iec := ready.iec.set 0 0x0024#16, ipc := ready.ipc.set 1 0x4454#16 }

theorem witness_NoPreemption : frameRoom readyTwo ∧ readyTwo.nstdis = false ∧
    done (enter (.int 2) readyTwo) (fun s => select s == some (.int 5)) = true := by
  unfold frameRoom plainWord; decide

def readyOdd : State := { ready with prog := [(0x000018, 0x000301#24)] }
def readyHigh : State := { ready with prog := [(0x000018, 0x800300#24)] }

theorem witness_BadVector : frameRoom readyOdd ∧ cellGet readyOdd.prog (vectorAddr (.int 2) readyOdd) = some 0x000301#24 ∧
    (0x000301#24).getLsbD 0 = true ∧ cellGet readyHigh.prog (vectorAddr (.int 2) readyHigh) = some 0x800300#24 ∧
    (0x800300#24).getLsbD 23 = true := by
  unfold frameRoom plainWord; decide

theorem witness_NopAndDisi : nextImplemented (start 0x00ABFC#23 0x0800#16 [] []) := by unfold nextImplemented; decide

theorem witness_Goto : evenPc 0x00ABFE#23 = true ∧ progImpl State.reset 0x00ABFE#23 = true := by decide

theorem witness_Branch : evenPc 0x000204#23 = true ∧
    progImpl State.reset (BitVec.ofInt 23 (((0x000204#23).toNat : Int) + 2 + 2 * (0xFFFF#16).toInt)) = true := by decide

theorem witness_JumpToUnimplemented : addressErrorPends atHole ∧ evenPc 0x00AC00#23 = true ∧ progImpl atHole 0x00AC00#23 = false ∧
    progImpl atHole (BitVec.ofInt 23 ((atHole.pc.toNat : Int) + 2 + 2 * (0x0001#16).toInt)) = false ∧
    evenPc atHole.pc = true ∧ atHole.pc.toNat + 2 < 0x800000 ∧ progImpl atHole (atHole.pc + 2#23) = false := by
  unfold addressErrorPends; decide

/-- `atHole`'s neighbour: pc right before the first unimplemented address, two words on the stack. -/
def atEdge : State :=
  { start 0x00ABFE#23 0x0804#16 [(0x0800#16, 0x0300#16), (0x0802#16, 0x0040#16)] [] with
    sr := 0x0080#16, corcon := 0x0008#16, splim := 0x0804#16, splimEnabled := true }

theorem witness_JumpToUnimplemented_sequential : addressErrorPends atEdge ∧ evenPc atEdge.pc = true ∧
    atEdge.pc.toNat + 2 < 0x800000 ∧ progImpl atEdge (atEdge.pc + 2#23) = false ∧ atEdge.disiActive = false := by
  unfold addressErrorPends; decide

theorem witness_JumpToUnimplemented_push : (0x0042#16).getLsbD 0 = false ∧ 0x0800 ≤ atEdge.sp.toNat ∧
    atEdge.sp.toNat + 2 < 0x10000 ∧ plainWord atEdge atEdge.sp ∧ withinLimit atEdge atEdge.sp ∧
    dataImpl atEdge 0x0042#16 = true := by
  unfold plainWord withinLimit; decide

theorem witness_JumpToUnimplemented_push_reads : readData .word 0x0042#16 atEdge = .ok (0x0080#16, atEdge) := by rfl

theorem witness_JumpToUnimplemented_pop : (0x0042#16).getLsbD 0 = false ∧ 0x0802 ≤ atEdge.sp.toNat ∧
    holdsWord atEdge (atEdge.sp - 2#16) 0x0040#16 ∧ withinLimit atEdge (atEdge.sp - 2#16) ∧
    dataImpl atEdge 0x0042#16 = true := by
  unfold holdsWord plainWord withinLimit; decide

theorem witness_JumpToUnimplemented_pop_pends :
    addressErrorPends (writeData .word 0x0042#16 0x0040#16 { atEdge with w := atEdge.w.set 15 (atEdge.sp - 2#16) }) := by
  unfold addressErrorPends; decide

/- R199 cause 5: PUSH right before unimplemented memory completes, and ADDRERR is set. -/
theorem test_push_edge : next (exec (.push 0x0042#16) atEdge)
    (fun s => s.pc == 0x00AC00#23 && s.intcon1 == 0x0008#16 && wordAt s 0x0804#16 == some 0x0080#16) = true := by decide

/-- A frame on the stack, its second word exactly at SPLIM. -/
def returning (high low : Word) : State :=
  { start 0x000204#23 0x0804#16 [(0x0800#16, low), (0x0802#16, high)] [] with splim := 0x0802#16, splimEnabled := true }

theorem witness_Return : 0x0804 ≤ (returning 0xFF80#16 0x0300#16).sp.toNat ∧
    holdsWord (returning 0xFF80#16 0x0300#16) ((returning 0xFF80#16 0x0300#16).sp - 2#16) 0xFF80#16 ∧
    holdsWord (returning 0xFF80#16 0x0300#16) ((returning 0xFF80#16 0x0300#16).sp - 4#16) 0x0300#16 ∧
    withinLimit (returning 0xFF80#16 0x0300#16) ((returning 0xFF80#16 0x0300#16).sp - 2#16) ∧
    progImpl (returning 0xFF80#16 0x0300#16) ((0xFF80#16).extractLsb' 0 7 ++ (0x0300#16).extractLsb' 1 15 ++ 0#1) = true := by
  unfold holdsWord plainWord withinLimit; decide

/- The boundary of the two clauses: bit 12 of the high word set (0xFF80) and clear (0xEF80). -/
theorem witness_Retfie : (0xFF80#16).getLsbD 12 = true ∧ (0xEF80#16).getLsbD 12 = false ∧
    holdsWord (returning 0xEF80#16 0x0300#16) ((returning 0xEF80#16 0x0300#16).sp - 2#16) 0xEF80#16 ∧
    holdsWord (returning 0xEF80#16 0x0300#16) ((returning 0xEF80#16 0x0300#16).sp - 4#16) 0x0300#16 ∧
    withinLimit (returning 0xEF80#16 0x0300#16) ((returning 0xEF80#16 0x0300#16).sp - 2#16) ∧
    progImpl (returning 0xEF80#16 0x0300#16) ((0xEF80#16).extractLsb' 0 7 ++ (0x0300#16).extractLsb' 1 15 ++ 0#1) = true := by
  unfold holdsWord plainWord withinLimit; decide

/- D24, U18: a frame that would set RA is refused. -/
theorem test_retfie_ra : refusedAs (exec .retfie (returning 0x1000#16 0x0300#16)) .repeatActive = true := by decide

theorem witness_ReturnToUnimplemented : 0x0804 ≤ (returning 0x8080#16 0xB000#16).sp.toNat ∧
    holdsWord (returning 0x8080#16 0xB000#16) ((returning 0x8080#16 0xB000#16).sp - 2#16) 0x8080#16 ∧
    holdsWord (returning 0x8080#16 0xB000#16) ((returning 0x8080#16 0xB000#16).sp - 4#16) 0xB000#16 ∧
    withinLimit (returning 0x8080#16 0xB000#16) ((returning 0x8080#16 0xB000#16).sp - 2#16) ∧
    trapFlag .oscillatorFailure (returning 0x8080#16 0xB000#16) = false ∧
    progImpl (returning 0x8080#16 0xB000#16) ((0x8080#16).extractLsb' 0 7 ++ (0xB000#16).extractLsb' 1 15 ++ 0#1) = false ∧
    (returning 0x8080#16 0xB000#16).cpuPri < 13#4 ∧ (0x8080#16).getLsbD 12 = false ∧
    BitVec.ofBool ((0x8080#16).getLsbD 7) ++ (0x8080#16).extractLsb' 13 3 < 13#4 := by
  unfold holdsWord plainWord withinLimit; decide

def pushing : State :=
  { start 0x000204#23 0x0802#16 [(0x0800#16, 0x0040#16)] [] with splim := 0x0802#16, splimEnabled := true }

theorem witness_Push : (0x0042#16).getLsbD 0 = false ∧ dataImpl pushing 0x0042#16 = true ∧ 0x0800 ≤ pushing.sp.toNat ∧
    pushing.sp.toNat + 2 < 0x10000 ∧ plainWord pushing pushing.sp ∧ withinLimit pushing pushing.sp ∧
    nextImplemented pushing := by
  unfold plainWord withinLimit nextImplemented; decide

theorem witness_Push_unimplemented : dataImpl pushing 0x2800#16 = false ∧ addressErrorPends pushing := by
  unfold addressErrorPends; decide

theorem witness_Push_reads : readData .word 0x0042#16 pushing = .ok (0x0000#16, pushing) := by rfl

theorem witness_Pop : (0x0042#16).getLsbD 0 = false ∧ 0x0802 ≤ pushing.sp.toNat ∧ holdsWord pushing (pushing.sp - 2#16) 0x0040#16 ∧
    withinLimit pushing (pushing.sp - 2#16) ∧ nextImplemented pushing ∧ dataImpl pushing 0x0042#16 = true ∧
    dataImpl pushing 0x2800#16 = false := by
  unfold holdsWord plainWord withinLimit nextImplemented; decide

/- T2: the stack read at 0x07FE, unimplemented. -/
theorem witness_Pop_unread : (0x0042#16).getLsbD 0 = false ∧ nextImplemented State.reset ∧
    dataImpl State.reset (State.reset.sp - 2#16) = false ∧ addressErrorPends State.reset := by
  unfold nextImplemented addressErrorPends; decide

/- R160, R200: the register f stays as it was. -/
theorem test_pop_unread : next (exec (.pop 0x0082#16) { State.reset with intcon2 := 0x8001#16 })
    (fun s => s.intcon2 == 0x8001#16 && s.intcon1 == 0x000C#16) = true := by decide

theorem witness_Pwrsav : nextImplemented pushing ∧ pushing.disiActive = false ∧
    nextImplemented { pushing with intcon2 := 0x4000#16 } ∧ { pushing with intcon2 := 0x4000#16 }.disiActive = true := by
  unfold nextImplemented; decide

theorem witness_PushFrame : sfrAt pushing.cfg pushing.sp = none ∧ trapConflict .addressError pushing = false ∧
    next (exec (.push 0x0042#16) pushing) (fun s => s.sp == 0x0804#16) = true := by decide

theorem witness_PopFrame : sfrAt pushing.cfg 0x0900#16 = none ∧ trapConflict .addressError pushing = false ∧
    next (exec (.pop 0x0900#16) pushing) (fun s => wordAt s 0x0900#16 == some 0x0040#16) = true := by decide

theorem witness_StoreNothing : Instr.ret ≠ .reset ∧ (∀ f, Instr.ret ≠ .push f) ∧ (∀ f, Instr.ret ≠ .pop f) ∧
    next (exec .ret (start 0x000204#23 0x0804#16 [(0x0800#16, 0x0300#16), (0x0802#16, 0xFF80#16)] [])) (fun _ => true) = true :=
  ⟨by decide, fun _ => nofun, fun _ => nofun, by decide⟩

/- A conflict by the restored priority, 14, alone: the frame's high word 0xC080, its pc 0x00B000 unimplemented. -/
theorem witness_StoreNothing_conflict : 13#4 < BitVec.ofBool ((0xC080#16).getLsbD 7) ++ (0xC080#16).extractLsb' 13 3 ∧
    (returning 0xC080#16 0xB000#16).cpuPri = 0#4 ∧
    next (exec .retfie (returning 0xC080#16 0xB000#16)) (fun s => s.trapr && s.pc == 0#23) = true := by decide

theorem witness_StoreNothing_restores : restoresPri (returning 0xC080#16 0xB000#16) 14#4 := ⟨0xC080#16, false, 0xB000#16, _, rfl, by decide⟩

theorem witness_SoftwareWrites : dataImpl State.reset 0x0042#16 = true ∧ sfrAt State.reset.cfg 0x0042#16 = some .sr ∧
    sfrAt State.reset.cfg 0x0044#16 = some .corcon ∧ sfrAt State.reset.cfg 0x0080#16 = some .intcon1 ∧
    sfrAt State.reset.cfg 0x0082#16 = some .intcon2 ∧ sfrAt State.reset.cfg 0x0092#16 = some (.ifs 7) ∧
    sfrAt State.reset.cfg 0x00A2#16 = some (.iec 7) ∧ sfrAt State.reset.cfg 0x00DE#16 = some (.ipc 29) ∧
    (0x0020#16).getLsbD 0 = false ∧ sfrAt State.reset.cfg 0x0020#16 = some .splim := by decide

theorem witness_SoftwareWrites_more : sfrAt State.reset.cfg 0x001C#16 = some (.w 14) ∧
    sfrAt State.reset.cfg 0x001E#16 = some (.w 15) ∧ sfrAt State.reset.cfg 0x0052#16 = some .disicnt ∧
    sfrAt State.reset.cfg 0x0740#16 = some .rcon ∧ sfrAt State.reset.cfg 0x0742#16 = some .osccon ∧
    dataImpl State.reset 0x001C#16 = true ∧ dataImpl State.reset 0x001E#16 = true ∧ dataImpl State.reset 0x0020#16 = true ∧
    dataImpl State.reset 0x0052#16 = true ∧ dataImpl State.reset 0x0740#16 = true ∧ dataImpl State.reset 0x0742#16 = true ∧
    (14 : Fin 16) ≠ 15 ∧ State.reset.disicntStray = false := by decide

/- R90: W15 written through its address, just below the floor and at it. -/
theorem test_write_w15 : (storeAt .word 0x001E#16 0x07FF#16 State.reset).intcon1 = 0x0004#16 ∧
    (storeAt .word 0x001E#16 0x07FF#16 State.reset).sp = 0x07FE#16 ∧
    (storeAt .word 0x001E#16 0x0801#16 State.reset).intcon1 = 0x0000#16 ∧
    (storeAt .word 0x001E#16 0x0801#16 State.reset).sp = 0x0800#16 := by decide

theorem witness_SoftwareWrites_implemented : dataImpl State.reset 0x0044#16 = true ∧ dataImpl State.reset 0x0080#16 = true ∧
    dataImpl State.reset 0x0082#16 = true ∧ dataImpl State.reset 0x0092#16 = true ∧ dataImpl State.reset 0x00A2#16 = true ∧
    dataImpl State.reset 0x00DE#16 = true := by decide

theorem witness_Disicnt : (0xC000#16).extractLsb' 0 14 = 0#14 ∧ (0x0005#16).extractLsb' 0 14 ≠ 0#14 ∧ masked.disiActive = true ∧
    ready.disiActive = false ∧
    { ready with disicntStray := true, strayBound := 5#14 }.strayBound = (writeSfr .disicnt true 0x0005#16 ready).strayBound := by
  decide

theorem witness_Tick : State.reset.disicnt = 0#14 ∧ { State.reset with disicnt := 1#14 }.disicnt ≠ 0#14 := by decide

theorem witness_DataWord : plainWord State.reset 0x27FE#16 := by unfold plainWord; decide

theorem witness_Offending : addressErrorPends State.reset ∧ (0x0901#16).getLsbD 0 = true ∧ dataImpl State.reset 0x3000#16 = false ∧
    (Width.byte = .word ∨ true = true) := by unfold addressErrorPends; decide

theorem witness_LaterWrites : done (doAccesses
    [{ addr := 0x0900#16, width := .word, direction := .write (.const 1#16), viaW15 := false, indirectBitManip := false }]
    true 0#16 State.reset) (fun s => s.mem == []) = true := by decide

theorem witness_PushRaises : plainWord pushing pushing.sp ∧ trapFlag .stackError pushing = false ∧
    trapFlag .stackError (pushWord false 0#16 { pushing with splim := 0x0801#16 }) = true ∧
    trapFlag .stackError (pushWord false 0#16 pushing) = false := by unfold plainWord; decide

theorem witness_PopBelow : sfrAt State.reset.cfg 0x0900#16 = none ∧ trapConflict .addressError State.reset = false ∧
    State.reset.sp - 2#16 < 0x0800#16 ∧ next (exec (.pop 0x0900#16) State.reset) (fun _ => true) = true := by decide

/-- The two words below 0x0800 implemented and written (vectors F6 and T2 under such a `DataImpl`), W15 at the floor. -/
def belowFloor : State :=
  let s := start 0x000204#23 0x0800#16 [(0x07FC#16, 0x0300#16), (0x07FE#16, 0x0040#16)] []
  { s with cfg := { s.cfg with dataImpl := ⟨0x07FC, 0x07FF⟩ :: s.cfg.dataImpl } }

/-- The upper word of the frame just above SPLIM. -/
def aboveLimit : State := { returning 0x0040#16 0x0300#16 with splim := 0x0801#16 }

theorem witness_PopBelow_frame : trapConflict .addressError belowFloor = false ∧ belowFloor.sp - 2#16 < 0x0800#16 ∧
    next (exec .ret belowFloor) (fun s => s.pc == 0x400300#23 && s.intcon1 == 0x000C#16) = true ∧
    next (exec .ret (wide belowFloor)) (fun s => s.pc == 0x400300#23 && s.intcon1 == 0x0004#16) = true ∧
    next (exec .retfie (wide belowFloor)) (fun s => s.pc == 0x400300#23 && s.intcon1 == 0x0004#16) = true := by decide

theorem witness_PopBelow_reads : (0x0042#16).getLsbD 0 = false ∧ dataImpl belowFloor 0x0042#16 = true ∧
    nextImplemented belowFloor ∧ holdsWord belowFloor (belowFloor.sp - 2#16) 0x0040#16 ∧
    popRaises belowFloor (belowFloor.sp - 2#16) ∧ holdsWord belowFloor (belowFloor.sp - 4#16) 0x0300#16 ∧
    progImpl (wide belowFloor) ((0x0040#16).extractLsb' 0 7 ++ (0x0300#16).extractLsb' 1 15 ++ 0#1) = true ∧
    (0x0040#16).getLsbD 12 = false := by
  unfold nextImplemented holdsWord plainWord popRaises withinLimit; decide

/- R90: above SPLIM with the check armed, the first pop of two alone. -/
theorem witness_PopAbove : holdsWord aboveLimit (aboveLimit.sp - 2#16) 0x0040#16 ∧ popRaises aboveLimit (aboveLimit.sp - 2#16) ∧
    holdsWord aboveLimit (aboveLimit.sp - 4#16) 0x0300#16 ∧ ¬ popRaises aboveLimit (aboveLimit.sp - 4#16) ∧
    nextImplemented aboveLimit := by
  unfold nextImplemented holdsWord plainWord popRaises withinLimit; decide

theorem test_pop_above : next (exec (.pop 0x0900#16) aboveLimit)
    (fun s => s.intcon1 == 0x0004#16 && wordAt s 0x0900#16 == some 0x0040#16) = true := by decide

theorem witness_Divide : evenPc 0x000202#23 = true ∧ progImpl State.reset 0x000202#23 = true := by decide

/- R160, R90: the update of W15 at the boundary, bit 0 dropped (D26); above it only the wrap raises. -/
theorem test_pointer_update :
    next (execOther ⟨[], some ⟨0x07FF#16, false⟩, 0x000202#23, false, 1⟩ State.reset)
      (fun s => s.sp == 0x07FE#16 && s.intcon1 == 0x0004#16) = true ∧
    next (execOther ⟨[], some ⟨0x0800#16, false⟩, 0x000202#23, true, 1⟩ State.reset)
      (fun s => s.sp == 0x0800#16 && s.intcon1 == 0x0010#16) = true ∧
    next (execOther ⟨[], some ⟨0x0800#16, true⟩, 0x000202#23, false, 1⟩ State.reset)
      (fun s => s.sp == 0x0800#16 && s.intcon1 == 0x0004#16) = true := by decide

theorem witness_OrIntoSrl : (0x0042#16).getLsbD 0 = false ∧ dataImpl State.reset 0x0042#16 = true ∧
    sfrAt State.reset.cfg 0x0042#16 = some .sr ∧ evenPc 0x000204#23 = true ∧ progImpl State.reset 0x000204#23 = true := by decide

theorem witness_Peripheral : { State.reset with schedule := [.agent (.request 117)] }.schedule = .agent (.request 117) :: [] ∧
    implemented State.reset.cfg 117 = true := by decide

/- R261, R54: a Reset from outside. -/
theorem witness_Reset_external : next (step { ready with schedule := [.agent .externalReset, .cpu] })
    (fun s => s.pc == 0#23 && s.sp == 0x0800#16 && s.schedule == [.cpu]) = true := by decide

/- R197, R47: TRAPR after a hard trap conflict. -/
theorem test_conflict_trapr : next (exec (.goto 0x00B000#23) { ready with intcon1 := 0x0002#16 })
    (fun s => s.trapr && s.pc == 0#23 && s.intcon1 == 0#16) = true := by decide

theorem witness_PinEdge : implemented State.reset.cfg State.reset.cfg.extIntVec[(4 : Fin 5)] = true ∧
    (State.reset.intcon2.getLsbD (4 : Fin 5).val = false ↔ Edge.rising = .rising) ∧
    ¬ (State.reset.intcon2.getLsbD (4 : Fin 5).val = false ↔ Edge.falling = .rising) := by decide

/-- A device with four external interrupt pins (R5): pin 4 does nothing, pin 3 sets its flag. -/
def fourPins : State := { State.reset with cfg := { State.reset.cfg with nExtInt := 4 } }

theorem witness_PinEdge_number : (4 : Fin 5).val < State.reset.cfg.nExtInt.val ∧ fourPins.cfg.nExtInt.val ≤ (4 : Fin 5).val ∧
    (3 : Fin 5).val < fourPins.cfg.nExtInt.val := by decide

theorem test_edge_absent : next (step { fourPins with schedule := [.agent (.edge 4 .rising)] }) (fun s => s.ifs[0] == 0#16) = true ∧
    next (step { fourPins with schedule := [.agent (.edge 3 .rising)] }) (fun s => s.ifs[0] == 0x0008#16) = true := by decide

theorem witness_ClockFailure : State.reset.cfg.fscmEn = true ∧ State.reset.cpuPri < 14#4 ∧
    { State.reset with cfg := { State.reset.cfg with fscmEn := false } }.cfg.fscmEn = false := by decide

theorem witness_StepKeeps : next (step atNop) (fun s => s.prog == atNop.prog) = true := by decide

/-- The idle loop of spec/95_test_vectors.md P1, its IEC0 0x0044: the end of a run, and one step later. -/
def idling : State :=
  { start 0x000204#23 0x0800#16 [] [(0x000204, 0x37FFFF#24)] with iec := State.reset.iec.set 0 0x0044#16 }

theorem test_runEnded : runEnded idling = true ∧ next (step idling) runEnded = true ∧
    runEnded { idling with ifs := State.reset.ifs.set 0 0x0004#16 } = false := by decide

/-- The invariant holds at a state with a program, and the CPU steps from it. -/
theorem witness_Inv : atNop.Inv :=
  ⟨by decide, by decide, by decide, by decide, by decide, by decide, by decide, by decide, by decide, by decide, by decide,
    by decide⟩

theorem witness_SetIpl3 : Instr.nop ≠ .retfie ∧
    next (exec .nop { State.reset with corcon := 0x0008#16 }) (fun s => s.ipl3) = true ∧
    next (execOther ⟨[], none, 0x000202#23, true, 18⟩ { State.reset with corcon := 0x0008#16 }) (fun s => s.ipl3) = true := by
  decide

/- Its clauses on an interrupt's entry, the other agents and a step. -/
theorem witness_SetIpl3_entry : next (finish (enter (.int 2) { ready with corcon := 0x0008#16 })) (fun s => s.ipl3) = true ∧
    next (agentStep (.request 0) { State.reset with corcon := 0x0008#16 }) (fun s => s.ipl3) = true := by decide

theorem witness_SetIpl3_step : next (step { hardReady with prog := [(0x000008, 0x000400#24)] }) (fun s => s.ipl3) = true ∧
    select hardReady = some (.trap .addressError) ∧
    next (step { returning 0x0080#16 0x0300#16 with prog := [(0x000204, 0x064000#24)] }) (fun s => s.ipl3) = true := by decide

theorem witness_SetIpl3_retfie : decodesAtPc { returning 0x0080#16 0x0300#16 with prog := [(0x000204, 0x064000#24)] } .retfie :=
  ⟨by decide, _, rfl, .inl ⟨by decide, by rfl⟩⟩

end Sys2Proof.Tests
end

section
/-! PROOFS. One case analysis of a step for every property that the operations of the machine keep. A property closed
under the primitive updates of the state (`Kept`) is kept by every data access, stack access, instruction, exception entry
and agent's step; what only `RETFIE` and entry to a trap do (R131, R208) is asked for where it is needed. -/

namespace Sys2Proof.Machine

/-! ### What an operation leaves -/

/-- Every next state the outcome gives has `P`. -/
def Keeps (P : State → Prop) (o : Host.Outcome State Fault Refusal) : Prop := ∀ t, o = .next t → P t

/-- An operation that runs to its end gives a result with `Q`, and one that ends early in a next state one with `P`. -/
def Leaves {α : Type} (P : State → Prop) (Q : α → Prop) (x : Act α) : Prop :=
  (∀ a, x = .ok a → Q a) ∧ ∀ t, x = .error (.next t) → P t

section
variable {α β : Type} {P : State → Prop} {Q : α → Prop} {R : β → Prop}

theorem keeps_next {s : State} (h : P s) : Keeps P (.next s) := by
  rintro t ⟨⟩; exact h

theorem keeps_refused (r : Refusal) : Keeps P (.refused r) := by rintro t ⟨⟩

theorem keeps_fault (f : Fault) : Keeps P (.fault f) := by rintro t ⟨⟩

theorem leaves_ok {a : α} (h : Q a) : Leaves P Q (.ok a) :=
  ⟨by rintro b ⟨⟩; exact h, by rintro t ⟨⟩⟩

theorem leaves_error {o : Host.Outcome State Fault Refusal} (h : Keeps P o) : Leaves P Q (.error o) :=
  ⟨by rintro a ⟨⟩, fun t ht => h t (by injection ht)⟩

theorem leaves_bind {x : Act α} {f : α → Act β} (hx : Leaves P Q x) (hf : ∀ a, Q a → Leaves P R (f a)) :
    Leaves P R (x >>= f) := by
  cases x with
  | ok a => exact hf a (hx.1 a rfl)
  | error o => exact leaves_error fun t h => hx.2 t (by rw [h])

theorem leaves_map {x : Act α} {f : α → β} (hx : Leaves P Q x) (hf : ∀ a, Q a → R (f a)) : Leaves P R (x.map f) := by
  cases x with
  | ok a => exact leaves_ok (hf a (hx.1 a rfl))
  | error o => exact leaves_error fun t h => hx.2 t (by rw [h])

theorem keeps_finish {x : Act State} (hx : Leaves P P x) : Keeps P (finish x) := by
  intro t h
  rcases finish_next h with h | h
  · exact hx.1 t h
  · exact hx.2 t h

end

/-! ### Properties the primitive updates keep -/

/-- `P` is closed under the primitive updates of the state. Restoring the status word of a frame and the priority of a
trap, which only `RETFIE` and entry to a trap do, are not among them. -/
structure Kept (P : State → Prop) : Prop where
  setTrapFlag : ∀ s t, P s → P (setTrapFlag t s)
  setPc : ∀ s p, P s → evenPc p = true → P { s with pc := p }
  seqPc : ∀ s, P s → P { s with pc := seqPc s.pc }
  hidden : ∀ s m a c l d, P s → P { s with cpuMode := m, ackDefer := a, cf := c, schedule := l, draws := d }
  tick : ∀ s c, P s → P (tick c s)
  setSp : ∀ s v, P s → P (setSp v s)
  writeSfr : ∀ s r b v, P s → P (writeSfr r b v s)
  setRamByte : ∀ s a b, P s → P (setRamByte a b s)
  setIpl : ∀ s l, P s → P { s with sr := withIpl s.sr l }
  openWindow : ∀ s k, P s → P (openWindow k s)
  setIntFlag : ∀ s v, P s → P (setIntFlag s v)
  deviceReset : ∀ s c, P s → P (deviceReset c s)

/-- Restoring SRL and IPL3 from a frame, which only `RETFIE` does (R131), keeps `P`. -/
def KeepsRestore (P : State → Prop) : Prop := ∀ u high, P u → P (restoreStatus high u)

/-- Writing the priority of the exception at its entry keeps `P` (R207, R208). -/
def KeepsEntry (P : State → Prop) (e : Exc) : Prop := ∀ u l, P u → P (setEntryPri e l u)

section
variable {P : State → Prop} (k : Kept P)
include k

/-! ### Traps, jumps and fetches -/

theorem Kept.drawn {s : State} (d : Nat) (h : P s) : P { s with draws := d } :=
  k.hidden s s.cpuMode s.ackDefer s.cf s.schedule d h

theorem Kept.raiseHard {s : State} (t : Trap) (h : P s) : Leaves P P (raiseHard t s) := by
  constructor
  · intro u hu
    rw [(raiseHard_ok hu).1]
    exact k.setTrapFlag s t h
  · intro u hu
    rcases raiseHard_error hu with ⟨-, hr⟩ | ⟨-, hr⟩
    · cases hr; exact k.deviceReset s _ h
    · exact nomatch hr

theorem Kept.raiseAddressIf {s : State} (b : Bool) (h : P s) : Leaves P P (raiseAddressIf b s) := by
  cases b with
  | false => exact leaves_ok h
  | true => exact k.raiseHard .addressError h

theorem Kept.jump {s : State} (p : Pc) (h : P s) : Leaves P P (jump p s) :=
  k.raiseAddressIf _ (k.setPc s _ h (evenTarget_even p))

theorem Kept.advance {s : State} (h : P s) : Leaves P P (advance s) := k.jump _ h

/-- A jump and the cycles it takes, the end of most instructions. -/
theorem Kept.jump_tick {s : State} (p : Pc) (c : Nat) (h : P s) :
    Keeps P (finish ((Machine.jump p s).map (Machine.tick c))) :=
  keeps_finish (leaves_map (k.jump p h) fun t ht => k.tick t c ht)

theorem Kept.fetchUnimplemented {α : Type} {Q : α → Prop} {s : State} {p : Pc} (h : P { s with pc := p }) :
    Leaves P Q (fetchUnimplemented p s) := by
  have hr := k.raiseHard .addressError h
  unfold Machine.fetchUnimplemented
  split <;> rename_i hx <;> rw [hx] at hr
  · exact leaves_error (keeps_next (hr.1 _ rfl))
  · exact leaves_error fun t ht => hr.2 t (by rw [ht])

/-! ### Data accesses and the stack -/

theorem Kept.limitCheck {s : State} (a : Word) (h : P s) : P (limitCheck a s) := by
  unfold Machine.limitCheck
  split
  · exact k.setTrapFlag s .stackError h
  · exact h

/-- The SPLIM check where the access goes through W15. -/
theorem Kept.limitCheckIf {s : State} (via : Bool) (a : Word) (h : P s) :
    P (if via then Machine.limitCheck a s else s) := by
  split
  · exact k.limitCheck a h
  · exact h

theorem Kept.readSfr {s : State} (r : Sfr) (h : P s) : P (readSfr r s).2 := by
  rw [readSfr_state]; exact k.drawn _ h

theorem Kept.writeData {s : State} (w : Width) (a v : Word) (h : P s) : P (writeData w a v s) := by
  unfold Machine.writeData
  split
  · split
    · exact k.writeSfr s _ _ _ h
    · exact k.setRamByte _ _ _ (k.setRamByte s _ _ h)
  · split
    · exact k.writeSfr _ _ _ _ (k.readSfr _ h)
    · exact k.setRamByte s _ _ h

theorem Kept.storeAt {s : State} (w : Width) (a v : Word) (h : P s) : P (storeAt w a v s) := by
  unfold Machine.storeAt
  split
  · exact k.writeData w a v h
  · exact h

theorem Kept.load {s : State} (w : Width) (via bm : Bool) (a : Word) (h : P s) :
    Leaves P (fun r => P r.2.2) (load w via bm a s) := by
  constructor
  · rintro ⟨v, bad, t⟩ hl
    obtain ⟨-, u, hu, ht, -⟩ := load_ok hl
    dsimp only
    rw [ht]
    exact k.drawn _ (k.limitCheckIf via a ((k.raiseAddressIf bad h).1 u hu))
  · intro t hl
    rcases load_error hl with ⟨-, ht⟩ | ht | ⟨f, ht⟩
    · cases ht; exact k.deviceReset s _ h
    · exact nomatch ht
    · exact nomatch ht

theorem Kept.store {s : State} (w : Width) (via bm : Bool) (a v : Word) (inh : Bool) (h : P s) :
    Leaves P (fun r => P r.2) (store w via bm a v inh s) := by
  constructor
  · rintro ⟨bad, t⟩ hl
    obtain ⟨-, u, hu, ht⟩ := store_ok hl
    have hc := k.limitCheckIf via a ((k.raiseAddressIf bad h).1 u hu)
    dsimp only
    rw [ht]
    split
    · exact hc
    · exact k.storeAt w a v hc
  · intro t hl
    rcases store_error hl with ⟨-, ht⟩ | ht
    · cases ht; exact k.deviceReset s _ h
    · exact nomatch ht

theorem Kept.pushWord {s : State} (inh : Bool) (v : Word) (h : P s) : P (pushWord inh v s) := by
  have hc := k.limitCheck s.sp h
  have hu : P (if inh then Machine.limitCheck s.sp s else Machine.storeAt .word s.sp v (Machine.limitCheck s.sp s)) := by
    split
    · exact hc
    · exact k.storeAt _ _ _ hc
  unfold Machine.pushWord
  dsimp only
  generalize (if inh then _ else _) = u at hu ⊢
  split
  · exact k.setTrapFlag _ .stackError (k.setSp _ _ hu)
  · exact k.setSp _ _ hu

theorem Kept.popWord {s : State} (h : P s) : Leaves P (fun r => P r.2.2) (popWord s) :=
  k.load .word true false _ (k.setSp s _ h)

theorem Kept.popFrame {s : State} (h : P s) : Leaves P (fun r => P r.2.2.2) (popFrame s) :=
  leaves_bind (k.popWord h) fun _ h1 => leaves_bind (k.popWord h1) fun _ h2 => leaves_ok h2

/-! ### Instructions -/

/-- Return from an exception, where restoring the status word keeps `P` (R131). -/
theorem Kept.returnFromException {s : State} (h : P s) (hret : KeepsRestore P) :
    Leaves P P (returnFromException s) := by
  refine leaves_bind (k.popFrame h) fun r hr => ?_
  dsimp only
  split
  · exact leaves_error (keeps_refused _)
  · exact k.jump _ (hret _ _ hr)

theorem Kept.execReturn {s : State} (h : P s) : Keeps P (execReturn s) :=
  keeps_finish (leaves_bind (k.popFrame h) fun _ h1 => leaves_bind (k.jump _ h1) fun t h2 => leaves_ok (k.tick t _ h2))

theorem Kept.execPush {s : State} (f : Word) (h : P s) : Keeps P (execPush f s) :=
  keeps_finish (leaves_bind (k.load .word false false f h) fun _ h1 =>
    leaves_bind (k.advance (k.pushWord _ _ h1)) fun t h2 => leaves_ok (k.tick t _ h2))

theorem Kept.execPop {s : State} (f : Word) (h : P s) : Keeps P (execPop f s) :=
  keeps_finish (leaves_bind (k.popWord h) fun _ h1 =>
    leaves_bind (leaves_map (k.store .word false false f _ _ h1) fun _ h2 => h2) fun _ h2 =>
    leaves_bind (k.advance h2) fun t h3 => leaves_ok (k.tick t _ h3))

/-- Every instruction of the table keeps `P`; `RETFIE` where restoring the status word does. -/
theorem Kept.exec {s : State} (i : Instr) (h : P s) (hret : i = .retfie → KeepsRestore P) :
    Keeps P (exec i s) := by
  cases i with
  | nop => exact k.jump_tick _ _ h
  | goto target => exact k.jump_tick _ _ h
  | gotoWord2 high => exact k.jump_tick _ _ h
  | ret => exact k.execReturn h
  | retfie => exact keeps_finish (leaves_map (k.returnFromException h (hret rfl)) fun t ht => k.tick t _ ht)
  | bra slit16 => exact k.jump_tick _ _ h
  | push f => exact k.execPush f h
  | pop f => exact k.execPop f h
  | disi lit14 => exact keeps_finish (k.advance (k.openWindow _ _ (k.tick s _ h)))
  | reset => exact keeps_next (k.deviceReset s _ h)
  | pwrsav mode =>
    show Keeps P (execPwrsav mode s)
    unfold execPwrsav
    split
    · exact keeps_refused _
    · exact k.jump_tick _ _ (k.hidden s (powerMode mode) s.ackDefer s.cf s.schedule s.draws h)

theorem Kept.writeValue {s : State} (v : WriteValue) (last : Word) (h : P s) : P (writeValue v last s).2 := by
  cases v with
  | const w => exact h
  | modify keep set toggle => exact h
  | free => exact k.drawn _ h

theorem Kept.doAccess {s : State} (a : Access) (bad : Bool) (last : Word) (h : P s) :
    Leaves P (fun r => P r.2.2) (doAccess a bad last s) := by
  unfold Machine.doAccess
  split
  · exact leaves_bind (k.load _ _ _ _ h) fun _ h1 => leaves_ok h1
  · exact leaves_bind (k.store _ _ _ _ _ _ (k.writeValue _ last h)) fun _ h1 => leaves_ok h1

theorem Kept.doAccesses (as : List Access) {s : State} (bad : Bool) (last : Word) (h : P s) :
    Leaves P P (doAccesses as bad last s) := by
  induction as generalizing s bad last with
  | nil => exact leaves_ok h
  | cons a as ih => exact leaves_bind (k.doAccess a bad last h) fun _ h1 => ih _ _ h1

theorem Kept.updatePointer {s : State} (u : Option PointerUpdate) (h : P s) : P (updatePointer u s) := by
  unfold Machine.updatePointer
  split
  · exact h
  · split
    · exact k.setTrapFlag _ .stackError (k.setSp s _ h)
    · exact k.setSp s _ h

/-- Every instruction outside the table keeps `P` (R160). -/
theorem Kept.execOther {s : State} (e : Effect) (h : P s) : Keeps P (execOther e s) := by
  refine keeps_finish (leaves_bind (k.doAccesses e.accesses _ _ h) fun t ht => ?_)
  have hu := k.updatePointer e.w15 ht
  have hm : P (if e.divByZero then raiseMath (Machine.updatePointer e.w15 t) else Machine.updatePointer e.w15 t) := by
    split
    · exact k.setTrapFlag _ .mathError hu
    · exact hu
  exact leaves_bind (k.jump e.next hm) fun u h2 => leaves_ok (k.tick u _ h2)

/-! ### Exceptions, the CPU and the other agents -/

/-- Entry of an exception whose priority, written at entry, keeps `P` (R205 to R209). -/
theorem Kept.enter {s : State} (e : Exc) (h : P s) (he : KeepsEntry P e) : Leaves P P (enter e s) := by
  unfold Machine.enter
  dsimp only
  have hp := he _ (entryIpl e s) (k.pushWord false (frameHigh s) (k.pushWord false (frameLow s) h))
  refine leaves_bind (Q := fun _ => True) ?_ fun vec _ => ?_
  · unfold progRead
    split
    · exact leaves_ok trivial
    · exact leaves_error (keeps_fault _)
  · split
    · exact leaves_error (keeps_refused _)
    · exact leaves_bind (k.jump _ hp) fun u hu => leaves_ok (k.tick _ 4 (k.hidden u .run 0 u.cf u.schedule u.draws hu))

/-- An interrupt writes IPL<2:0> alone at its entry (R207). -/
theorem Kept.entryInt (v : Nat) : KeepsEntry P (.int v) := fun u l hu => k.setIpl u l hu

theorem Kept.agentStep {s : State} (e : Event) (h : P s) : Keeps P (agentStep e s) := by
  cases e with
  | request v => exact keeps_next (k.setIntFlag s v h)
  | edge pin e =>
    refine keeps_next ?_
    split
    · exact k.setIntFlag s _ h
    · exact h
  | clockFailure =>
    show Keeps P (if s.cfg.fscmEn then _ else _)
    split
    · exact keeps_finish (leaves_map (k.raiseHard _ h) fun t ht =>
        k.hidden t t.cpuMode t.ackDefer true t.schedule t.draws ht)
    · exact keeps_next h
  | externalReset => exact keeps_next (k.deviceReset s _ h)

end

/-! ### What a fetch finds -/

/-- What the declared effects answer is no instruction of the table. -/
theorem declaredOr_ne_instr {o : Host.Outcome State Fault Refusal} {s : State} {i : Instr} :
    declaredOr o s ≠ .ok (.instr i) := by
  unfold declaredOr
  split <;> exact nofun

/-- A fetch from unimplemented memory finds nothing. -/
theorem fetchUnimplemented_ne_ok {α : Type} {p : Pc} {s : State} {a : α} : fetchUnimplemented p s ≠ .ok a := by
  unfold fetchUnimplemented
  split <;> exact nofun

/-- The words fetched: one, or for a two-word instruction the next one too where it is programmed (R112). -/
theorem fetchRest_ok {w : ProgWord} {ws : List ProgWord} {s : State} (h : fetchRest w s = .ok ws) :
    (isTwoWord w = false ∧ ws = [w]) ∨
    (isTwoWord w = true ∧ progImpl s (seqPc s.pc) = true ∧ ws = w :: (cellGet s.prog (seqPc s.pc).toNat).toList) := by
  unfold fetchRest at h
  split at h
  · rename_i ht
    split at h
    · rename_i hp
      cases h
      exact .inr ⟨ht, hp, rfl⟩
    · exact absurd h fetchUnimplemented_ne_ok
  · rename_i ht
    cases h
    exact .inl ⟨by simpa using ht, rfl⟩

/-- An instruction is fetched only from the words at pc. -/
theorem words_of_fetch {s : State} {i : Instr} (h : fetch s = .ok (.instr i)) :
    progImpl s s.pc = true ∧ ∃ w ws rest, cellGet s.prog s.pc.toNat = some w ∧ fetchRest w s = .ok ws ∧
      decode .first ws = .ok (i, rest) := by
  unfold fetch at h
  split at h
  · rename_i hp
    split at h
    · exact absurd h declaredOr_ne_instr
    · rename_i w hw
      split at h
      · exact absurd h declaredOr_ne_instr
      · obtain ⟨ws, hws, h⟩ := bind_ok h
        split at h
        · rename_i j rest hd
          cases h
          exact ⟨hp, w, ws, rest, hw, hws, hd⟩
        · exact absurd h declaredOr_ne_instr
  · exact absurd h fetchUnimplemented_ne_ok

/-- A one-word instruction is read from one word. -/
theorem decode_oneWord {w : ProgWord} {i : Instr} {rest : List ProgWord} (hw : isTwoWord w = false)
    (h : decode .first [w] = .ok (i, rest)) : rest = [] := by
  simp only [decode, hw, Bool.false_eq_true, if_false] at h
  cases hd : decodeOne w with
  | error e => rw [hd] at h; exact nomatch h
  | ok j => rw [hd] at h; cases h; rfl

/-- A two-word instruction is read from two words, no fewer and no more. -/
theorem decode_twoWords {w : ProgWord} {second : Option ProgWord} {i : Instr} {rest : List ProgWord}
    (hw : isTwoWord w = true) (h : decode .first (w :: second.toList) = .ok (i, rest)) :
    rest = [] ∧ ∃ w2, second = some w2 := by
  cases second with
  | none => simp [decode, hw] at h
  | some w2 =>
    simp only [decode, Option.toList, hw, if_true] at h
    cases hd : decodeTwo w w2 with
    | error e => rw [hd] at h; exact nomatch h
    | ok j => rw [hd] at h; cases h; exact ⟨rfl, w2, rfl⟩

/-- An instruction that is fetched is the one the words at pc decode to. -/
theorem decodesAtPc_of_fetch {s : State} {i : Instr} (h : fetch s = .ok (.instr i)) : decodesAtPc s i := by
  obtain ⟨hp, w, ws, rest, hw, hws, hd⟩ := words_of_fetch h
  refine ⟨hp, w, hw, ?_⟩
  rcases fetchRest_ok hws with ⟨ht, rfl⟩ | ⟨ht, hp2, rfl⟩
  · obtain rfl := decode_oneWord ht hd
    exact .inl ⟨ht, hd⟩
  · obtain ⟨rfl, w2, hw2⟩ := decode_twoWords ht hd
    rw [hw2] at hd
    exact .inr ⟨ht, hp2, w2, hw2, hd⟩

/-! ### Steps -/

/-- What is wrong with the words at pc is a fault or a refusal. -/
theorem keeps_fetchError {P : State → Prop} (e : DecodeError) (s : State) : Keeps P (fetchError e s) := by
  cases e with
  | missingWord => exact keeps_fault _
  | unknownWord w => exact keeps_refused _
  | unknownSecondWord w => exact keeps_refused _

/-- Looking up a declared effect ends early only in the outcome given for want of one. -/
theorem leaves_declaredOr {P : State → Prop} {o : Host.Outcome State Fault Refusal} (s : State) (h : Keeps P o) :
    Leaves P (fun _ => True) (declaredOr o s) := by
  unfold declaredOr
  split
  · exact leaves_ok trivial
  · exact leaves_error h

section
variable {P : State → Prop} (k : Kept P)
include k

theorem Kept.fetchRest {s : State} (w : ProgWord) (h : P s) : Leaves P (fun _ => True) (fetchRest w s) := by
  unfold Machine.fetchRest
  split
  · split
    · exact leaves_ok trivial
    · exact k.fetchUnimplemented (k.seqPc s h)
  · exact leaves_ok trivial

/-- A fetch ends early in a state with `P`: the address error's flag is all it sets. -/
theorem Kept.fetch {s : State} (h : P s) : Leaves P (fun _ => True) (fetch s) := by
  unfold Machine.fetch
  split
  · split
    · exact leaves_declaredOr s (keeps_fault _)
    · split
      · exact leaves_declaredOr s (keeps_refused _)
      · refine leaves_bind (k.fetchRest _ h) fun ws _ => ?_
        split
        · exact leaves_ok trivial
        · rename_i e _
          exact leaves_declaredOr s (keeps_fetchError e s)
  · exact k.fetchUnimplemented h

/-- The instruction at pc keeps `P`; if that is `RETFIE`, where restoring the status word does. -/
theorem Kept.executeNext {s : State} (h : P s)
    (hret : decodesAtPc s .retfie → KeepsRestore P) : Keeps P (executeNext s) := by
  unfold Machine.executeNext
  split
  · rename_i i hf
    exact k.exec i h fun hi => hret (decodesAtPc_of_fetch (hi ▸ hf))
  · rename_i e _
    exact k.execOther e h
  · rename_i o hf
    exact fun t ht => (k.fetch h).2 t (by rw [hf, ht])

theorem Kept.enterOrDefer {s : State} (e : Exc) (h : P s)
    (hret : decodesAtPc s .retfie → KeepsRestore P) (he : KeepsEntry P e) : Keeps P (enterOrDefer e s) := by
  unfold Machine.enterOrDefer
  split
  · have hslip := k.hidden s s.cpuMode (s.ackDefer + 1) s.cf s.schedule (s.draws + 1) h
    dsimp only [drawBit]
    split
    · exact k.executeNext hslip hret
    · exact keeps_finish (k.enter e (k.drawn _ h) he)
  · exact keeps_finish (k.enter e h he)

theorem Kept.awakeStep {s : State} (h : P s)
    (hret : decodesAtPc s .retfie → KeepsRestore P)
    (htrap : ∀ x, select s = some (.trap x) → KeepsEntry P (.trap x)) : Keeps P (awakeStep s) := by
  unfold Machine.awakeStep
  split
  · rename_i e hs
    refine k.enterOrDefer e h hret ?_
    cases e with
    | trap x => exact htrap x hs
    | int v => exact k.entryInt v
  · exact k.executeNext (k.hidden s s.cpuMode 0 s.cf s.schedule s.draws h) hret

theorem Kept.cpuStep {s : State} (h : P s)
    (hret : decodesAtPc s .retfie → KeepsRestore P)
    (htrap : ∀ x, select s = some (.trap x) → KeepsEntry P (.trap x)) : Keeps P (cpuStep s) := by
  have hwoken : Keeps P (if wake s then Machine.awakeStep { s with cpuMode := .run } else .next s) := by
    split
    · exact k.awakeStep (k.hidden s .run s.ackDefer s.cf s.schedule s.draws h) hret htrap
    · exact keeps_next h
  unfold Machine.cpuStep
  split
  · exact k.awakeStep h hret htrap
  · exact hwoken
  · exact hwoken

/-- Every step keeps `P`, where restoring the status word does if the step may run a `RETFIE`, and writing the priority
of a trap does if one is selected. -/
theorem Kept.step {s : State} (h : P s)
    (hret : decodesAtPc s .retfie → KeepsRestore P)
    (htrap : ∀ x, select s = some (.trap x) → KeepsEntry P (.trap x)) : Keeps P (step s) := by
  have hturn : ∀ rest, P { s with schedule := rest } := fun rest => k.hidden s s.cpuMode s.ackDefer s.cf rest s.draws h
  unfold Machine.step turnStep
  split
  · exact k.cpuStep h hret htrap
  · exact k.cpuStep (hturn _) hret htrap
  · exact k.agentStep _ (hturn _)

end

end Sys2Proof.Machine
end

section
/-! PROOFS. The invariant `State.Inv` and IPL3 over a step (spec/10_state.md R21 to R54, spec/60_exceptions.md R185). -/

namespace Sys2Proof.Machine

/-! ### The invariant -/

/-- The next program word of an even address is at an even address (R21). -/
theorem seqPc_even {p : Pc} (h : evenPc p = true) : evenPc (seqPc p) = true := by
  unfold seqPc
  split
  · have h0 : p.getLsbD 0 = false := by simpa [evenPc] using h
    rw [evenPc, BitVec.getLsbD_add (by decide), h0, BitVec.carry_zero]
    decide
  · exact evenTarget_even _

theorem inv_openWindow {s : State} (n : BitVec 14) (h : s.Inv) : (openWindow n s).Inv := by
  refine inv_withIntcon2 (s := s) h (and_withBit (by decide) h.intcon2Bits) ?_ nofun
  rw [getLsbD_withBit]
  simp

theorem inv_setIpl {s : State} (l : BitVec 3) (h : s.Inv) : State.Inv { s with sr := withIpl s.sr l } :=
  inv_setEntryPri (e := .int 0) h

/-- The primitive updates keep the invariant. -/
theorem kept_inv : Kept State.Inv where
  setTrapFlag _ t h := inv_setTrapFlag t h
  setPc _ _ h hp := inv_setPc h hp
  seqPc _ h := inv_setPc h (seqPc_even h.pcEven)
  hidden _ m a c l d h := inv_hidden m a c l d h
  tick _ c h := inv_tick c h
  setSp _ _ h := inv_setSp h
  writeSfr _ _ _ _ h := inv_writeSfr h
  setRamByte _ _ _ h := inv_setRamByte h
  setIpl _ l h := inv_setIpl l h
  openWindow _ n h := inv_openWindow n h
  setIntFlag _ _ h := inv_setIntFlag h
  deviceReset _ c _ := inv_deviceReset c

/-- Settles O57: the primitive updates keep the invariant, and so do restoring a frame's status word and writing a
trap's priority. -/
theorem stepKeepsTheInvariant : Obligations.StepKeepsTheInvariant := fun _ t h ht =>
  kept_inv.step h (fun _ _ _ hu => inv_restoreStatus hu) (fun _ _ _ _ hu => inv_setEntryPri hu) t ht

/-! ### IPL3 -/

/-- A software write of a register does not set IPL3 (R27, R53 (c)). -/
theorem ipl3_writeSfr {s : State} {r : Sfr} {b : Bool} {v : Word} (h : (writeSfr r b v s).ipl3 = true) :
    s.ipl3 = true := by
  cases r with
  | w n =>
    have hc : (writeW n v s).corcon = s.corcon := by unfold writeW; split <;> simp
    simpa [State.ipl3, writeSfr, hc] using h
  | corcon =>
    simp only [State.ipl3, writeSfr, corconWritten, BitVec.getLsbD_or, BitVec.getLsbD_and] at h ⊢
    simp at h
    exact h.1
  | disicnt =>
    have hc : (writeDisicnt v s).corcon = s.corcon := by
      unfold writeDisicnt
      dsimp only
      split
      · rfl
      · split <;> rfl
    simpa [State.ipl3, writeSfr, hc] using h
  | _ => exact h

/-- IPL3 is set only where it was set in `s`. -/
def NoNewIpl3 (s t : State) : Prop := t.ipl3 = true → s.ipl3 = true

/-- The primitive updates set IPL3 nowhere. -/
theorem kept_noNewIpl3 (s : State) : Kept (NoNewIpl3 s) where
  setTrapFlag _ _ h := h
  setPc _ _ h _ := h
  seqPc _ h := h
  hidden _ _ _ _ _ _ h := h
  tick u c h := by simpa [NoNewIpl3, State.ipl3] using h
  setSp u v h := by simpa [NoNewIpl3, State.ipl3] using h
  writeSfr _ _ _ _ h ht := h (ipl3_writeSfr ht)
  setRamByte _ _ _ h := h
  setIpl _ _ h := h
  openWindow _ _ h := h
  setIntFlag u v h := by simpa [NoNewIpl3, State.ipl3] using h
  deviceReset _ _ _ ht := absurd ht (by show ¬ (0x0000#16).getLsbD 3 = true; decide)

/-- Settles O59: nothing but restoring a frame's status word and writing a trap's priority sets IPL3. -/
theorem onlyRetfieAndTrapsSetIpl3 : Obligations.OnlyRetfieAndTrapsSetIpl3 := by
  refine ⟨fun i s t hi ht => ?_, fun e s t ht => ?_, fun v s t ht => ?_, fun e s t ht => ?_, fun s t ht h3 => ?_⟩
  · exact (kept_noNewIpl3 s).exec i id (fun he => absurd he hi) t ht
  · exact (kept_noNewIpl3 s).execOther e id t ht
  · exact keeps_finish ((kept_noNewIpl3 s).enter (.int v) id ((kept_noNewIpl3 s).entryInt v)) t ht
  · exact (kept_noNewIpl3 s).agentStep e id t ht
  · by_contra hn
    simp only [not_or] at hn
    obtain ⟨hclear, hret, htrap⟩ := hn
    exact hclear ((kept_noNewIpl3 s).step id (fun hd => absurd hd hret) (fun x hx => absurd ⟨x, hx⟩ htrap) t ht h3)

end Sys2Proof.Machine
end

section
/-! PROOFS. The special function registers at their data addresses, and the bits of the interrupt vectors
(spec/10_state.md R22 to R45, R53). -/

namespace Sys2Proof.Machine

/-! ### Accesses to a register's address (R52) -/

/-- A word stored to the address of a register is a software write of it. -/
theorem storeAt_register {s : State} {a : Word} {r : Sfr} (v : Word) (hd : dataImpl s a = true)
    (hr : sfrAt s.cfg a = some r) : storeAt .word a v s = writeSfr r true v s := by
  simp [storeAt, hd, writeData, hr]

/-- A word read from the address of a register is a read of it. -/
theorem readData_register {s : State} {a : Word} {r : Sfr} (hr : sfrAt s.cfg a = some r) :
    readData .word a s = .ok (readSfr r s) := by
  simp [readData, hr]

/-- The word that holds an even byte starts there. -/
theorem wordBase_even {a : Word} (h : a.getLsbD 0 = false) : wordBase a = a := and_even_of_even h

/-- The word that holds the byte after an even one starts at the even one. -/
theorem wordBase_odd {a : Word} (h : a.getLsbD 0 = false) : wordBase (a ||| 1#16) = a := by
  have hodd : wordBase (a ||| 1#16) = wordBase a := by
    unfold wordBase
    rw [BitVec.and_or_distrib_right]
    simp
  rw [hodd, wordBase_even h]

/-- The byte at an even address is the low one of its word (R86; log entry 16). -/
theorem withByteAt_even {a : Word} (h : a.getLsbD 0 = false) (v : Word) (b : Byte) :
    withByteAt a v b = v.extractLsb' 8 8 ++ b := by
  rw [withByteAt, h]; rfl

/-- The byte after it is the high one. -/
theorem withByteAt_odd (a v : Word) (b : Byte) : withByteAt (a ||| 1#16) v b = b ++ v.extractLsb' 0 8 := by
  simp [withByteAt]

/-- A bit that was written. -/
theorem getLsbD_withBit_same {n : Nat} (h : n < 16) (w : Word) (b : Bool) : (withBit w n b).getLsbD n = b := by
  rw [getLsbD_withBit, if_pos ⟨rfl, h⟩]

/-! ### SR, CORCON and INTCON2, bit by bit -/

theorem getLsbD_srRead (sr : Word) (i : Fin 16) :
    (srRead sr).getLsbD i.val = (sr.getLsbD i.val && decide (i.val ≤ 8)) := by
  have hm : ∀ j : Fin 16, (0x01FF#16).getLsbD j.val = decide (j.val ≤ 8) := by decide
  rw [srRead, BitVec.getLsbD_and, hm]

/-- What a software write leaves in SR: DC, N, OV, Z, C take the word, RA keeps, IPL<2:0> keeps under NSTDIS (R24,
R25). -/
theorem getLsbD_srWritten (nstdis : Bool) (old v : Word) (i : Fin 16) :
    (srWritten nstdis old v).getLsbD i.val =
      if i.val = 8 ∨ i.val ≤ 3 then v.getLsbD i.val
      else if i.val = 4 then old.getLsbD 4
      else if i.val ≤ 7 then (if nstdis then old.getLsbD i.val else v.getLsbD i.val)
      else false := by
  have hm : ∀ j : Fin 16, (0x010F#16).getLsbD j.val = decide (j.val = 8 ∨ j.val ≤ 3) ∧
      (0x00F0#16).getLsbD j.val = decide (4 ≤ j.val ∧ j.val ≤ 7) ∧
      (0x01EF#16).getLsbD j.val = decide (j.val ≤ 8 ∧ j.val ≠ 4) ∧
      (0x0010#16).getLsbD j.val = decide (j.val = 4) := by decide
  obtain ⟨hflags, hkept, hall, hra⟩ := hm i
  unfold srWritten
  cases nstdis with
  | true => simp only [if_true, BitVec.getLsbD_or, BitVec.getLsbD_and, hflags, hkept]; grind
  | false => simp only [Bool.false_eq_true, if_false, BitVec.getLsbD_or, BitVec.getLsbD_and, hall, hra]; grind

theorem getLsbD_corconRead (corcon : Word) (i : Fin 16) :
    (corconRead corcon).getLsbD i.val = (corcon.getLsbD i.val && (decide (i.val = 2) || decide (i.val = 3))) := by
  have hm : ∀ j : Fin 16, (0x000C#16).getLsbD j.val = (decide (j.val = 2) || decide (j.val = 3)) := by decide
  rw [corconRead, BitVec.getLsbD_and, hm]

/-- What a software write leaves in CORCON: PSV takes the bit, IPL3 can only be cleared (R27, R53 (c)). -/
theorem getLsbD_corconWritten (old v : Word) (i : Fin 16) :
    (corconWritten old v).getLsbD i.val =
      if i.val = 3 then old.getLsbD 3 && v.getLsbD 3 else if i.val = 2 then v.getLsbD 2 else false := by
  have hm : ∀ j : Fin 16, (0x0004#16).getLsbD j.val = decide (j.val = 2) ∧
      (0x0008#16).getLsbD j.val = decide (j.val = 3) := by decide
  obtain ⟨hpsv, hipl3⟩ := hm i
  simp only [corconWritten, BitVec.getLsbD_or, BitVec.getLsbD_and, hpsv, hipl3]
  grind

theorem getLsbD_intcon2Read (intcon2 : Word) (i : Fin 16) :
    (intcon2Read intcon2).getLsbD i.val =
      (intcon2.getLsbD i.val && (decide (i.val = 15) || decide (i.val = 14) || decide (i.val ≤ 4))) := by
  have hm : ∀ j : Fin 16, (0xC01F#16).getLsbD j.val =
      (decide (j.val = 15) || decide (j.val = 14) || decide (j.val ≤ 4)) := by decide
  rw [intcon2Read, BitVec.getLsbD_and, hm]

/-- What a software write leaves in INTCON2: ALTIVT and the edge bits take the word, DISI keeps (R34, R53 (b)). -/
theorem getLsbD_intcon2Written (old v : Word) (i : Fin 16) :
    (intcon2Written old v).getLsbD i.val =
      if i.val = 14 then old.getLsbD 14 else (v.getLsbD i.val && (decide (i.val = 15) || decide (i.val ≤ 4))) := by
  have hm : ∀ j : Fin 16, (0x801F#16).getLsbD j.val = (decide (j.val = 15) || decide (j.val ≤ 4)) ∧
      (0x4000#16).getLsbD j.val = decide (j.val = 14) := by decide
  obtain ⟨hsoft, hdisi⟩ := hm i
  simp only [intcon2Written, BitVec.getLsbD_or, BitVec.getLsbD_and, hsoft, hdisi]
  grind

/-! ### The bits of implemented vectors (R44, R45) -/

/-- Bit x of IFSn or IECn, masked, is that of vector 16 n + x. -/
theorem getLsbD_and_flagMask (c : Config) (v : Word) (n : Nat) (i : Fin 16) :
    (v &&& flagMask c n).getLsbD i.val = (v.getLsbD i.val && implemented c (16 * n + i.val)) := by
  rw [BitVec.getLsbD_and, flagMask, getLsbD_maskOf]
  simp only [i.isLt, decide_true, Bool.true_and]

/-- Bit b of nibble j of IPCn, masked, is that of vector 4 n + j, and bit 3 is none. -/
theorem getLsbD_and_priMask (c : Config) (v : Word) (n : Nat) (j b : Fin 4) :
    (v &&& priMask c n).getLsbD (4 * j.val + b.val) =
      (v.getLsbD (4 * j.val + b.val) && decide (b.val ≠ 3) && implemented c (4 * n + j.val)) := by
  have hlt : 4 * j.val + b.val < 16 := by omega
  have hb : (4 * j.val + b.val) % 4 = b.val := by omega
  have hj : (4 * j.val + b.val) / 4 = j.val := by omega
  rw [BitVec.getLsbD_and, priMask, getLsbD_maskOf, hb, hj, Bool.and_assoc, decide_eq_true hlt, Bool.true_and]
  simp [bne, beq_eq_decide]

/-- Only vectors of the table are implemented. -/
theorem lt_of_implemented {c : Config} {v : Nat} (h : implemented c v = true) : v < 118 := by
  by_contra hv
  simp [implemented, hv] at h

theorem bankGet_fin {n : Nat} (b : Vector Word n) (i : Fin n) : bankGet b i.val = b[i] := by
  simp [bankGet]

theorem intFlag_of_implemented {s : State} {v : Nat} (h : implemented s.cfg v = true) :
    intFlag s v = (bankGet s.ifs (v / 16)).getLsbD (v % 16) := by simp [intFlag, h]

theorem intEnable_of_implemented {s : State} {v : Nat} (h : implemented s.cfg v = true) :
    intEnable s v = (bankGet s.iec (v / 16)).getLsbD (v % 16) := by simp [intEnable, h]

theorem intPri_of_implemented {s : State} {v : Nat} (h : implemented s.cfg v = true) :
    intPri s v = (bankGet s.ipc (v / 4)).extractLsb' (4 * (v % 4)) 3 := by simp [intPri, h]

/-- Setting a flag by hardware writes the IFS registers alone. -/
theorem setIntFlag_eq (s : State) (v : Nat) : setIntFlag s v = { s with ifs := (setIntFlag s v).ifs } := by
  unfold setIntFlag
  split
  · split <;> rfl
  · rfl

/-- Setting the flag of a vector sets that one and keeps every other (R38). -/
theorem intFlag_setIntFlag {s : State} {v : Nat} (h : implemented s.cfg v = true) (u : Nat) :
    intFlag (setIntFlag s v) u = (decide (u = v) || intFlag s u) := by
  have hv := lt_of_implemented h
  have hset : setIntFlag s v = { s with ifs := s.ifs.set (v / 16) (withBit s.ifs[v / 16] (v % 16) true) } := by
    simp [setIntFlag, hv, h]
  rw [hset]
  by_cases hu : implemented s.cfg u = true
  · have hu' := lt_of_implemented hu
    have h8 : u / 16 < 8 := by omega
    simp only [intFlag, hu, Bool.true_and, bankGet, dif_pos h8]
    by_cases hn : v / 16 = u / 16
    · have huv : (u % 16 = v % 16 ∧ v % 16 < 16) ↔ u = v := by omega
      simp only [hn, Vector.getElem_set_self, getLsbD_withBit, huv]
      by_cases e : u = v <;> simp [e]
    · have huv : u ≠ v := fun e => hn (by rw [e])
      simp [Vector.getElem_set_ne _ _ hn, huv]
  · have huv : u ≠ v := fun e => hu (e ▸ h)
    simp [intFlag, hu, huv]

/-- An interrupt that is selected is eligible (R189). -/
theorem eligible_of_select {s : State} {v : Nat} (h : select s = some (.int v)) : EligibleInt s v := by
  unfold select at h
  split at h
  · exact nomatch h
  · obtain ⟨u, hu, hv⟩ := Option.map_eq_some_iff.1 h
    cases hv
    have hb := selectInt_best s
    rw [hu] at hb
    obtain ⟨-, he, -⟩ := hb
    exact he

end Sys2Proof.Machine
end

section
/-! PROOFS. The statements about the registers, the vectors' bits and the state after reset (spec/10_state.md). -/

namespace Sys2Proof.Machine

/-! ### The state after reset (R54) -/

/-- Settles O60. -/
theorem resetStateHoldsTheSpecsValues : Obligations.ResetStateHoldsTheSpecsValues := by
  refine ⟨rfl, rfl, rfl, rfl, rfl, rfl, rfl, rfl, rfl, ?_, ?_⟩
  · decide
  · decide

/-- Settles O56: every register but the priorities is 0, and those are 4 at implemented vectors. -/
theorem resetStateMeetsTheInvariant : Obligations.ResetStateMeetsTheInvariant where
  pcEven := by decide
  spEven := by decide
  srBits := by decide
  corconBits := by decide
  intcon1Bits := by decide
  intcon2Bits := by decide
  ifsBits _ := by simp [State.reset]
  iecBits _ := by simp [State.reset]
  ipcBits := by decide
  disiCounts := by decide
  strayOutside := by decide
  memWf := memory_wf_reset

/-! ### Interrupt vectors (R38, R44, R45) -/

/-- Settles O10: the quotient of the vector's number names the register, the remainder the bit. -/
theorem vectorBitsStandWhereTheMapSays : Obligations.VectorBitsStandWhereTheMapSays := by
  intro s n x h
  have hn : (16 * n.val + x.val) / 16 = n.val := by omega
  have hx : (16 * n.val + x.val) % 16 = x.val := by omega
  refine ⟨?_, ?_, fun k j b hkj => ?_⟩
  · rw [intFlag_of_implemented h, hn, hx, bankGet_fin]
  · rw [intEnable_of_implemented h, hn, hx, bankGet_fin]
  · have hk : (16 * n.val + x.val) / 4 = k.val := by omega
    have hj : (16 * n.val + x.val) % 4 = j.val := by omega
    rw [intPri_of_implemented h, hk, hj, bankGet_fin]
    simp

/-- Settles O11: a vector outside ImplVec has no flag, so it is not eligible. -/
theorem unimplementedVectorsNeverRequest : Obligations.UnimplementedVectorsNeverRequest := by
  intro s v h
  have hflag : intFlag s v = false := by simp [intFlag, h]
  refine ⟨hflag, by simp [intEnable, h], by simp [intPri, h], fun hs => ?_⟩
  obtain ⟨hset, -⟩ := eligible_of_select hs
  rw [hflag] at hset
  exact nomatch hset

/-- Settles O53. -/
theorem peripheralSetsItsFlagOnly : Obligations.PeripheralSetsItsFlagOnly := by
  intro s v rest hs hv
  have hstep : step s = .next (setIntFlag { s with schedule := rest } v) := by
    simp [step, turnStep, hs, agentStep]
  exact ⟨_, hstep, intFlag_setIntFlag (s := { s with schedule := rest }) hv, setIntFlag_eq _ v⟩

/-! ### Software writes and reads of the registers (R53) -/

/-- Settles O40. -/
theorem softwareWriteOfTheStatusRegisters : Obligations.SoftwareWriteOfTheStatusRegisters := by
  intro s a v hd
  refine ⟨fun hr => ?_, fun hr => ?_, fun hr => ?_, fun hr => ?_, fun n hn hr => ?_, fun hr => ?_, fun hr => ?_⟩
  · exact ⟨_, storeAt_register v hd hr, getLsbD_srWritten s.nstdis s.sr v⟩
  · exact ⟨_, readData_register hr, getLsbD_srRead s.sr⟩
  · exact ⟨_, readData_register hr, getLsbD_corconRead s.corcon⟩
  · exact readData_register hr
  · rw [readData_register hr, storeAt_register v hd hr]
    simp [readSfr, readW, writeSfr, writeW, hn]
  · rw [readData_register hr, storeAt_register v hd hr]
    refine ⟨rfl, ?_⟩
    show setSp v s = _
    unfold setSp
    dsimp only
    split <;> rfl
  · exact ⟨_, storeAt_register v hd hr, getLsbD_corconWritten s.corcon v⟩

/-- Settles O41. -/
theorem softwareWriteOfTheInterruptControls : Obligations.SoftwareWriteOfTheInterruptControls := by
  intro s a v hd
  refine ⟨fun hr => ?_, fun hr => ?_, fun hr => ?_, fun hr hs => ?_, fun hr => ?_, fun hr => ?_, fun hr => ?_⟩
  · have hw : storeAt .word a v s = { s with intcon1 := v &&& 0x801E#16 } := storeAt_register v hd hr
    rw [hw, readData_register (s := { s with intcon1 := v &&& 0x801E#16 }) hr]
    simp [readSfr, intcon1Bits, BitVec.and_assoc]
  · exact ⟨storeAt_register v hd hr, readData_register hr⟩
  · exact ⟨_, readData_register hr, getLsbD_intcon2Read s.intcon2⟩
  · rw [readData_register hr]
    simp [readSfr, hs]
  · exact ⟨storeAt_register v hd hr, _, readData_register hr, getLsbD_withBit_same (by decide) _ _⟩
  · exact ⟨storeAt_register v hd hr, _, readData_register hr, getLsbD_withBit_same (by decide) _ _⟩
  · refine ⟨_, storeAt_register v hd hr, getLsbD_intcon2Written s.intcon2 v 14, fun i hi => ?_⟩
    rw [getLsbD_intcon2Written, if_neg hi]

/-- Settles O42. -/
theorem softwareWriteOfTheVectorRegisters : Obligations.SoftwareWriteOfTheVectorRegisters := by
  intro s a v hd
  refine ⟨fun n hr => ?_, fun n hr => ?_, fun n hr => ?_, fun n hr => ?_, fun n hr => ?_, fun n hr => ?_⟩
  · exact ⟨_, storeAt_register v hd hr, getLsbD_and_flagMask s.cfg v n⟩
  · exact ⟨_, storeAt_register v hd hr, getLsbD_and_flagMask s.cfg v n⟩
  · exact ⟨_, storeAt_register v hd hr, getLsbD_and_priMask s.cfg v n⟩
  · exact ⟨_, readData_register hr, getLsbD_and_flagMask s.cfg s.ifs[n] n⟩
  · exact ⟨_, readData_register hr, getLsbD_and_flagMask s.cfg s.iec[n] n⟩
  · exact ⟨_, readData_register hr, getLsbD_and_priMask s.cfg s.ipc[n] n⟩

/-- Settles O43: both bytes of SPLIM belong to the word at its even address, and only a word write arms the check. -/
theorem onlyAWordWriteArmsTheStackLimit : Obligations.OnlyAWordWriteArmsTheStackLimit := by
  intro s a v ha hr
  refine ⟨?_, ?_, ?_⟩
  · simp [writeData, hr, writeSfr]
  · simp [writeData, wordBase_even ha, hr, writeSfr, readSfr, withByteAt_even ha]
  · simp [writeData, wordBase_odd ha, hr, writeSfr, readSfr, withByteAt_odd]

end Sys2Proof.Machine
end

section
/-! PROOFS. What data accesses and stack accesses raise, and what they leave alone (spec/20_memory.md R85 to R90,
spec/60_exceptions.md R197, R199). -/

namespace Sys2Proof.Machine

/-! ### A word of data memory (R85, R86) -/

/-- Where no register stands, a word written goes to data memory. -/
theorem writeData_memory {s : State} {a : Word} (v : Word) (h : sfrAt s.cfg a = none) :
    writeData .word a v s = setRamWord a v s := by
  simp [writeData, h]

/-- The low byte of a word written stands at its even address. -/
theorem cellGet_setRamWord_low {a : Word} (v : Word) (s : State) (h : a.getLsbD 0 = false) :
    cellGet (setRamWord a v s).mem a.toNat = some (v.extractLsb' 0 8) := by
  have hn := nextByte_toNat a h
  show cellGet (cellSet (cellSet s.mem a.toNat _) (nextByte a).toNat _) a.toNat = _
  rw [cellGet_cellSet_other _ _ _ _ (by omega), cellGet_cellSet_same]

/-- The high byte stands at the next address. -/
theorem cellGet_setRamWord_high {a : Word} (v : Word) (s : State) (h : a.getLsbD 0 = false) :
    cellGet (setRamWord a v s).mem (a.toNat + 1) = some (v.extractLsb' 8 8) := by
  rw [← nextByte_toNat a h]
  exact cellGet_cellSet_same _ _ _

/-! ### The error flags an access can set (R87, R88, R90) -/

/-- Whether an address error is a conflict rests on the oscillator's flag and the CPU priority (R197). -/
theorem trapConflict_congr {s t : State} (hf : trapFlag .oscillatorFailure t = trapFlag .oscillatorFailure s)
    (hp : t.cpuPri = s.cpuPri) : trapConflict .addressError t = trapConflict .addressError s := by
  rw [Bool.eq_iff_iff, trapConflict_addressError, trapConflict_addressError, hf, hp]

/-- `t` is `s` but for ADDRERR, STKERR and the free values taken, with STKERR not cleared. -/
structure ErrorsOnly (s t : State) : Prop where
  frame : t = { s with intcon1 := t.intcon1, draws := t.draws }
  bits : ∀ i, i ≠ 2 → i ≠ 3 → t.intcon1.getLsbD i = s.intcon1.getLsbD i
  stack : trapFlag .stackError s = true → trapFlag .stackError t = true

namespace ErrorsOnly

theorem refl (s : State) : ErrorsOnly s s := ⟨rfl, fun _ _ _ => rfl, id⟩

theorem trans {s t u : State} (h : ErrorsOnly s t) (h' : ErrorsOnly t u) : ErrorsOnly s u where
  frame := by
    have ht := h.frame
    have hu := h'.frame
    rw [ht] at hu
    exact hu
  bits i h2 h3 := (h'.bits i h2 h3).trans (h.bits i h2 h3)
  stack hs := h'.stack (h.stack hs)

theorem setAddressError (s : State) : ErrorsOnly s (setTrapFlag .addressError s) where
  frame := rfl
  bits i _ h3 := by simp [trapBit, h3]
  stack h := by
    rw [trapFlag, setTrapFlag_intcon1, getLsbD_withBit, if_neg (by decide)]
    exact h

theorem raiseStack (s : State) : ErrorsOnly s (raiseStack s) where
  frame := rfl
  bits i h2 _ := by simp [h2]
  stack _ := by simp [trapFlag, trapBit]

theorem drawn {s t : State} (d : Nat) (h : ErrorsOnly s t) : ErrorsOnly s { t with draws := d } :=
  h.trans ⟨rfl, fun _ _ _ => rfl, id⟩

theorem limitCheckIf (via : Bool) (a : Word) (s : State) : ErrorsOnly s (if via then limitCheck a s else s) := by
  split
  · unfold limitCheck
    split
    · exact raiseStack s
    · exact refl s
  · exact refl s

theorem raiseAddressIf {b : Bool} {s t : State} (h : raiseAddressIf b s = .ok t) : ErrorsOnly s t := by
  rcases raiseAddressIf_ok h with ⟨-, rfl⟩ | ⟨-, rfl, -⟩
  · exact refl _
  · exact setAddressError s

/-- A data read sets no more than the error flags. -/
theorem load {w : Width} {via bm bad : Bool} {a v : Word} {s t : State} (h : load w via bm a s = .ok (v, bad, t)) :
    ErrorsOnly s t := by
  obtain ⟨-, u, hu, ht, -⟩ := load_ok h
  rw [ht]
  exact ((raiseAddressIf hu).trans (limitCheckIf via a u)).drawn _

/-- Neither the priority nor the oscillator's flag changes. -/
theorem trapConflict {s t : State} (h : ErrorsOnly s t) :
    trapConflict .addressError t = trapConflict .addressError s :=
  trapConflict_congr (h.bits 1 (by decide) (by decide)) (by rw [h.frame]; rfl)

end ErrorsOnly

/-- A misaligned write, its address error pending, raises it and writes nothing (R87). -/
theorem store_misaligned {w : Width} {via bm inh : Bool} {a v : Word} {s : State} (hp : addressErrorPends s)
    (hm : misaligned w bm a = true) : store w via bm a v inh s =
      .ok (true, if via then limitCheck a (setTrapFlag .addressError s) else setTrapFlag .addressError s) := by
  have hr : raiseAddressIf true s = .ok (setTrapFlag .addressError s) := raiseHard_pends hp
  simp [store, hm, hr]

/-- An offending read, its address error pending, raises it and delivers a free value (R87, R88). -/
theorem load_offending {w : Width} {via bm : Bool} {a : Word} {s : State} (hp : addressErrorPends s)
    (hb : misaligned w bm a = true ∨ dataImpl s a = false) : load w via bm a s =
      .ok (Config.freeWord s.draws, true,
        { (if via then limitCheck a (setTrapFlag .addressError s) else setTrapFlag .addressError s) with
          draws := s.draws + 1 }) := by
  have hr : raiseAddressIf true s = .ok (setTrapFlag .addressError s) := raiseHard_pends hp
  have hbad : (misaligned w bm a || !dataImpl s a) = true := by simpa using hb
  cases via <;> simp [load, hbad, hr, drawWord]

/-- ADDRERR raised stays set through the SPLIM check. -/
theorem addressError_limitCheckIf (via : Bool) (a : Word) (s : State) : trapFlag .addressError
    (if via then limitCheck a (setTrapFlag .addressError s) else setTrapFlag .addressError s) = true := by
  have hset : trapFlag .addressError (setTrapFlag .addressError s) = true := by simp [trapFlag, trapBit]
  split
  · unfold limitCheck
    split
    · simp [trapFlag, trapBit]
    · exact hset
  · exact hset

/-! ### STKERR and W15 (R90, R193) -/

theorem stackError_raiseStack (s : State) : trapFlag .stackError (raiseStack s) = true := by
  simp [trapFlag, trapBit]

/-- When STKERR is set after W15 was. -/
theorem stackError_setSp (v : Word) (s : State) : trapFlag .stackError (setSp v s) = true ↔
    v &&& 0xFFFE#16 < 0x0800#16 ∨ trapFlag .stackError s = true := by
  unfold trapFlag
  rw [setSp_intcon1]
  split <;> rename_i h <;> simp [h, trapBit]

/-- When STKERR is set after the SPLIM check. -/
theorem stackError_limitCheck (a : Word) (s : State) : trapFlag .stackError (limitCheck a s) = true ↔
    (s.splimEnabled = true ∧ s.splim < a) ∨ trapFlag .stackError s = true := by
  have hc : (s.splimEnabled && decide (s.splim < a)) = true ↔ s.splimEnabled = true ∧ s.splim < a := by simp
  unfold trapFlag
  rw [limitCheck_intcon1, ← hc]
  split <;> rename_i h <;> simp [h, trapBit]

/-- A push to data memory: the SPLIM check, the word, and W15 up by 2. -/
theorem pushWord_memory {s : State} (v : Word) (h : plainWord s s.sp) :
    pushWord false v s =
      let t := setSp (s.sp + 2#16) (setRamWord s.sp v (limitCheck s.sp s))
      if 0x10000 ≤ s.sp.toNat + 2 then raiseStack t else t := by
  obtain ⟨-, hd, hr⟩ := h
  have hd' : dataImpl (limitCheck s.sp s) s.sp = true := by simpa [dataImpl] using hd
  have hr' : sfrAt (limitCheck s.sp s).cfg s.sp = none := by simpa using hr
  have hsp : (setRamWord s.sp v (limitCheck s.sp s)).sp = s.sp := by simp [State.sp, setRamWord]
  simp [pushWord, storeAt, hd', writeData_memory v hr', hsp]

end Sys2Proof.Machine
end

section
/-! PROOFS. The statements about program memory, its vectors and data accesses (spec/20_memory.md R81 to R89, R96). -/

namespace Sys2Proof.Machine

/-! ### Program memory (R96) -/

/-- `t` has the program memory, the declared effects and the configuration of `s`. -/
def SameImage (s t : State) : Prop := t.prog = s.prog ∧ t.others = s.others ∧ t.cfg = s.cfg

theorem sameImage_writeSfr {s u : State} (r : Sfr) (b : Bool) (v : Word) (h : SameImage s u) :
    SameImage s (writeSfr r b v u) := by
  obtain ⟨hp, ho, hc, -⟩ := writeSfr_keeps r b v u
  unfold SameImage
  rw [hp, ho, hc]
  exact h

/-- No primitive update writes program memory. -/
theorem kept_sameImage (s : State) : Kept (SameImage s) where
  setTrapFlag _ _ h := h
  setPc _ _ h _ := h
  seqPc _ h := h
  hidden _ _ _ _ _ _ h := h
  tick u c h := by simpa [SameImage] using h
  setSp u v h := by simpa [SameImage] using h
  writeSfr _ r b v h := sameImage_writeSfr r b v h
  setRamByte _ _ _ h := h
  setIpl _ _ h := h
  openWindow _ _ h := h
  setIntFlag u v h := by simpa [SameImage] using h
  deviceReset _ _ h := h

/-- Settles O58: neither a primitive update, nor restoring a frame's status word, nor writing a trap's priority writes
program memory. -/
theorem stepKeepsTheProgramImage : Obligations.StepKeepsTheProgramImage := fun s t ht =>
  (kept_sameImage s).step ⟨rfl, rfl, rfl⟩ (fun _ _ _ hu => hu) (fun _ _ _ _ hu => hu) t ht

/-- A CPU that is awake with no exception selected executes the instruction at pc (R223). -/
theorem cpuStep_executes {s : State} (hm : s.cpuMode = .run) (hs : select s = none) :
    cpuStep s = executeNext { s with ackDefer := 0 } := by
  unfold cpuStep awakeStep
  rw [hm, hs]

/-- A fetch from an unimplemented address sets ADDRERR, its trap pending, and ends the step (R89). -/
theorem executeNext_unimplemented {s : State} (hp : progImpl s s.pc = false) (ha : addressErrorPends s) :
    executeNext s = .next { s with intcon1 := withBit s.intcon1 3 true } := by
  have hf : fetch s = fetchUnimplemented s.pc s := by
    unfold fetch
    rw [hp, if_neg Bool.false_ne_true]
  unfold executeNext
  rw [hf, fetchUnimplemented, raiseHard_pends (s := { s with pc := s.pc }) ha]

/-- Settles O6. -/
theorem nothingExecutesFromUnimplementedMemory : Obligations.NothingExecutesFromUnimplementedMemory := by
  intro s t ht hm hs hp ha
  rw [step_of_cpuTurn ht]
  rcases ht with ⟨-, rfl⟩ | ⟨rest, -, rfl⟩
  · exact (cpuStep_executes hm hs).trans (executeNext_unimplemented hp ha)
  · exact (cpuStep_executes (s := { s with schedule := rest }) hm hs).trans (executeNext_unimplemented hp ha)

/-! ### Vectors (R83, R84) -/

/-- Settles O15. -/
theorem vectorAddressFormulae : Obligations.VectorAddressFormulae := fun _ =>
  ⟨fun _ _ => rfl, fun _ _ => rfl, rfl, rfl, rfl, rfl, fun _ => rfl⟩

/-- The number of an exception's slot in its table, counted from trap vector 0 (R83). -/
def slotIndex : Exc → Nat
  | .trap t => trapNumber t
  | .int v => 8 + v

theorem vectorAddr_eq (e : Exc) (s : State) : vectorAddr e s = tableBase s + 2 * slotIndex e := by
  cases e with
  | trap t => rfl
  | int v => simp only [vectorAddr, interruptVectorAddr, slotIndex]; omega

theorem trapNumber_injective {t u : Trap} (h : trapNumber t = trapNumber u) : t = u := by
  cases t <;> cases u <;> simp_all [trapNumber]

theorem trapNumber_lt (t : Trap) : trapNumber t < 8 := by cases t <;> decide

/-- The slots of the traps stand below those of the interrupts, so no two exceptions share a number. -/
theorem slotIndex_injective {e e' : Exc} (h : slotIndex e = slotIndex e') : e = e' := by
  cases e with
  | trap t =>
    have ht := trapNumber_lt t
    cases e' with
    | trap u => rw [trapNumber_injective h]
    | int v => simp only [slotIndex] at h; omega
  | int v =>
    cases e' with
    | trap u =>
      have hu := trapNumber_lt u
      simp only [slotIndex] at h; omega
    | int v' =>
      simp only [slotIndex] at h
      rw [Nat.add_left_cancel h]

theorem slotIndex_le {e : Exc} (h : ∀ v, e = .int v → v < 118) : slotIndex e ≤ 125 := by
  cases e with
  | trap t => have := trapNumber_lt t; simp only [slotIndex]; omega
  | int v => have := h v rfl; simp only [slotIndex]; omega

/-- Settles O16: the address of a slot is a table's base and twice a number from 0 to 125, one for each exception. -/
theorem vectorSlotsAreDistinct : Obligations.VectorSlotsAreDistinct := by
  intro s e e' he he'
  have hle := slotIndex_le he
  rw [vectorAddr_eq, vectorAddr_eq]
  refine ⟨fun h => slotIndex_injective (by omega), ?_, ?_⟩
  · unfold tableBase; split <;> omega
  · exact Nat.le_add_right _ _

/-- What a push to data memory leaves: W15 up by 2, and the tables and the configuration as they are. -/
theorem pushWord_memory_keeps {s : State} (v : Word) (h : plainWord s s.sp) :
    (pushWord false v s).sp = s.sp + 2#16 ∧ (pushWord false v s).prog = s.prog ∧
    (pushWord false v s).intcon2 = s.intcon2 ∧ (pushWord false v s).cfg = s.cfg := by
  have he := and_even_of_even (even_add_two (sp_even s))
  have hr : ∀ u : State, (raiseStack u).sp = u.sp := fun _ => rfl
  rw [pushWord_memory v h]
  dsimp only
  split <;> simp [setRamWord, hr, he]

/-- Settles O23: the pushes of the frame leave the slot where it was. -/
theorem badVectorIsRefused : Obligations.BadVectorIsRefused := by
  rintro s e vec ⟨-, -, hlow, hhigh⟩ hvec hbad
  obtain ⟨hsp, hp1, hi1, hc1⟩ := pushWord_memory_keeps (frameLow s) hlow
  have hplain : plainWord (pushWord false (frameLow s) s) (pushWord false (frameLow s) s).sp := by
    unfold plainWord dataImpl
    rw [hsp, hc1]
    exact hhigh
  obtain ⟨-, hp2, hi2, -⟩ := pushWord_memory_keeps (frameHigh s) hplain
  unfold enter
  dsimp only
  generalize pushWord false (frameHigh s) (pushWord false (frameLow s) s) = u at hp2 hi2 ⊢
  have hslot : vectorAddr e (setEntryPri e (entryIpl e s) u) = vectorAddr e s := by
    rw [vectorAddr_eq, vectorAddr_eq]
    simp [tableBase, State.altivt, hi2, hi1]
  have hread : progRead (vectorAddr e s) (setEntryPri e (entryIpl e s) u) = .ok vec := by
    simp [progRead, hp2, hp1, hvec]
  have hrefuse : (vec.getLsbD 23 || vec.getLsbD 0) = true := by simpa using hbad
  rw [hslot, hread, ok_bind, if_pos hrefuse]

/-! ### Data accesses (R85 to R90) -/

/-- Settles O46. -/
theorem dataWordReadsBackLittleEndian : Obligations.DataWordReadsBackLittleEndian := by
  rintro s a v ⟨he, -, hr⟩
  rw [writeData_memory v hr]
  refine ⟨?_, cellGet_setRamWord_low v s he, cellGet_setRamWord_high v s he, fun x => cellGet_setRamWord_other a v s x he⟩
  simp [readData, hr, ramWord_setRamWord_same a v s he]

/-- Settles O47. -/
theorem offendingAccessRaisesTheAddressError : Obligations.OffendingAccessRaisesTheAddressError := by
  intro s w a v via bm inhibited hp
  have herr := addressError_limitCheckIf via a s
  have hmis : ∀ h : a.getLsbD 0 = true, (w = .word ∨ bm = true) → misaligned w bm a = true := fun h hw => by
    simpa [misaligned, h] using hw
  have honly := (ErrorsOnly.setAddressError s).trans (.limitCheckIf via a (setTrapFlag .addressError s))
  have hd : (if via then limitCheck a (setTrapFlag .addressError s) else setTrapFlag .addressError s).draws = s.draws := by
    split <;> simp
  refine ⟨fun ha hw => ?_, fun hbad => ?_⟩
  · have hframe := honly.frame
    rw [hd] at hframe
    exact ⟨_, store_misaligned hp (hmis ha hw), herr, hframe, honly.bits⟩
  · have hbad' := hbad.imp_left fun h => hmis h.1 h.2
    exact ⟨_, load_offending hp hbad', herr, (honly.drawn (s.draws + 1)).frame, honly.bits⟩

/-- Settles O49. -/
theorem pushRaisesTheStackError : Obligations.PushRaisesTheStackError := by
  intro s v hp hclear
  have he := and_even_of_even (even_add_two (sp_even s))
  have hset : ∀ u : State, trapFlag .stackError (setRamWord s.sp v u) = trapFlag .stackError u := fun _ => rfl
  have hmem : (setRamWord s.sp v (limitCheck s.sp s)).mem = (setRamWord s.sp v s).mem := by simp [setRamWord, setRamByte]
  rw [pushWord_memory v hp]
  dsimp only
  split <;> rename_i hw
  · exact ⟨by simp [stackError_raiseStack, hw], by simpa using hmem⟩
  · refine ⟨?_, by simpa using hmem⟩
    rw [stackError_setSp, he, hset, stackError_limitCheck, hclear]
    simp [hw, or_comm]

end Sys2Proof.Machine
end

section
/-! PROOFS. Pops from below the floor or above SPLIM: `POP`, `RETURN` and `RETFIE` complete with STKERR set
(spec/20_memory.md R90, spec/60_exceptions.md R193, R213). -/

namespace Sys2Proof.Machine

/-! ### Pops of words that are there to read -/

/-- `s` after pops through W15 that end at `a`, with STKERR set. -/
abbrev raisedPop (s : State) (a : Word) : State :=
  { s with w := s.w.set 15 a, intcon1 := withBit s.intcon1 2 true }

/-- A pop that raises nothing reads its word and moves W15. -/
theorem popWord_quiet {s : State} {v : Word} (h : holdsWord s (s.sp - 2#16) v) (hr : ¬ popRaises s (s.sp - 2#16)) :
    popWord s = .ok (v, false, { s with w := s.w.set 15 (s.sp - 2#16) }) := by
  have he := even_sub_two (sp_even s)
  obtain ⟨hfloor, hl⟩ := not_or.1 hr
  have hfloor : 0x0800 ≤ (s.sp - 2#16).toNat := by simpa [BitVec.lt_def] using hfloor
  unfold popWord
  rw [setSp_ok he hfloor]
  dsimp only
  rw [setSp_sp_even he]
  exact load_holds (s := { s with w := s.w.set 15 (s.sp - 2#16) }) h (Classical.not_not.1 hl)

/-- The second pop of a frame, INTCON1 being `x` after the first: it reads its word, and sets STKERR if it raises it. -/
theorem popWord_second {s : State} {low : Word} (x : Word) (h : holdsWord s (s.sp - 4#16) low) :
    (popRaises s (s.sp - 4#16) → popWord { s with w := s.w.set 15 (s.sp - 2#16), intcon1 := x } =
      .ok (low, false, { s with w := s.w.set 15 (s.sp - 4#16), intcon1 := withBit x 2 true })) ∧
    (¬ popRaises s (s.sp - 4#16) → popWord { s with w := s.w.set 15 (s.sp - 2#16), intcon1 := x } =
      .ok (low, false, { s with w := s.w.set 15 (s.sp - 4#16), intcon1 := x })) := by
  have hsp : State.sp { s with w := s.w.set 15 (s.sp - 2#16), intcon1 := x } - 2#16 = s.sp - 4#16 := by
    have h2 : State.sp { s with w := s.w.set 15 (s.sp - 2#16), intcon1 := x } = s.sp - 2#16 :=
      setSp_sp_even (even_sub_two (sp_even s))
    rw [h2, BitVec.sub_sub]
    rfl
  constructor <;> intro hr
  · rw [popWord_raises (v := low) (by rw [hsp]; exact h) (by rw [hsp]; exact hr), hsp]
    simp
  · rw [popWord_quiet (v := low) (by rw [hsp]; exact h) (by rw [hsp]; exact hr), hsp]
    simp

/-- A frame of which one pop or both raise the stack error is read whole. -/
theorem popFrame_raises {s : State} {high low : Word} (h : holdsWord s (s.sp - 2#16) high)
    (h' : holdsWord s (s.sp - 4#16) low) (hr : popRaises s (s.sp - 2#16) ∨ popRaises s (s.sp - 4#16)) :
    popFrame s = .ok (high, false, low, raisedPop s (s.sp - 4#16)) := by
  unfold popFrame
  by_cases h1 : popRaises s (s.sp - 2#16)
  · obtain ⟨hraise, hquiet⟩ := popWord_second (withBit s.intcon1 2 true) h'
    rw [popWord_raises h h1, ok_bind]
    dsimp only
    by_cases h2 : popRaises s (s.sp - 4#16)
    · rw [hraise h2, withBit_withBit]; rfl
    · rw [hquiet h2]; rfl
  · obtain ⟨hraise, -⟩ := popWord_second s.intcon1 h'
    rw [popWord_quiet h h1, ok_bind]
    dsimp only
    rw [hraise (hr.resolve_left h1)]
    rfl

/-! ### What completes them -/

/-- A write keeps pc and the configuration. -/
theorem writeData_word_keeps (a v : Word) (s : State) :
    (writeData .word a v s).pc = s.pc ∧ (writeData .word a v s).cfg = s.cfg := by
  cases hr : sfrAt s.cfg a with
  | some r =>
    obtain ⟨-, -, hcfg, -, -, hpc, -⟩ := writeSfr_keeps r true v s
    simpa [writeData, hr] using ⟨hpc, hcfg⟩
  | none => rw [writeData_memory v hr]; exact ⟨rfl, rfl⟩

/-- A word stored at an even implemented address (R156). -/
theorem storeFile_implemented {s : State} {f : Word} (v : Word) (he : f.getLsbD 0 = false) (hd : dataImpl s f = true) :
    storeFile f v false s = .ok (writeData .word f v s) := by
  simp [storeFile, store, misaligned_even he, storeAt, hd]

/-- A return to an implemented address (R154). -/
theorem jump_framePc {s : State} {high low : Word} (h : progImpl s (framePc high low) = true) :
    jump (framePc high low) s = .ok { s with pc := framePc high low } := by
  have he := evenTarget_of_even (framePc_even high low)
  rw [jump_implemented (by rw [he]; exact h), he]

/-- `POP` of a word from below the floor or above SPLIM. -/
theorem execPop_raises {s : State} {f v : Word} (hf : f.getLsbD 0 = false) (hd : dataImpl s f = true)
    (hn : nextImplemented s) (h : holdsWord s (s.sp - 2#16) v) (hr : popRaises s (s.sp - 2#16)) :
    execPop f s = .next (tick s.cfg.cycles.pop
      { writeData .word f v (raisedPop s (s.sp - 2#16)) with pc := s.pc + 2#23 }) := by
  obtain ⟨hpc, hcfg⟩ := writeData_word_keeps f v (raisedPop s (s.sp - 2#16))
  unfold execPop
  rw [popWord_raises h hr, ok_bind]
  dsimp only
  rw [storeFile_implemented (s := raisedPop s (s.sp - 2#16)) v hf hd, ok_bind]
  generalize writeData .word f v _ = u at hpc hcfg ⊢
  have hnext : nextImplemented u := by
    unfold nextImplemented progImpl
    rw [hpc, hcfg]
    exact hn
  rw [advance_of_next hnext, hpc]
  rfl

section
variable {s : State} {high low : Word} (h : holdsWord s (s.sp - 2#16) high) (h' : holdsWord s (s.sp - 4#16) low)
  (hr : popRaises s (s.sp - 2#16) ∨ popRaises s (s.sp - 4#16)) (hp : progImpl s (framePc high low) = true)
include h h' hr hp

/-- `RETURN` through a frame of which a pop raises the stack error. -/
theorem execReturn_raises : execReturn s = .next (tick s.cfg.cycles.ret
    { raisedPop s (s.sp - 4#16) with pc := framePc high low }) := by
  unfold execReturn
  rw [popFrame_raises h h' hr, ok_bind]
  dsimp only
  rw [jump_framePc (s := raisedPop s (s.sp - 4#16)) hp]
  rfl

/-- `RETFIE` through such a frame. -/
theorem execRetfie_raises (hra : high.getLsbD 12 = false) : execRetfie s = .next (tick 3
    { raisedPop s (s.sp - 4#16) with
      sr := s.sr.extractLsb' 8 8 ++ high.extractLsb' 8 8
      corcon := withBit s.corcon 3 (high.getLsbD 7)
      pc := framePc high low }) := by
  unfold execRetfie
  rw [returnFromException_of_frame (popFrame_raises h h' hr) hra,
    jump_framePc (s := restoreStatus high (raisedPop s (s.sp - 4#16))) hp]
  simp only [restoreStatus, clearRa_of_clear hra]
  rfl

end

/-! ### STKERR stays set short of a conflict (R193, R197) -/

/-- STKERR is set and an address error now would be no conflict. -/
def StackErrorStands (s : State) : Prop := trapFlag .stackError s = true ∧ trapConflict .addressError s = false

theorem StackErrorStands.errorsOnly {s t : State} (hs : StackErrorStands s) (h : ErrorsOnly s t) : StackErrorStands t :=
  ⟨h.stack hs.1, h.trapConflict.trans hs.2⟩

theorem trapConflict_setSp (v : Word) (s : State) :
    trapConflict .addressError (setSp v s) = trapConflict .addressError s := by
  have hf : trapFlag .oscillatorFailure (setSp v s) = trapFlag .oscillatorFailure s := by
    unfold trapFlag
    rw [setSp_intcon1]
    split
    · rw [getLsbD_withBit, if_neg (by decide)]
    · rfl
  exact trapConflict_congr hf (by simp [State.cpuPri, State.ipl3, State.ipl])

section
variable {P : State → Prop} {s : State} (hc : trapConflict .addressError s = false)
include hc

/-- Short of a conflict a pop that goes on has moved W15 and at most set error flags, and one that does not gives no
next state. -/
theorem leaves_popWord : Leaves P (fun r => ErrorsOnly (setSp (s.sp - 2#16) s) r.2.2) (popWord s) := by
  refine ⟨fun r hr => ErrorsOnly.load hr, fun t ht => ?_⟩
  rcases load_error ht with ⟨hconf, -⟩ | hr | ⟨f, hf⟩
  · rw [trapConflict_setSp, hc] at hconf; exact nomatch hconf
  · exact nomatch hr
  · exact nomatch hf

/-- Both pops of a frame, one of them from below the floor. -/
theorem leaves_popFrame (hfloor : s.sp - 2#16 < 0x0800#16 ∨ s.sp - 4#16 < 0x0800#16) :
    Leaves P (fun r => StackErrorStands r.2.2.2) (popFrame s) := by
  refine leaves_bind (leaves_popWord hc) fun r hr => ?_
  have hc1 : trapConflict .addressError r.2.2 = false := by rw [hr.trapConflict, trapConflict_setSp, hc]
  have he := and_even_of_even (even_sub_two (sp_even s))
  have hsp : r.2.2.sp = s.sp - 2#16 := by
    rw [hr.frame]
    exact (setSp_sp _ s).trans he
  have hsecond : trapFlag .stackError (setSp (r.2.2.sp - 2#16) r.2.2) = true := by
    rw [stackError_setSp, hsp, and_even_of_even (even_sub_two (even_sub_two (sp_even s)))]
    rcases hfloor with h | h
    · exact .inr (hr.stack ((stackError_setSp _ s).2 (.inl (by rw [he]; exact h))))
    · exact .inl (by rw [BitVec.sub_sub]; exact h)
  have hstands : StackErrorStands (setSp (r.2.2.sp - 2#16) r.2.2) := ⟨hsecond, (trapConflict_setSp _ _).trans hc1⟩
  exact leaves_bind (leaves_popWord hc1) fun r' hr' => leaves_ok (hstands.errorsOnly hr')

end

section
variable {P : State → Prop} {s : State} (hs : StackErrorStands s)
include hs

theorem leaves_jump (p : Pc) : Leaves P StackErrorStands (jump p s) := by
  have hpc : StackErrorStands { s with pc := evenTarget p } := hs
  constructor
  · intro t ht
    rcases jump_ok ht with ⟨-, rfl⟩ | ⟨-, rfl⟩
    · exact hpc
    · exact hpc.errorsOnly (.setAddressError _)
  · intro t ht
    rcases jump_error ht with ⟨hconf, -⟩ | hr
    · rw [hs.2] at hconf; exact nomatch hconf
    · exact nomatch hr

/-- A write to data memory, which is not INTCON1. -/
theorem leaves_storeFile {f : Word} (v : Word) (inh : Bool) (hf : sfrAt s.cfg f = none) :
    Leaves P StackErrorStands (storeFile f v inh s) := by
  refine leaves_map (Q := fun r => StackErrorStands r.2) ⟨fun r hr => ?_, fun t ht => ?_⟩ fun _ h => h
  · obtain ⟨-, u, hu, ht⟩ := store_ok hr
    have herr := ErrorsOnly.raiseAddressIf hu
    have hu' := hs.errorsOnly herr
    have hf' : sfrAt u.cfg f = none := by rw [herr.frame]; exact hf
    rw [ht]
    split
    · exact hu'
    · simp only [Bool.false_eq_true, if_false, storeAt, writeData_memory v hf']
      split
      · exact hu'
      · exact hu'
  · rcases store_error ht with ⟨hconf, -⟩ | hr
    · rw [hs.2] at hconf; exact nomatch hconf
    · exact nomatch hr

end

theorem stackError_tick {s : State} (c : Nat) (h : StackErrorStands s) : trapFlag .stackError (tick c s) = true := by
  rw [trapFlag, tick_intcon1]
  exact h.1

/-- `POP` to data memory from below the floor leaves STKERR set whenever it gives a next state. -/
theorem execPop_belowFloor {s : State} {f : Word} (hf : sfrAt s.cfg f = none)
    (hc : trapConflict .addressError s = false) (hfloor : s.sp - 2#16 < 0x0800#16) :
    Keeps (fun t => trapFlag .stackError t = true) (execPop f s) := by
  refine keeps_finish (leaves_bind (leaves_popWord hc) fun r hr => ?_)
  have he := and_even_of_even (even_sub_two (sp_even s))
  have hset : trapFlag .stackError (setSp (s.sp - 2#16) s) = true :=
    (stackError_setSp _ s).2 (.inl (by rw [he]; exact hfloor))
  have hstands : StackErrorStands r.2.2 := StackErrorStands.errorsOnly ⟨hset, (trapConflict_setSp _ s).trans hc⟩ hr
  have hf' : sfrAt r.2.2.cfg f = none := by rw [hr.frame]; simpa using hf
  exact leaves_bind (leaves_storeFile hstands _ _ hf') fun u hu =>
    leaves_bind (leaves_jump hu _) fun t ht => leaves_ok (stackError_tick _ ht)

/-- So does `RETURN`. -/
theorem execReturn_belowFloor {s : State} (hc : trapConflict .addressError s = false)
    (hfloor : s.sp - 2#16 < 0x0800#16 ∨ s.sp - 4#16 < 0x0800#16) :
    Keeps (fun t => trapFlag .stackError t = true) (execReturn s) :=
  keeps_finish (leaves_bind (leaves_popFrame hc hfloor) fun _ hr =>
    leaves_bind (leaves_jump hr _) fun _ ht => leaves_ok (stackError_tick _ ht))

/-- The CPU priority a frame restores (R131). -/
theorem cpuPri_restoreStatus (high : Word) (s : State) :
    (restoreStatus high s).cpuPri = BitVec.ofBool (high.getLsbD 7) ++ high.extractLsb' 13 3 := by
  have hipl3 : (restoreStatus high s).ipl3 = high.getLsbD 7 := getLsbD_withBit_same (by decide) s.corcon _
  have hipl : (restoreStatus high s).ipl = high.extractLsb' 13 3 := by
    rw [State.ipl, restoreStatus_sr]
    apply BitVec.eq_of_getLsbD_eq
    intro i hi
    have hm : ∀ j : Fin 3, (0xEF#8).getLsbD (5 + j.val) = true := by decide
    have hi8 : 5 + i < 8 := by omega
    have h13 : 8 + (5 + i) = 13 + i := by omega
    have hb := hm ⟨i, hi⟩
    simp only at hb
    simp [getLsbD_withSrl, hi, hi8, hb, h13]
  rw [State.cpuPri, hipl3, hipl]

/-- `RETFIE` does too, where the priority it restores is not above the address error's. -/
theorem execRetfie_belowFloor {s : State} (hc : trapConflict .addressError s = false)
    (hfloor : s.sp - 2#16 < 0x0800#16 ∨ s.sp - 4#16 < 0x0800#16) (hpri : ∀ p, restoresPri s p → ¬ 13#4 < p) :
    Keeps (fun t => trapFlag .stackError t = true) (execRetfie s) := by
  have hframe : Leaves (fun t => trapFlag .stackError t = true)
      (fun r => popFrame s = .ok r ∧ StackErrorStands r.2.2.2) (popFrame s) :=
    ⟨fun r hr => ⟨hr, (leaves_popFrame (P := fun _ => True) hc hfloor).1 r hr⟩, (leaves_popFrame hc hfloor).2⟩
  refine keeps_finish (leaves_map (Q := StackErrorStands) (leaves_bind hframe ?_) fun t ht => stackError_tick 3 ht)
  rintro ⟨high, bad, low, u⟩ ⟨hpop, hset, hconf⟩
  dsimp only
  split
  · exact leaves_error (keeps_refused _)
  · refine leaves_jump (s := restoreStatus high u) ⟨hset, ?_⟩ _
    rw [← Bool.not_eq_true, trapConflict_addressError, not_or, cpuPri_restoreStatus]
    rw [← Bool.not_eq_true, trapConflict_addressError, not_or] at hconf
    exact ⟨hconf.1, hpri _ ⟨high, bad, low, u, hpop, rfl⟩⟩

/-- Settles O50: the words that are there are popped and STKERR is set; whatever is there, STKERR stands until the end short
of a conflict. -/
theorem popBelowTheFloorRaisesTheStackError : Obligations.PopBelowTheFloorRaisesTheStackError := by
  refine ⟨fun s t f hf hc hfloor => execPop_belowFloor hf hc hfloor t, fun s t hc hfloor => ⟨?_, fun ht => ?_⟩,
    fun s f v hf hd hn h hr => execPop_raises hf hd hn h hr,
    fun s high low h h' hr hp => ⟨execReturn_raises h h' hr hp, execRetfie_raises h h' hr hp⟩⟩
  · exact execReturn_belowFloor hc hfloor t
  · by_cases hpri : ∃ p, restoresPri s p ∧ 13#4 < p
    · exact .inr hpri
    · exact .inl (execRetfie_belowFloor hc hfloor (fun p hp hlt => hpri ⟨p, hp, hlt⟩) t ht)

end Sys2Proof.Machine
end

section
/-! PROOFS. The decoder as a table of rows and readings, the words the encoder writes, and the statements about them
(spec/30_encoding.md R112 to R114). -/

namespace Sys2Proof

open Laws

/-! ### One-word instructions (R113) -/

/-- The rows a one-word instruction can have, each with what the decoder reads from a word of it (R113, R114). -/
def oneWordRows : List (Row × (ProgWord → Instr)) :=
  [(rowNop, fun _ => .nop),
   (rowReturn, fun _ => .ret),
   (rowRetfie, fun _ => .retfie),
   (rowBra, fun w => .bra (w.extractLsb' 0 16)),
   (rowPush, fun w => .push (w.extractLsb' 0 16)),
   (rowPop, fun w => .pop (w.extractLsb' 0 16)),
   (rowDisi, fun w => .disi (w.extractLsb' 0 14)),
   (rowReset, fun _ => .reset),
   (rowPwrsav, fun w => .pwrsav (if w.getLsbD 0 then .idle else .sleep))]

/-- The decoder reads a word by the first row it fits. -/
theorem decodeOne_eq_find (w : ProgWord) :
    decodeOne w = ((oneWordRows.find? fun p => p.1.fits w).map fun p => p.2 w).elim (.error (.unknownWord w)) .ok := by
  unfold decodeOne
  iterate 9
    split
    · simp [oneWordRows, *]
  simp [oneWordRows, *]

/-- The one-word rows are the first rows but `GOTO`'s (R112). -/
theorem mem_oneWordRows_fst {r : Row} : r ∈ oneWordRows.map Prod.fst ↔ r ∈ firstRows ∧ r ≠ rowGoto := by
  constructor
  · revert r; decide
  · rintro ⟨hr, hg⟩; revert r; decide

/-- What is read from a word has the row it was read by. -/
theorem row_of_mem {p : Row × (ProgWord → Instr)} (hp : p ∈ oneWordRows) (w : ProgWord) : (p.2 w).row = p.1 := by
  simp only [oneWordRows, List.mem_cons, List.not_mem_nil, or_false] at hp
  rcases hp with rfl | rfl | rfl | rfl | rfl | rfl | rfl | rfl | rfl <;> rfl

/-- No word fits two rows. -/
theorem row_unique {r q : Row} {w : ProgWord} (hr : r ∈ firstRows) (hq : q ∈ firstRows) (hrw : r.fits w = true)
    (hqw : q.fits w = true) : r = q := by
  have hsymm : Std.Symm Row.apart :=
    ⟨fun r q h => by rwa [Row.apart, BitVec.and_comm q.mask, BitVec.xor_comm q.pattern]⟩
  by_contra hne
  rw [not_fits_both (firstRows_apart.forall hr hq hne) hrw] at hqw
  exact nomatch hqw

/-- A word that is read was read by a row it fits. -/
theorem fits_of_decodeOne {w : ProgWord} {i : Instr} (h : decodeOne w = .ok i) :
    ∃ p ∈ oneWordRows, p.1.fits w = true ∧ p.2 w = i := by
  rw [decodeOne_eq_find] at h
  cases hf : oneWordRows.find? fun p => p.1.fits w with
  | none => rw [hf] at h; exact nomatch h
  | some p =>
    rw [hf] at h
    cases h
    have hfits := List.find?_some hf
    exact ⟨p, List.mem_of_find?_eq_some hf, hfits, rfl⟩

/-- A word that fits a row is read by that row, which is the only one it fits. -/
theorem decodeOne_of_fits {p : Row × (ProgWord → Instr)} {w : ProgWord} (hp : p ∈ oneWordRows)
    (h : p.1.fits w = true) : decodeOne w = .ok (p.2 w) := by
  have hmem : ∀ {q}, q ∈ oneWordRows → q.1 ∈ firstRows := fun hq =>
    (mem_oneWordRows_fst.1 (List.mem_map_of_mem hq)).1
  rw [decodeOne_eq_find]
  cases hf : oneWordRows.find? fun p => p.1.fits w with
  | none => exact absurd h (List.find?_eq_none.1 hf p hp)
  | some q =>
    have hq := List.mem_of_find?_eq_some hf
    have hfits := List.find?_some hf
    have hrow : q.1 = p.1 := row_unique (hmem hq) (hmem hp) hfits h
    rw [List.inj_on_of_nodup_map (by decide) hq hp hrow]
    rfl

/-! ### The length of an instruction (R112) -/

theorem isTwoWord_iff (w : ProgWord) :
    isTwoWord w = true ↔ w.extractLsb' 16 8 = 0x04#8 ∨ w.extractLsb' 16 8 = 0x02#8 := by
  simp [isTwoWord]

theorem decode_of_oneWord {w : ProgWord} (h : isTwoWord w = false) (ws : List ProgWord) :
    decode .first (w :: ws) = (decodeOne w).map fun i => (i, ws) := by
  simp [decode, h]

theorem decode_of_twoWords {w : ProgWord} (h : isTwoWord w = true) (w2 : ProgWord) (ws : List ProgWord) :
    decode .first (w :: w2 :: ws) = (decodeTwo w w2).map fun i => (i, ws) := by
  simp [decode, h]

/-- The first word of a two-word instruction alone is none. -/
theorem decode_of_twoWords_alone {w : ProgWord} (h : isTwoWord w = true) : decode .first [w] = .error .missingWord := by
  simp [decode, h]

/-- Where a reading is paired with the words it leaves, it is a reading, and those are left. -/
theorem map_pair_ok {x : Except DecodeError Instr} {ws rest : List ProgWord} {i : Instr}
    (h : x.map (fun j => (j, ws)) = .ok (i, rest)) : x = .ok i ∧ ws = rest := by
  cases x with
  | ok j => cases h; exact ⟨rfl, rfl⟩
  | error e => exact nomatch h

/-- A word that is an instruction by itself fits the row of that instruction. -/
theorem fits_of_decode {w : ProgWord} {i : Instr} {rest : List ProgWord} (h : decode .first [w] = .ok (i, rest)) :
    i.row.fits w = true := by
  cases ht : isTwoWord w with
  | true => rw [decode_of_twoWords_alone ht] at h; exact nomatch h
  | false =>
    rw [decode_of_oneWord ht] at h
    obtain ⟨p, hp, hfits, rfl⟩ := fits_of_decodeOne (map_pair_ok h).1
    rw [row_of_mem hp]
    exact hfits

/-- A word of a one-word row is read by it, whatever follows. -/
theorem decode_of_fits {p : Row × (ProgWord → Instr)} {w : ProgWord} (hp : p ∈ oneWordRows) (h : p.1.fits w = true)
    (ws : List ProgWord) : decode .first (w :: ws) = .ok (p.2 w, ws) := by
  obtain ⟨hfirst, hgoto⟩ := mem_oneWordRows_fst.1 (List.mem_map_of_mem hp)
  rw [decode_of_oneWord (oneWord_of_fits hfirst hgoto h), decodeOne_of_fits hp h]
  rfl

/-- Settles O2: a word of a row is read by that row, and what is read fits its row; the length is that of the words the
decoder takes. -/
theorem oneWordRowsDecodeExactlyTheirWords : Obligations.OneWordRowsDecodeExactlyTheirWords := by
  intro w
  refine ⟨fun r hr hg => ⟨fun hfits => ?_, ?_⟩, fun htwo => ?_, fun hone ws i rest h => ?_⟩
  · obtain ⟨p, hp, rfl⟩ := List.mem_map.1 (mem_oneWordRows_fst.2 ⟨hr, hg⟩)
    exact ⟨p.2 w, decode_of_fits hp hfits [], row_of_mem hp w⟩
  · rintro ⟨i, hd, rfl⟩
    exact fits_of_decode hd
  · have ht := (isTwoWord_iff w).2 htwo
    refine ⟨decode_of_twoWords_alone ht, fun ws i rest h => ?_⟩
    cases ws with
    | nil => rw [decode_of_twoWords_alone ht] at h; exact nomatch h
    | cons w2 ws =>
      rw [decode_of_twoWords ht] at h
      exact ⟨w2, by rw [(map_pair_ok h).2]⟩
  · have ht : isTwoWord w = false := by rwa [← Bool.not_eq_true, isTwoWord_iff]
    rw [decode_of_oneWord ht] at h
    exact (map_pair_ok h).2

/-! ### Decoding what the encoder writes (R114) -/

/-- An even target is put together again from the fields of its two words (R114 (c)). -/
theorem gotoTarget_of_fields {target : Pc} (h : evenPc target = true) :
    gotoTarget (0x04#8 ++ target.extractLsb' 1 15 ++ 0#1) (target.extractLsb' 16 7) = target := by
  have h0 : target.extractLsb' 0 1 = 0#1 := by
    apply BitVec.eq_of_getLsbD_eq
    intro i hi
    obtain rfl : i = 0 := by omega
    simpa [evenPc] using h
  have hlow : (0x04#8 ++ target.extractLsb' 1 15 ++ 0#1).extractLsb' 1 15 = target.extractLsb' 1 15 := by
    rw [BitVec.extractLsb'_append_eq_of_le (by decide), BitVec.extractLsb'_append_eq_right]
  rw [gotoTarget, hlow, ← h0, BitVec.extractLsb'_append_extractLsb'_eq_extractLsb' (by decide),
    BitVec.extractLsb'_append_extractLsb'_eq_extractLsb' (by decide), BitVec.extractLsb'_eq_self]

/-- The second word of a `GOTO` gives back the bits it carries. -/
theorem decodeAfterGoto_encoded (high : BitVec 7) : decodeAfterGoto (0#17 ++ high) = .ok high := by
  obtain ⟨w, ws, he, hfits⟩ := FitsRow.gotoWord2 high rfl
  cases he
  have hfits : rowGotoWord2.fits (0#17 ++ high) = true := hfits
  rw [decodeAfterGoto, if_pos hfits, BitVec.extractLsb'_append_eq_right]

/-- Both words of a `GOTO` to an even address give it back, whatever follows. -/
theorem decode_encode_goto {target : Pc} (h : evenPc target = true) (rest : List ProgWord) :
    decode .first (encode (.goto target) ++ rest) = .ok (.goto target, rest) := by
  obtain ⟨w, ws, he, hfits⟩ := FitsRow.goto target h
  cases he
  have hfits : rowGoto.fits (0x04#8 ++ target.extractLsb' 1 15 ++ 0#1) = true := hfits
  have hdecode : decodeTwo (0x04#8 ++ target.extractLsb' 1 15 ++ 0#1) (0#17 ++ target.extractLsb' 16 7) =
      .ok (.goto target) := by
    rw [decodeTwo, if_pos hfits, decodeAfterGoto_encoded, Except.map, gotoTarget_of_fields h]
  exact (decode_of_twoWords (twoWords_of_goto hfits) _ rest).trans (by rw [hdecode]; rfl)

/-- The first encoded word of every well-formed instruction fits its row. -/
theorem fitsRow_encode (i : Instr) : FitsRow.Statement i := by
  cases i with
  | nop => exact FitsRow.nop
  | goto target => exact FitsRow.goto target
  | gotoWord2 high => exact FitsRow.gotoWord2 high
  | ret => exact FitsRow.ret
  | retfie => exact FitsRow.retfie
  | bra slit16 => exact FitsRow.bra slit16
  | push f => exact FitsRow.push f
  | pop f => exact FitsRow.pop f
  | disi lit14 => exact FitsRow.disi lit14
  | reset => exact FitsRow.reset
  | pwrsav mode => exact FitsRow.pwrsav mode

/-- The encoder writes an instruction of a one-word row as one word, from which the row reads the instruction again. -/
theorem encode_oneWord (i : Instr) (hi : i.row ∈ oneWordRows.map Prod.fst) :
    i.position = .first ∧ ∃ w, encode i = [w] ∧ ∃ p ∈ oneWordRows, p.1 = i.row ∧ p.2 w = i := by
  cases i with
  | goto target => exact absurd rfl (mem_oneWordRows_fst.1 hi).2
  | gotoWord2 high => exact absurd (mem_oneWordRows_fst.1 hi).1 (show rowGotoWord2 ∉ firstRows by decide)
  | pwrsav mode => cases mode <;> simp [Instr.position, encode, oneWordRows, Instr.row]
  | bra x | push x | pop x | disi x =>
    simp only [Instr.position, encode, oneWordRows, Instr.row]
    simpa using BitVec.extractLsb'_append_eq_right
  | nop | ret | retfie | reset => simp [Instr.position, encode, oneWordRows, Instr.row]

/-- An instruction of a one-word row is decoded from its word, whatever follows. -/
theorem decode_encode_oneWord {i : Instr} (hi : i.row ∈ oneWordRows.map Prod.fst) (hwf : i.wellFormed = true)
    (rest : List ProgWord) : decode i.position (encode i ++ rest) = .ok (i, rest) := by
  obtain ⟨hpos, w, he, p, hp, hrow, hread⟩ := encode_oneWord i hi
  obtain ⟨w', ws, he', hfits⟩ := fitsRow_encode i hwf
  rw [he] at he'
  cases he'
  rw [hpos, he, List.singleton_append, decode_of_fits hp (hrow ▸ hfits), hread]

/-- Settles O1: one word of each row gives back the operands its fields hold; `GOTO` is put together from two. -/
theorem decodeOfEncodeIsTheInstruction : Obligations.DecodeOfEncodeIsTheInstruction := by
  intro i rest h
  cases i with
  | goto target => exact decode_encode_goto h rest
  | gotoWord2 high => simp [encode, Instr.position, decode, decodeAfterGoto_encoded, Except.map]
  | _ => exact decode_encode_oneWord (by simp [oneWordRows, Instr.row]) h rest

/-- Settles O3, the decoder run on each word. -/
theorem wordsOfTheSpecDecode : Obligations.WordsOfTheSpecDecode :=
  ⟨rfl, rfl, rfl, rfl, rfl, rfl, rfl, rfl, rfl, rfl, rfl, rfl⟩

end Sys2Proof
end

section
/-! PROOFS. What a step does with words of no instruction (spec/30_encoding.md R112, R115, R117). -/

namespace Sys2Proof.Machine

/-- A CPU on its turn, awake and with no exception selected, executes the instruction at pc (R10, R223). -/
theorem step_executes {s t : State} (ht : cpuTurn s t) (hm : s.cpuMode = .run) (hs : select s = none) :
    ∃ rest, t = { s with schedule := rest } ∧ step s = executeNext { t with ackDefer := 0 } := by
  rw [step_of_cpuTurn ht]
  rcases ht with ⟨-, rfl⟩ | ⟨rest, -, rfl⟩
  · exact ⟨t.schedule, rfl, cpuStep_executes hm hs⟩
  · exact ⟨rest, rfl, cpuStep_executes (s := { s with schedule := rest }) hm hs⟩

/-- Where a fetch asks for a declared effect, that is executed, and for want of one the step ends as the fetch says (R115,
R117). -/
theorem executeNext_declaredOr {u : State} {o : Host.Outcome State Fault Refusal} (h : fetch u = declaredOr o u) :
    (∀ e, u.others.lookup u.pc.toNat = some e → executeNext u = execOther e u) ∧
    (u.others.lookup u.pc.toNat = none → executeNext u = o) := by
  unfold executeNext
  rw [h, declaredOr]
  exact ⟨fun e he => by rw [he], fun he => by rw [he]⟩

/-- Where a fetch would read from an unimplemented address, pc moves there and ADDRERR is set (R89; log entry 18). -/
theorem executeNext_fetchUnimplemented {u : State} {p : Pc} (h : fetch u = fetchUnimplemented p u)
    (ha : addressErrorPends u) : executeNext u = .next { u with pc := p, intcon1 := withBit u.intcon1 3 true } := by
  unfold executeNext
  rw [h, fetchUnimplemented, raiseHard_pends (s := { u with pc := p }) ha]

/-- Settles O5: what the fetch asks for, by the first word and then by the second. -/
theorem unknownWordRunsItsDeclaredEffect : Obligations.UnknownWordRunsItsDeclaredEffect := by
  intro s t w ht hm hs hp hw second
  obtain ⟨rest, rfl, hstep⟩ := step_executes ht hm hs
  rw [hstep]
  let u : State := { s with schedule := rest, ackDefer := 0 }
  refine ⟨fun hrow => ?_, fun hgoto => ⟨fun hp2 ha => ?_, fun hp2 hbad => ?_⟩⟩
  · exact executeNext_declaredOr (u := u) (fetch_unknown hp hw ((inNoRow_iff w).2 hrow))
  · exact executeNext_fetchUnimplemented (u := u) (fetch_secondWordUnimplemented hp hw hgoto hp2) ha
  · cases hsecond : second with
    | none =>
      obtain ⟨heffect, hnone⟩ :=
        executeNext_declaredOr (u := u) (fetch_secondWordUnprogrammed hp hw hgoto hp2 hsecond)
      exact ⟨heffect, fun he => ⟨fun _ => hnone he, fun hne => absurd rfl hne⟩⟩
    | some w2 =>
      obtain ⟨heffect, hnone⟩ :=
        executeNext_declaredOr (u := u) (fetch_badSecondWord hp hw hgoto hp2 hsecond (hbad w2 hsecond))
      exact ⟨heffect, fun he => ⟨nofun, fun _ => hnone he⟩⟩

end Sys2Proof.Machine
end

section
/-! PROOFS. `DISI`, `RETFIE` and DISICNT (spec/40_interrupt_instructions.md R130 to R133). -/

namespace Sys2Proof.Machine

/-! ### `RETFIE` (R131) -/

/-- Settles O30: both words of the frame are popped, and bit 12 of the upper one decides between the return and the
refusal. -/
theorem retfieRestoresTheFrame : Obligations.RetfieRestoresTheFrame := by
  intro s high low hsp h h' hl
  have hpop := popFrame_ok hsp h h' hl
  show (_ → _ → execRetfie s = _) ∧ (_ → execRetfie s = _)
  unfold execRetfie
  refine ⟨fun hra hp => ?_, fun hra => ?_⟩
  · rw [returnFromException_of_frame hpop hra,
      jump_framePc (s := restoreStatus high { s with w := s.w.set 15 (s.sp - 4#16) }) hp]
    simp only [restoreStatus, clearRa_of_clear hra]
    rfl
  · rw [returnFromException_ra hpop hra]
    rfl

/-! ### The countdown (R133) -/

theorem tick_zero {s : State} (c : Nat) (h : s.disicnt = 0#14) : tick c s = s := by
  rw [tick, if_pos h]

/-- Cycles that do not use the count up. -/
theorem tick_of_lt {s : State} {c : Nat} (h : c < s.disicnt.toNat) :
    tick c s = { s with disicnt := BitVec.ofNat 14 (s.disicnt.toNat - c) } := by
  have hlt := s.disicnt.isLt
  have hn : s.disicnt ≠ 0#14 := fun e => by rw [e] at h; exact nomatch h
  have hleft : BitVec.ofNat 14 (s.disicnt.toNat - c) ≠ 0#14 := fun e => by
    have e := congrArg BitVec.toNat e
    simp only [BitVec.toNat_ofNat] at e
    omega
  simp only [tick, if_neg hn, if_neg hleft]

/-- Cycles that use the count up end the window. -/
theorem tick_of_le {s : State} {c : Nat} (hn : s.disicnt ≠ 0#14) (h : s.disicnt.toNat ≤ c) :
    tick c s = { s with disicnt := 0#14, intcon2 := withBit s.intcon2 14 false } := by
  simp only [tick, if_neg hn, Nat.sub_eq_zero_of_le h, if_true, State.setDisi]

/-- Settles O45: from a count that is not 0, by whether the cycles use it up. -/
theorem tickCountsDisicntDown : Obligations.TickCountsDisicntDown := by
  refine fun s c => ⟨tick_zero c, fun hn => ?_⟩
  by_cases h : c < s.disicnt.toNat
  · have hlt := s.disicnt.isLt
    have hleft : (s.disicnt.toNat - c) % 2 ^ 14 = s.disicnt.toNat - c := Nat.mod_eq_of_lt (by omega)
    rw [tick_of_lt h]
    exact ⟨by rw [BitVec.toNat_ofNat, hleft], by simp [State.disiActive, h], rfl, fun _ _ => rfl⟩
  · rw [tick_of_le hn (Nat.le_of_not_lt h)]
    refine ⟨(Nat.sub_eq_zero_of_le (Nat.le_of_not_lt h)).symm, ?_, rfl, fun i hi => ?_⟩
    · rw [State.disiActive, getLsbD_withBit_same (by decide), decide_eq_false h, Bool.and_false]
    · rw [getLsbD_withBit, if_neg fun e => hi e.1]

/-! ### `DISI` (R130) -/

/-- A new window replaces an older one, however far that one was counted down. -/
theorem openWindow_tick (k : BitVec 14) (c : Nat) (s : State) : openWindow k (tick c s) = openWindow k s := by
  by_cases h0 : s.disicnt = 0#14
  · rw [tick_zero c h0]
  · by_cases h : c < s.disicnt.toNat
    · rw [tick_of_lt h]; rfl
    · rw [tick_of_le h0 (Nat.le_of_not_lt h)]
      simp only [openWindow, State.setDisi, withBit_withBit]

/-- Settles O34: the cycles of `DISI` itself count against an older window alone. -/
theorem disiLoadsTheCounter : Obligations.DisiLoadsTheCounter := by
  intro s k hnext
  show execDisi k s = _
  rw [execDisi, openWindow_tick, advance_of_next (s := openWindow k s) hnext]
  rfl

/-! ### Software writes of DISICNT (R132) -/

/-- Writing 0 ends a window and clears the stray mark. -/
theorem writeDisicnt_zero {v : Word} (s : State) (h : v.extractLsb' 0 14 = 0#14) : writeDisicnt v s =
    { s with disicnt := 0#14, disicntStray := false, intcon2 := withBit s.intcon2 14 false } := by
  simp only [writeDisicnt, h, if_true, State.setDisi]

/-- In a window another value becomes the count. -/
theorem writeDisicnt_inWindow {v : Word} {s : State} (h : v.extractLsb' 0 14 ≠ 0#14) (ha : s.disiActive = true) :
    writeDisicnt v s = { s with disicnt := v.extractLsb' 0 14 } := by
  simp only [writeDisicnt, if_neg h, if_pos ha]

/-- Outside a window it is a stray write. -/
theorem writeDisicnt_stray {v : Word} {s : State} (h : v.extractLsb' 0 14 ≠ 0#14) (ha : s.disiActive = false) :
    writeDisicnt v s =
      { s with disicnt := v.extractLsb' 0 14, disicntStray := true, strayBound := v.extractLsb' 0 14 } := by
  simp [writeDisicnt, h, ha]

/-- A draw up to a bound. -/
theorem drawUpTo_le (b : BitVec 14) (s : State) : (drawUpTo b s).1.toNat ≤ b.toNat := by
  rw [drawUpTo, BitVec.toNat_ofNat]
  exact (Nat.mod_le _ _).trans (Nat.le_of_lt_succ (Nat.mod_lt _ (Nat.succ_pos _)))

/-- A read of DISICNT after a stray write gives at most the value written. -/
theorem readDisicnt_le {u : State} (h : u.disicntStray = true) :
    (readSfr .disicnt u).1.toNat ≤ u.strayBound.toNat := by
  have hread : (readSfr .disicnt u).1 = 0#2 ++ (drawUpTo u.strayBound u).1 := by simp only [readSfr, if_pos h]
  rw [hread, BitVec.toNat_append]
  simpa using drawUpTo_le u.strayBound u

/-- Settles O44. -/
theorem softwareWriteOfDisicnt : Obligations.SoftwareWriteOfDisicnt := by
  refine fun s v => ⟨fun h => ?_, writeDisicnt_inWindow, fun h ha => ?_⟩
  · rw [show writeSfr .disicnt true v s = _ from writeDisicnt_zero s h]
    exact ⟨rfl, getLsbD_withBit_same (by decide) _ _, rfl⟩
  · rw [show writeSfr .disicnt true v s = _ from writeDisicnt_stray h ha]
    exact ⟨ha, rfl, fun u hu hb => (readDisicnt_le hu).trans (by rw [hb])⟩

end Sys2Proof.Machine
end

section
/-! PROOFS. Control flow, `RESET` and `PWRSAV` (spec/41_referenced_instructions.md R150 to R154, R157). -/

namespace Sys2Proof.Machine

/-! ### Jumps to implemented addresses (R89) -/

/-- A jump to an even implemented address sets pc to it and nothing else. -/
theorem jump_even {p : Pc} {s : State} (he : evenPc p = true) (hp : progImpl s p = true) :
    jump p s = .ok { s with pc := p } := by
  have e := evenTarget_of_even he
  rw [jump_implemented (by rw [e]; exact hp), e]

/-- An even address, as a number. -/
theorem evenPc_iff (p : Pc) : evenPc p = true ↔ p.toNat % 2 = 0 := by
  have h : p.getLsbD 0 = p.toNat.testBit 0 := rfl
  rw [evenPc, h, Nat.testBit_zero]
  simp

/-- Settles O25. -/
theorem nopOnlyAdvances : Obligations.NopOnlyAdvances := by
  intro s high h
  have hstep : doNothing s = .next (tick 1 { s with pc := s.pc + 2#23 }) := by
    rw [doNothing, advance_of_next h]
    rfl
  exact ⟨hstep, hstep⟩

/-- Settles O26. -/
theorem gotoLoadsItsTarget : Obligations.GotoLoadsItsTarget := by
  intro s target he hp
  show execGoto target s = _
  rw [execGoto, jump_even he hp]
  rfl

/-! ### `BRA` (R153, R114 (b)) -/

/-- The target of a branch, over the integers and then modulo 2^23. -/
theorem branchTarget_eq_ofInt (p : Pc) (slit16 : Word) :
    branchTarget p slit16 = BitVec.ofInt 23 ((p.toNat : Int) + 2 + 2 * slit16.toInt) := by
  have hp : BitVec.ofInt 23 (p.toNat : Int) = p := by simp
  rw [BitVec.ofInt_add, BitVec.ofInt_add, BitVec.ofInt_mul, hp]
  rfl

/-- A branch from an even address goes to an even address. -/
theorem branchTarget_even {p : Pc} (h : evenPc p = true) (slit16 : Word) : evenPc (branchTarget p slit16) = true := by
  rw [evenPc_iff] at h ⊢
  simp only [branchTarget, BitVec.toNat_add, BitVec.toNat_mul, BitVec.toNat_ofNat]
  omega

/-- Settles O27. -/
theorem branchIsRelativeToTheNextWord : Obligations.BranchIsRelativeToTheNextWord := by
  intro s slit16 he hp
  rw [← branchTarget_eq_ofInt] at hp ⊢
  show execBra slit16 s = _
  rw [execBra, jump_even (branchTarget_even he slit16) hp]
  rfl

/-! ### `RETURN` (R154) -/

/-- Settles O29. -/
theorem returnPopsThePc : Obligations.ReturnPopsThePc := by
  intro s high low hsp h h' hl hp
  show execReturn s = _
  rw [execReturn, popFrame_ok hsp h h' hl, ok_bind]
  dsimp only
  rw [jump_framePc (s := { s with w := s.w.set 15 (s.sp - 4#16) }) hp]
  rfl

/-! ### `PWRSAV` (R151) -/

/-- Outside a DISI window the mode is entered at the next word. -/
theorem execPwrsav_enters {s : State} (mode : LowPower) (hn : nextImplemented s) (hd : s.disiActive = false) :
    execPwrsav mode s =
      .next (tick s.cfg.cycles.pwrsav { s with cpuMode := powerMode mode, pc := s.pc + 2#23 }) := by
  rw [execPwrsav, hd, if_neg Bool.false_ne_true, advance_of_next (s := { s with cpuMode := powerMode mode }) hn]
  rfl

/-- Settles O36. -/
theorem pwrsavEntersTheMode : Obligations.PwrsavEntersTheMode := fun _ hn =>
  ⟨fun hd => ⟨execPwrsav_enters .sleep hn hd, execPwrsav_enters .idle hn hd⟩, fun hd _ => if_pos hd⟩

/-! ### Resets (R54, R150, R197, R261) -/

/-- The priority a Reset gives an implemented vector (R43). -/
theorem intPri_deviceReset {c : ResetCause} {s : State} {v : Nat} (h : implemented s.cfg v = true) :
    intPri (deviceReset c s) v = 4#3 := by
  have hlt := lt_of_implemented h
  have hn : v / 4 < 30 := by omega
  have hv : 4 * (v / 4) + v % 4 = v := Nat.div_add_mod v 4
  rw [intPri_of_implemented (s := deviceReset c s) h]
  apply BitVec.eq_of_getLsbD_eq
  intro i hi
  have hbits : ∀ (j : Fin 4) (b : Fin 3), (0x4444#16).getLsbD (4 * j.val + b.val) = (4#3).getLsbD b.val := by decide
  have hget := getLsbD_and_priMask s.cfg 0x4444#16 (v / 4) ⟨v % 4, Nat.mod_lt v (by decide)⟩ ⟨i, by omega⟩
  have hbit := hbits ⟨v % 4, Nat.mod_lt v (by decide)⟩ ⟨i, hi⟩
  have h3 : i ≠ 3 := by omega
  simp only [hv, h, hbit, decide_eq_true h3, Bool.and_true] at hget
  rw [← hget]
  simp [deviceReset, resetIpc, bankGet, hn, hi]

/-- A Reset of any cause leaves the values of R54. -/
theorem resetFrom_deviceReset (c : ResetCause) (s : State) : resetFrom s (deviceReset c s) := by
  have hsp : (deviceReset c s).sp = 0x0800#16 := by simp [deviceReset, State.sp, resetW]
  have hpri : (deviceReset c s).cpuPri = 0#4 := by
    show BitVec.ofBool ((0x0000#16).getLsbD 3) ++ (0x0000#16).extractLsb' 5 3 = 0#4
    decide
  have hzero : ∀ n i : Nat, (bankGet (Vector.replicate 8 0x0000#16) n).getLsbD i = false := by
    intro n i
    unfold bankGet
    split <;> simp
  have hbank : ∀ v, intFlag (deviceReset c s) v = false ∧ intEnable (deviceReset c s) v = false :=
    fun v => ⟨(congrArg _ (hzero _ _)).trans (Bool.and_false _), (congrArg _ (hzero _ _)).trans (Bool.and_false _)⟩
  exact ⟨rfl, hsp, rfl, rfl, rfl, hpri, rfl, rfl, rfl, rfl, rfl, rfl,
    fun v => ⟨(hbank v).1, (hbank v).2, intPri_deviceReset⟩, rfl, rfl, rfl⟩

/-- A hard trap conflict ends the instruction in a Reset. -/
theorem raiseHard_conflict {t : Trap} {s : State} (h : trapConflict t s = true) :
    raiseHard t s = .error (.next (deviceReset .trapConflict s)) := by
  rw [raiseHard, if_pos h]

/-- A CPU priority above a trap's level is a conflict (R197). -/
theorem trapConflict_of_lt {t : Trap} {s : State} (h : trapLevel t < s.cpuPri) : trapConflict t s = true := by
  rw [trapConflict, decide_eq_true h, Bool.or_true]

/-- Settles O35. -/
theorem resetInstructionResetsTheDevice : Obligations.ResetInstructionResetsTheDevice := by
  intro s
  refine ⟨⟨_, rfl, resetFrom_deviceReset .software s⟩, fun h => ?_, fun h => ?_, fun rest hs => ?_⟩
  · exact ⟨_, raiseHard_conflict ((trapConflict_addressError s).2 h), resetFrom_deviceReset _ s, rfl⟩
  · exact ⟨_, raiseHard_conflict (trapConflict_of_lt h), resetFrom_deviceReset _ s, rfl⟩
  · refine ⟨deviceReset .external { s with schedule := rest }, ?_, resetFrom_deviceReset .external _, rfl⟩
    rw [step, turnStep, hs]
    rfl

end Sys2Proof.Machine
end

section
/-! PROOFS. Instructions outside the table (spec/41_referenced_instructions.md R158 to R161). -/

namespace Sys2Proof.Machine

/-! ### Accesses after the address error (R160, R200) -/

namespace ErrorsOnly

/-- An inhibited write sets no more than the error flags. -/
theorem store_inhibited {w : Width} {via bm bad : Bool} {a v : Word} {s t : State}
    (h : store w via bm a v true s = .ok (bad, t)) : ErrorsOnly s t := by
  obtain ⟨-, u, hu, ht⟩ := store_ok h
  rw [Bool.or_true, if_pos rfl] at ht
  rw [ht]
  exact (raiseAddressIf hu).trans (limitCheckIf via a u)

/-- The value a write carries costs at most a free value. -/
theorem writeValue (v : WriteValue) (last : Word) (s : State) : ErrorsOnly s (Machine.writeValue v last s).2 := by
  cases v with
  | const w => exact refl s
  | modify keep set toggle => exact refl s
  | free => exact (refl s).drawn _

/-- An access after the address error sets no more than the error flags, and the error stands. -/
theorem doAccess_inhibited {a : Access} {bad : Bool} {last last' : Word} {s t : State}
    (h : doAccess a true last s = .ok (bad, last', t)) : ErrorsOnly s t ∧ bad = true := by
  unfold doAccess at h
  split at h
  · obtain ⟨⟨v, err, u⟩, hl, h⟩ := bind_ok h
    cases h
    exact ⟨load hl, rfl⟩
  · obtain ⟨⟨err, u⟩, hs, h⟩ := bind_ok h
    cases h
    exact ⟨(writeValue _ last s).trans (store_inhibited hs), rfl⟩

theorem doAccesses_inhibited {accesses : List Access} {last : Word} {s t : State}
    (h : doAccesses accesses true last s = .ok t) : ErrorsOnly s t := by
  induction accesses generalizing last s with
  | nil => cases h; exact refl _
  | cons a rest ih =>
    obtain ⟨⟨bad, last', u⟩, ha, h⟩ := bind_ok h
    obtain ⟨hu, rfl⟩ := doAccess_inhibited ha
    exact hu.trans (ih h)

end ErrorsOnly

/-- Settles O48, by induction on the accesses. -/
theorem laterWritesAreInhibited : Obligations.LaterWritesAreInhibited := fun _ _ _ _ h =>
  have he := ErrorsOnly.doAccesses_inhibited h
  ⟨he.frame, he.bits⟩

/-! ### Effects without an access (R158, R160) -/

/-- An update of W15, and when it raises the stack error (R90). -/
theorem updatePointer_some (p : PointerUpdate) (s : State) : updatePointer (some p) s =
    { s with
      w := s.w.set 15 (p.value &&& 0xFFFE#16)
      intcon1 := if p.wrapped = true ∨ p.value &&& 0xFFFE#16 < 0x0800#16 then withBit s.intcon1 2 true else s.intcon1 } := by
  cases hw : p.wrapped <;> by_cases hf : p.value &&& 0xFFFE#16 < 0x0800#16 <;>
    simp [updatePointer, hw, setSp, hf, raiseStack_eq]

/-- What a declared effect does between its accesses and its jump: the update of W15 and the math error. -/
def updated (e : Effect) (s : State) : State :=
  if e.divByZero then raiseMath (updatePointer e.w15 s) else updatePointer e.w15 s

theorem updated_cfg (e : Effect) (s : State) : (updated e s).cfg = s.cfg := by
  have hp : (updatePointer e.w15 s).cfg = s.cfg := by
    cases e.w15 with
    | none => rfl
    | some p => rw [updatePointer_some]
  unfold updated
  split
  · exact hp
  · exact hp

/-- A declared effect whose accesses run to their end, with an even implemented next address, completes there. -/
theorem execOther_of_accesses {e : Effect} {s t : State} (ha : doAccesses e.accesses false 0#16 s = .ok t)
    (he : evenPc e.next = true) (hp : progImpl t e.next = true) :
    execOther e s = .next (tick e.cycles { updated e t with pc := e.next }) := by
  have hp' : progImpl (updated e t) e.next = true := by rwa [progImpl, updated_cfg]
  unfold execOther
  rw [ha, ok_bind]
  show finish (jump e.next (updated e t) >>= fun s => .ok (tick e.cycles s)) = _
  rw [jump_even he hp']
  rfl

/-- Settles O51. -/
theorem divideByZeroCompletesAndRaisesTheMathError : Obligations.DivideByZeroCompletesAndRaisesTheMathError := by
  refine fun s next c he hp => ⟨?_, fun p z => ?_⟩
  · rw [execOther_of_accesses (t := s) rfl he hp]
    rfl
  · rw [execOther_of_accesses (t := s) rfl he hp, updated, updatePointer_some]
    cases z <;> rfl

/-! ### ORing 0xE0 into SRL (R161, R225) -/

/-- The byte at an even address is the low one. -/
theorem byteAt_even {a : Word} (h : a.getLsbD 0 = false) (v : Word) : byteAt a v = v.extractLsb' 0 8 := by
  rw [byteAt, h, if_neg Bool.false_ne_true]

/-- A byte read at the even address of a register is the low byte of its word. -/
theorem load_lowByte {s : State} {a : Word} {r : Sfr} (he : a.getLsbD 0 = false) (hd : dataImpl s a = true)
    (hr : sfrAt s.cfg a = some r) :
    load .byte false false a s = .ok (((readSfr r s).1.extractLsb' 0 8).setWidth 16, false, (readSfr r s).2) := by
  simp [load, misaligned_even he, hd, readData, wordBase_even he, hr, byteAt_even he]

/-- A byte stored to the even address of a register replaces the low byte of its word. -/
theorem store_lowByte {s : State} {a v : Word} {r : Sfr} (he : a.getLsbD 0 = false) (hd : dataImpl s a = true)
    (hr : sfrAt s.cfg a = some r) :
    store .byte false false a v false s = .ok (false,
      writeSfr r false ((readSfr r s).1.extractLsb' 8 8 ++ v.extractLsb' 0 8) (readSfr r s).2) := by
  simp [store, misaligned_even he, storeAt, hd, writeData, wordBase_even he, hr, withByteAt_even he]

/-- The low byte of SR, read as `srl`, with bits 7:5 set and the flags of the instruction added (R161). -/
def orSrlByte (flags : BitVec 5) (srl : Byte) : Byte :=
  (((srl.setWidth 16 &&& 0x00E0#16) ||| (0x00E0#16 ||| flags.setWidth 16)) ^^^ 0#16).extractLsb' 0 8

theorem getLsbD_orSrlByte (flags : BitVec 5) (srl : Byte) (i : Fin 8) :
    (orSrlByte flags srl).getLsbD i.val = (decide (5 ≤ i.val) || flags.getLsbD i.val) := by
  have hm : ∀ j : Fin 8, (0x00E0#16).getLsbD j.val = decide (5 ≤ j.val) := by decide
  have hi : i.val < 16 := by omega
  simp only [orSrlByte, BitVec.xor_zero, BitVec.getLsbD_extractLsb', Nat.zero_add, i.isLt, decide_true, Bool.true_and,
    BitVec.getLsbD_or, BitVec.getLsbD_and, hm, BitVec.getLsbD_setWidth, hi]
  cases decide (5 ≤ i.val) <;> simp

/-- SR after that byte was written to it, a software write. -/
def orSrlResult (flags : BitVec 5) (s : State) : Word :=
  srWritten s.nstdis s.sr ((srRead s.sr).extractLsb' 8 8 ++ orSrlByte flags ((srRead s.sr).extractLsb' 0 8))

/-- The two accesses of the effect change SR alone. -/
theorem doAccesses_orSrl {s : State} {a : Word} (flags : BitVec 5) (next : Pc) (he : a.getLsbD 0 = false)
    (hd : dataImpl s a = true) (hr : sfrAt s.cfg a = some .sr) :
    doAccesses (orSrlEffect a flags next).accesses false 0#16 s = .ok { s with sr := orSrlResult flags s } := by
  simp only [orSrlEffect, doAccesses, doAccess, load_lowByte he hd hr, ok_bind, writeValue, readSfr,
    store_lowByte he hd hr, Bool.or_self]
  rfl

/-- The bits the effect leaves in SR but RA: DC as it was, the flags, and IPL<2:0> 111 unless NSTDIS = 1. -/
theorem getLsbD_orSrlResult (flags : BitVec 5) (s : State) :
    (orSrlResult flags s).getLsbD 8 = s.sr.getLsbD 8 ∧
    (∀ i < 4, (orSrlResult flags s).getLsbD i = flags.getLsbD i) ∧
    ∀ i < 3, (orSrlResult flags s).getLsbD (5 + i) = if s.nstdis then s.sr.getLsbD (5 + i) else true := by
  have hlow : ∀ (h : Byte), ∀ i < 8, (h ++ orSrlByte flags ((srRead s.sr).extractLsb' 0 8)).getLsbD i =
      (decide (5 ≤ i) || flags.getLsbD i) := fun h i hi => by
    rw [BitVec.getLsbD_append, if_pos hi]
    exact getLsbD_orSrlByte flags _ ⟨i, hi⟩
  refine ⟨?_, fun i hi => ?_, fun i hi => ?_⟩
  · have hdc : (srRead s.sr).getLsbD 8 = s.sr.getLsbD 8 := by simpa using getLsbD_srRead s.sr 8
    refine (getLsbD_srWritten _ _ _ 8).trans ((if_pos (.inl rfl)).trans ?_)
    show BitVec.getLsbD (_ ++ _) 8 = _
    rw [BitVec.getLsbD_append, if_neg (by decide), ← hdc]
    exact BitVec.getLsbD_extractLsb' _ _ _ _
  · have h5 : ¬ 5 ≤ i := by omega
    refine (getLsbD_srWritten _ _ _ ⟨i, by omega⟩).trans ((if_pos (.inr (Nat.le_of_lt_succ hi))).trans ?_)
    simpa [h5] using hlow _ i (by omega)
  · have h8 : ¬ (5 + i = 8 ∨ 5 + i ≤ 3) := by omega
    have h4 : ¬ 5 + i = 4 := by omega
    have h7 : 5 + i ≤ 7 := by omega
    refine (getLsbD_srWritten _ _ _ ⟨5 + i, by omega⟩).trans ?_
    simp only [h8, h4, h7, if_false, if_true, hlow _ (5 + i) (by omega)]
    simp

/-- Settles O52: the effect reads and writes SRL alone, and its bits are those of the byte written. -/
theorem orIntoSrlRaisesThePriorityToSeven : Obligations.OrIntoSrlRaisesThePriorityToSeven := by
  intro s a flags next he hd hr hev hp
  obtain ⟨hdc, hflags, hipl⟩ := getLsbD_orSrlResult flags s
  refine ⟨orSrlResult flags s, ?_, ?_, ?_, hdc⟩
  · rw [execOther_of_accesses (doAccesses_orSrl flags next he hd hr) hev hp]
    rfl
  · apply BitVec.eq_of_getLsbD_eq
    intro i hi
    have h7 : ∀ j : Fin 3, (7#3).getLsbD j.val = true := by decide
    have h7 := h7 ⟨i, hi⟩
    rw [BitVec.getLsbD_extractLsb', hipl i hi, decide_eq_true hi, Bool.true_and]
    split
    · simp [hi]
    · exact h7.symm
  · apply BitVec.eq_of_getLsbD_eq
    intro i hi
    rw [BitVec.getLsbD_extractLsb', Nat.zero_add, hflags i hi, BitVec.getLsbD_extractLsb', Nat.zero_add]

end Sys2Proof.Machine
end

section
/-! PROOFS. What stack and data accesses leave unchanged, short of the Reset of a hard trap conflict: the frame of `PUSH`,
`POP`, `RETURN` and of a jump (spec/20_memory.md R90, spec/41_referenced_instructions.md R154 to R156, R160). -/

namespace Sys2Proof.Machine

/-! ### Free values (R8) -/

/-- Reading a register gives no free value back. -/
theorem readSfr_draws_le (r : Sfr) (s : State) : s.draws ≤ (readSfr r s).2.draws := by
  cases r with
  | disicnt =>
    unfold readSfr
    dsimp only
    split
    · exact Nat.le_succ _
    · exact Nat.le_refl _
  | rcon | osccon => exact Nat.le_succ _
  | _ => exact Nat.le_refl _

theorem readData_draws_le {w : Width} {a v : Word} {s t : State} (h : readData w a s = .ok (v, t)) :
    s.draws ≤ t.draws := by
  unfold readData at h
  split at h
  · split at h
    · rename_i r _
      injection h with h
      have ht := readSfr_draws_le r s
      rwa [h] at ht
    · obtain ⟨x, -, hx⟩ := map_ok_inv h
      cases hx
      exact Nat.le_refl _
  · split at h
    · cases h
      exact readSfr_draws_le _ s
    · obtain ⟨x, -, hx⟩ := map_ok_inv h
      cases hx
      exact Nat.le_refl _

theorem load_draws_le {w : Width} {via bm bad : Bool} {a v : Word} {s t : State} (h : load w via bm a s = .ok (v, bad, t)) :
    s.draws ≤ t.draws := by
  obtain ⟨-, u, hu, -, hbad, hgood⟩ := load_ok h
  cases bad with
  | true => rw [(hbad rfl).2]; exact Nat.le_succ _
  | false =>
    cases hu
    have ht := readData_draws_le (hgood rfl)
    split at ht
    · rwa [limitCheck_draws] at ht
    · exact ht

/-! ### Frames -/

/-- From `s` to `t` nothing changes but pc, W15, the flags ADDRERR and STKERR, the bytes of data memory in `A`, and the
count of free values, which does not fall. -/
structure Frame (A : Nat → Prop) (s t : State) : Prop where
  rest : t = { s with pc := t.pc, w := t.w, intcon1 := t.intcon1, mem := t.mem, draws := t.draws }
  mem : ∀ a, ¬ A a → cellGet t.mem a = cellGet s.mem a
  regs : ∀ n : Fin 15, t.w[n.val] = s.w[n.val]
  flags : ∀ i, i ≠ 2 → i ≠ 3 → t.intcon1.getLsbD i = s.intcon1.getLsbD i
  draws : s.draws ≤ t.draws

/-- The two bytes of the word at an even address. -/
def wordBytes (a : Word) (n : Nat) : Prop := n = a.toNat ∨ n = a.toNat + 1

/-- No byte of data memory. -/
def noBytes (_ : Nat) : Prop := False

/-- `t` is `s` reset in a hard trap conflict, some free values later (R197). -/
def ConflictReset (s t : State) : Prop :=
  trapConflict .addressError s = true ∧ ∃ d, s.draws ≤ d ∧ t = deviceReset .trapConflict { s with draws := d }

/-- Weaker properties are left too. -/
theorem leaves_mono {α : Type} {P P' : State → Prop} {Q Q' : α → Prop} {x : Act α} (h : Leaves P Q x)
    (hP : ∀ t, P t → P' t) (hQ : ∀ a, Q a → Q' a) : Leaves P' Q' x :=
  ⟨fun a ha => hQ a (h.1 a ha), fun t ht => hP t (h.2 t ht)⟩

namespace Frame

variable {A : Nat → Prop} {s t u : State}

theorem refl (s : State) : Frame A s s :=
  ⟨rfl, fun _ _ => rfl, fun _ => rfl, fun _ _ _ => rfl, Nat.le_refl _⟩

theorem trans (h : Frame A s u) (h' : Frame A u t) : Frame A s t where
  rest := by
    have hu := h.rest
    have ht := h'.rest
    rw [hu] at ht
    exact ht
  mem a ha := (h'.mem a ha).trans (h.mem a ha)
  regs n := (h'.regs n).trans (h.regs n)
  flags i h2 h3 := (h'.flags i h2 h3).trans (h.flags i h2 h3)
  draws := h.draws.trans h'.draws

/-! What leaves a frame. -/

theorem setPc (s : State) (p : Pc) : Frame A s { s with pc := p } :=
  ⟨rfl, fun _ _ => rfl, fun _ => rfl, fun _ _ _ => rfl, Nat.le_refl _⟩

theorem errorsOnly (h : ErrorsOnly s t) (hd : s.draws ≤ t.draws) : Frame A s t := by
  obtain ⟨hframe, hbits, -⟩ := h
  have hw : t.w = s.w := by rw [hframe]
  have hmem : t.mem = s.mem := by rw [hframe]
  refine ⟨?_, fun a _ => by rw [hmem], fun n => by rw [hw], hbits, hd⟩
  rw [hframe]

theorem setSp (v : Word) (s : State) : Frame A s (setSp v s) where
  rest := by
    unfold Machine.setSp
    dsimp only
    split <;> rfl
  mem a _ := by rw [setSp_mem]
  regs n := by
    have hn : 15 ≠ n.val := by omega
    simp only [setSp_w]
    exact Vector.getElem_set_ne _ _ hn
  flags i h2 _ := by
    rw [setSp_intcon1]
    split
    · rw [getLsbD_withBit, if_neg fun e => h2 e.1]
    · rfl
  draws := by rw [setSp_draws]

theorem setRamWord {a : Word} (v : Word) (s : State) (he : a.getLsbD 0 = false) (hA : ∀ n, wordBytes a n → A n) :
    Frame A s (setRamWord a v s) where
  rest := rfl
  mem n hn := cellGet_setRamWord_other a v s n he (fun e => hn (hA n (.inl e))) fun e => hn (hA n (.inr e))
  regs _ := rfl
  flags _ _ _ := rfl
  draws := Nat.le_refl _

/-! What a frame leaves. -/

theorem cfg (h : Frame A s t) : t.cfg = s.cfg := by rw [h.rest]

theorem oscillatorFailure (h : Frame A s t) : trapFlag .oscillatorFailure t = trapFlag .oscillatorFailure s :=
  h.flags 1 (by decide) (by decide)

theorem cpuPri (h : Frame A s t) : t.cpuPri = s.cpuPri := by rw [h.rest]; rfl

theorem trapConflict (h : Frame A s t) : trapConflict .addressError t = trapConflict .addressError s :=
  trapConflict_congr h.oscillatorFailure h.cpuPri

theorem addressErrorPends (h : Frame A s t) (hs : addressErrorPends s) : addressErrorPends t := by
  rw [Machine.addressErrorPends, h.oscillatorFailure, h.cpuPri]
  exact hs

/-- A conflict after a frame resets to the same values. -/
theorem conflictReset (h : Frame A s u) (hc : Machine.trapConflict .addressError u = true) :
    ConflictReset s (deviceReset .trapConflict u) :=
  ⟨h.trapConflict.symm.trans hc, u.draws, h.draws, by rw [h.rest]; rfl⟩

/-! Operations after a frame: each goes on with a frame, or ends early in the Reset of a conflict. -/

theorem leaves_load (h : Frame A s u) (w : Width) (via bm : Bool) (a : Word) :
    Leaves (ConflictReset s) (fun r => Frame A s r.2.2 ∧ r.2.2.sp = u.sp) (load w via bm a u) := by
  constructor
  · rintro ⟨v, bad, t⟩ hl
    have herr := ErrorsOnly.load hl
    exact ⟨h.trans (errorsOnly herr (load_draws_le hl)), by rw [herr.frame]; rfl⟩
  · intro t hl
    rcases load_error hl with ⟨hc, ht⟩ | ht | ⟨f, ht⟩
    · cases ht; exact h.conflictReset hc
    · exact nomatch ht
    · exact nomatch ht

theorem leaves_popWord (h : Frame A s u) :
    Leaves (ConflictReset s) (fun r => Frame A s r.2.2 ∧ r.2.2.sp = u.sp - 2#16) (popWord u) := by
  have he := and_even_of_even (even_sub_two (sp_even u))
  refine leaves_mono ((h.trans (setSp (u.sp - 2#16) u)).leaves_load .word true false _) (fun _ ht => ht) fun r hr => ?_
  rwa [setSp_sp, he] at hr

theorem leaves_popFrame (s : State) : Leaves (ConflictReset s)
    (fun r => Frame A s r.2.2.2 ∧ r.2.2.2.sp = s.sp - 4#16) (popFrame s) :=
  leaves_bind (refl s).leaves_popWord fun r hr => leaves_bind hr.1.leaves_popWord fun r' hr' =>
    leaves_ok ⟨hr'.1, by rw [hr'.2, hr.2, BitVec.sub_sub]; rfl⟩

theorem leaves_jump (h : Frame A s u) (p : Pc) :
    Leaves (ConflictReset s) (fun t => Frame A s t ∧ t.sp = u.sp) (jump p u) := by
  have hpc := h.trans (setPc u (evenTarget p))
  constructor
  · intro t ht
    rcases jump_ok ht with ⟨-, rfl⟩ | ⟨-, rfl⟩
    · exact ⟨hpc, rfl⟩
    · exact ⟨hpc.trans (errorsOnly (.setAddressError _) (Nat.le_refl _)), rfl⟩
  · intro t ht
    rcases jump_error ht with ⟨hc, ht⟩ | ht
    · cases ht; exact hpc.conflictReset hc
    · exact nomatch ht

/-- A word stored to an even address of data memory, or dropped. -/
theorem storeAt {a : Word} (v : Word) (he : a.getLsbD 0 = false) (hr : sfrAt u.cfg a = none)
    (hA : ∀ n, wordBytes a n → A n) : Frame A u (storeAt .word a v u) ∧ (storeAt .word a v u).sp = u.sp := by
  unfold Machine.storeAt
  split
  · rw [writeData_memory v hr]
    exact ⟨setRamWord v u he hA, rfl⟩
  · exact ⟨refl u, rfl⟩

theorem leaves_storeFile {f : Word} (h : Frame A s u) (v : Word) (inh : Bool) (hf : sfrAt u.cfg f = none)
    (hA : ∀ n, wordBytes f n → A n) :
    Leaves (ConflictReset s) (fun t => Frame A s t ∧ t.sp = u.sp) (storeFile f v inh u) := by
  refine leaves_map (Q := fun r => Frame A s r.2 ∧ r.2.sp = u.sp) ⟨?_, fun t ht => ?_⟩ fun _ hr => hr
  · rintro ⟨bad, t⟩ ht
    obtain ⟨hbad, u', hu, ht⟩ := store_ok ht
    dsimp only
    rw [ht]
    cases bad with
    | true =>
      obtain ⟨hb, -⟩ | ⟨-, rfl, -⟩ := raiseAddressIf_ok hu
      · exact nomatch hb
      · exact ⟨h.trans (errorsOnly (.setAddressError u) (Nat.le_refl _)), rfl⟩
    | false =>
      cases hu
      have he : f.getLsbD 0 = false := by simpa [misaligned] using hbad
      obtain ⟨hs, hsp⟩ := storeAt v he hf hA
      cases inh with
      | true => exact ⟨h, rfl⟩
      | false => exact ⟨h.trans hs, hsp⟩
  · rcases store_error ht with ⟨hc, ht⟩ | ht
    · cases ht; exact h.conflictReset hc
    · exact nomatch ht

/-- A push where W15 points at data memory. -/
theorem pushWord (h : Frame A s u) (inh : Bool) (v : Word) (hr : sfrAt u.cfg u.sp = none)
    (hA : ∀ n, wordBytes u.sp n → A n) : Frame A s (pushWord inh v u) ∧ (pushWord inh v u).sp = u.sp + 2#16 := by
  have hl : Frame A s (limitCheck u.sp u) :=
    h.trans (errorsOnly (.limitCheckIf true u.sp u) (Nat.le_of_eq (limitCheck_draws u.sp u).symm))
  have hlsp : (limitCheck u.sp u).sp = u.sp := by simp [State.sp]
  obtain ⟨hst, hstsp⟩ := storeAt (A := A) (u := limitCheck u.sp u) (a := u.sp) v (sp_even u) (by simpa using hr) hA
  have hstored : Frame A s (if inh then limitCheck u.sp u else Machine.storeAt .word u.sp v (limitCheck u.sp u)) ∧
      (if inh then limitCheck u.sp u else Machine.storeAt .word u.sp v (limitCheck u.sp u)).sp = u.sp := by
    split
    · exact ⟨hl, hlsp⟩
    · exact ⟨hl.trans hst, hstsp.trans hlsp⟩
  unfold Machine.pushWord
  dsimp only
  generalize (if inh then _ else _) = x at hstored ⊢
  obtain ⟨hx, hsp⟩ := hstored
  have hset : Frame A s (Machine.setSp (x.sp + 2#16) x) := hx.trans (setSp _ x)
  have hsp' : (Machine.setSp (x.sp + 2#16) x).sp = u.sp + 2#16 := by
    rw [setSp_sp, hsp, and_even_of_even (even_add_two (sp_even u))]
  split
  · exact ⟨hset.trans (errorsOnly (.raiseStack _) (Nat.le_refl _)), hsp'⟩
  · exact ⟨hset, hsp'⟩

end Frame

/-! ### `PUSH` and `POP` to memory (R155, R156) -/

/-- The cycles an instruction takes depend on the count and the window alone. -/
theorem tick_window {s t : State} (c : Nat) (h : t.disicnt = s.disicnt) (h' : t.intcon2 = s.intcon2) :
    (tick c t).disicnt = (tick c s).disicnt ∧ (tick c t).intcon2 = (tick c s).intcon2 := by
  unfold tick
  rw [h]
  split
  · exact ⟨h, h'⟩
  · dsimp only
    split
    · exact ⟨rfl, congrArg (withBit · 14 false) h'⟩
    · exact ⟨rfl, h'⟩

/-- An instruction that stores at most the word at `a` ends in the Reset of a conflict, or in a frame with W15 at `p` and
its cycles taken. -/
def EndsInFrame (s : State) (a p : Word) (c : Nat) (t : State) : Prop :=
  ConflictReset s t ∨ ∃ u, Frame (wordBytes a) s u ∧ u.sp = p ∧ t = tick c u

theorem execPush_endsInFrame {s : State} (f : Word) (hr : sfrAt s.cfg s.sp = none) :
    Keeps (EndsInFrame s s.sp (s.sp + 2#16) s.cfg.cycles.push) (execPush f s) := by
  refine keeps_finish (leaves_bind (leaves_mono ((Frame.refl (A := wordBytes s.sp) s).leaves_load .word
    false false f) (fun _ => .inl) fun _ hx => hx) ?_)
  rintro ⟨v, bad, u⟩ ⟨hu, hsp⟩
  dsimp only at hu hsp ⊢
  obtain ⟨hpush, hpushsp⟩ := hu.pushWord bad v (by rw [hu.cfg, hsp]; exact hr) (by rw [hsp]; exact fun _ hn => hn)
  exact leaves_bind (leaves_mono (hpush.leaves_jump _) (fun _ => .inl) fun _ hx => hx) fun t ht =>
    leaves_ok (.inr ⟨t, ht.1, by rw [ht.2, hpushsp, hsp], rfl⟩)

theorem execPop_endsInFrame {s : State} {f : Word} (hf : sfrAt s.cfg f = none) :
    Keeps (EndsInFrame s f (s.sp - 2#16) s.cfg.cycles.pop) (execPop f s) := by
  refine keeps_finish (leaves_bind (leaves_mono (Frame.refl (A := wordBytes f) s).leaves_popWord (fun _ => .inl)
    fun _ hx => hx) ?_)
  rintro ⟨v, bad, u⟩ ⟨hu, hsp⟩
  dsimp only at hu hsp ⊢
  have hstore := hu.leaves_storeFile v bad (by rw [hu.cfg]; exact hf) fun _ hn => hn
  exact leaves_bind (leaves_mono hstore (fun _ => .inl) fun _ hx => hx) fun u' hu' =>
    leaves_bind (leaves_mono (hu'.1.leaves_jump _) (fun _ => .inl) fun _ hx => hx) fun t ht =>
      leaves_ok (.inr ⟨t, ht.1, by rw [ht.2, hu'.2, hsp], rfl⟩)

/-- Short of a conflict such an instruction changes no byte outside the word at `a`, no register but W15 and pc, of INTCON1
the flags ADDRERR and STKERR alone, and what its cycles count. -/
theorem EndsInFrame.unchanged {s t : State} {a p : Word} {c : Nat} (hc : trapConflict .addressError s = false)
    (h : EndsInFrame s a p c t) :
    (∀ n, n ≠ a.toNat → n ≠ a.toNat + 1 → cellGet t.mem n = cellGet s.mem n) ∧
    (∀ n : Fin 15, t.w[n.val] = s.w[n.val]) ∧ t.sp = p ∧ t.sr = s.sr ∧ t.corcon = s.corcon ∧
    t.ifs = s.ifs ∧ t.iec = s.iec ∧ t.ipc = s.ipc ∧ t.splim = s.splim ∧ t.splimEnabled = s.splimEnabled ∧
    t.trapr = s.trapr ∧ t.cf = s.cf ∧ t.cpuMode = s.cpuMode ∧ t.disicntStray = s.disicntStray ∧
    t.disicnt = (tick c s).disicnt ∧ t.intcon2 = (tick c s).intcon2 ∧
    (∀ i, i ≠ 2 → i ≠ 3 → t.intcon1.getLsbD i = s.intcon1.getLsbD i) := by
  obtain ⟨hconf, -⟩ | ⟨u, hu, hsp, rfl⟩ := h
  · rw [hc] at hconf; exact nomatch hconf
  have hrest := hu.rest
  obtain ⟨hcnt, hdisi⟩ := tick_window (s := s) (t := u) c (by rw [hrest]) (by rw [hrest])
  refine ⟨fun n h1 h2 => ?_, fun n => ?_, ?_, ?_, ?_, ?_, ?_, ?_, ?_, ?_, ?_, ?_, ?_, ?_, hcnt, hdisi, fun i h2 h3 => ?_⟩
  · rw [tick_mem, hu.mem n (not_or.2 ⟨h1, h2⟩)]
  · simpa using hu.regs n
  · simpa [State.sp] using hsp
  · rw [tick_sr, hrest]
  · rw [tick_corcon, hrest]
  · rw [tick_ifs, hrest]
  · rw [tick_iec, hrest]
  · rw [tick_ipc, hrest]
  · rw [tick_splim, hrest]
  · rw [tick_splimEnabled, hrest]
  · rw [tick_trapr, hrest]
  · rw [tick_cf, hrest]
  · rw [tick_cpuMode, hrest]
  · rw [tick_disicntStray, hrest]
  · rw [tick_intcon1, hu.flags i h2 h3]

/-- Settles O37. -/
theorem pushFrame : Obligations.PushFrame := fun _ t f hr hc ht => (execPush_endsInFrame f hr t ht).unchanged hc

/-- Settles O38. -/
theorem popToMemoryFrame : Obligations.PopToMemoryFrame := fun _ t _ hf hc ht => (execPop_endsInFrame hf t ht).unchanged hc

end Sys2Proof.Machine
end

section
/-! PROOFS. `PUSH` and `POP` that complete (spec/41_referenced_instructions.md R155, R156). -/

namespace Sys2Proof.Machine

/-- Whether the next program word is implemented rests on pc and the configuration. -/
theorem nextImplemented_congr {s t : State} (hpc : t.pc = s.pc) (hcfg : t.cfg = s.cfg) (h : nextImplemented s) :
    nextImplemented t := by
  unfold nextImplemented progImpl
  rw [hpc, hcfg]
  exact h

/-! ### `PUSH` (R155) -/

/-- A file register that is implemented and readable is read without an error. -/
theorem loadFile_readable {s u : State} {f v : Word} (he : f.getLsbD 0 = false) (hd : dataImpl s f = true)
    (hr : readData .word f s = .ok (v, u)) : loadFile f s = .ok (v, false, u) := by
  simp [loadFile, load, misaligned_even he, hd, hr]

/-- An inhibited push within SPLIM, above the floor and without wrapping moves W15 alone (R200). -/
theorem pushWord_inhibited {s : State} (v : Word) (h0 : 0x0800 ≤ s.sp.toNat) (h1 : s.sp.toNat + 2 < 0x10000)
    (hl : withinLimit s s.sp) : pushWord true v s = { s with w := s.w.set 15 (s.sp + 2#16) } := by
  have hn : (s.sp + 2#16).toNat = s.sp.toNat + 2 := by
    rw [BitVec.toNat_add, BitVec.toNat_ofNat]
    omega
  unfold pushWord
  dsimp only
  rw [if_pos rfl, limitCheck_ok hl, setSp_ok (even_add_two (sp_even s)) (by omega),
    if_neg (by simp only [decide_eq_true_eq]; omega)]

/-- A push to data memory within SPLIM, above the floor and without wrapping. -/
theorem pushWord_within {s : State} (v : Word) (h0 : 0x0800 ≤ s.sp.toNat) (h1 : s.sp.toNat + 2 < 0x10000)
    (hp : plainWord s s.sp) (hl : withinLimit s s.sp) :
    pushWord false v s = { s with mem := (setRamWord s.sp v s).mem, w := s.w.set 15 (s.sp + 2#16) } := by
  rw [pushWord_ok h0 h1 hp, limitCheck_ok hl]

/-- A push of a file register goes to the next word once it is read and pushed. -/
theorem execPush_of_pushWord {s t u : State} {f v : Word} {bad : Bool} (hl : loadFile f s = .ok (v, bad, t))
    (hp : pushWord bad v t = u) (hn : nextImplemented u) :
    execPush f s = .next (tick s.cfg.cycles.push { u with pc := u.pc + 2#23 }) := by
  unfold execPush
  rw [hl, ok_bind]
  dsimp only
  rw [hp, advance_of_next hn]
  rfl

/-- Settles O32. -/
theorem pushStoresTheFileRegister : Obligations.PushStoresTheFileRegister := by
  intro s f he h0 h1 hp hl hn
  refine ⟨fun u v hd hr => ?_, fun hd ha => ?_⟩
  · have hload := loadFile_readable he hd hr
    obtain ⟨d, rfl⟩ : ∃ d, u = { s with draws := d } := ⟨_, readData_ok hr⟩
    exact execPush_of_pushWord hload (pushWord_within (s := { s with draws := d }) v h0 h1 hp hl) hn
  · let u : State := { setTrapFlag .addressError s with draws := s.draws + 1 }
    exact execPush_of_pushWord (t := u) (load_offending ha (.inr hd)) (pushWord_inhibited (s := u) _ h0 h1 hl) hn

/-! ### `POP` (R156) -/

/-- A word stored to an unimplemented even address is dropped (R88). -/
theorem storeFile_unimplemented {s : State} {f : Word} (v : Word) (he : f.getLsbD 0 = false)
    (hd : dataImpl s f = false) : storeFile f v false s = .ok s := by
  simp [storeFile, store, misaligned_even he, storeAt, hd]

/-- An inhibited word stored to an even address is not written (R200). -/
theorem storeFile_inhibited {s : State} {f : Word} (v : Word) (he : f.getLsbD 0 = false) :
    storeFile f v true s = .ok s := by
  simp [storeFile, store, misaligned_even he]

/-- A pop to a file register goes to the next word once it is popped and stored. -/
theorem execPop_of_storeFile {s t u : State} {f v : Word} {bad : Bool} (hp : popWord s = .ok (v, bad, t))
    (hst : storeFile f v bad t = .ok u) (hn : nextImplemented u) :
    execPop f s = .next (tick s.cfg.cycles.pop { u with pc := u.pc + 2#23 }) := by
  unfold execPop
  rw [hp, ok_bind]
  dsimp only
  rw [hst, ok_bind, advance_of_next hn]
  rfl

/-- INTCON1 after a pop of an unimplemented word that ends at `a`. -/
def poppedFlags (a : Word) (s : State) : Word := (limitCheck a (setTrapFlag .addressError (setSp a s))).intcon1

/-- ADDRERR is set, STKERR where the stack checks raise it, and no other bit changes (R88, R90). -/
theorem getLsbD_poppedFlags {a : Word} (s : State) (he : a.getLsbD 0 = false) :
    (poppedFlags a s).getLsbD 3 = true ∧
    ((poppedFlags a s).getLsbD 2 = true ↔ s.intcon1.getLsbD 2 = true ∨ popRaises s a) ∧
    ∀ i, i ≠ 2 → i ≠ 3 → (poppedFlags a s).getLsbD i = s.intcon1.getLsbD i := by
  have hadd : trapFlag .stackError (setTrapFlag .addressError (setSp a s)) = trapFlag .stackError (setSp a s) := by
    rw [trapFlag, setTrapFlag_intcon1, getLsbD_withBit, if_neg (by decide)]
    rfl
  have hlimit : s.splimEnabled = true ∧ s.splim < a ↔ ¬ withinLimit s a := by
    rw [withinLimit, Classical.not_imp, BitVec.not_le]
  have hset : Frame noBytes s (setSp a s) := Frame.setSp a s
  refine ⟨addressError_limitCheckIf true a (setSp a s), (stackError_limitCheck _ _).trans ?_, fun i h2 h3 => ?_⟩
  · rw [hadd, stackError_setSp, and_even_of_even he, setTrapFlag_splimEnabled, setTrapFlag_splim, setSp_splimEnabled,
      setSp_splim, hlimit, popRaises]
    show _ ∨ _ ∨ s.intcon1.getLsbD 2 = true ↔ _
    tauto
  · exact (((ErrorsOnly.setAddressError _).trans (.limitCheckIf true a _)).bits i h2 h3).trans (hset.flags i h2 h3)

/-- A pop of an unimplemented word, its address error pending, delivers a free value and moves W15 (R88, R90). -/
theorem popWord_unimplemented {s : State} (hd : dataImpl s (s.sp - 2#16) = false) (ha : addressErrorPends s) :
    popWord s = .ok (Config.freeWord s.draws, true,
      { s with w := s.w.set 15 (s.sp - 2#16), draws := s.draws + 1, intcon1 := poppedFlags (s.sp - 2#16) s }) := by
  have he := and_even_of_even (even_sub_two (sp_even s))
  have hset : Frame noBytes s (setSp (s.sp - 2#16) s) := Frame.setSp _ s
  have hload := load_offending (w := .word) (via := true) (bm := false) (a := s.sp - 2#16) (hset.addressErrorPends ha)
    (.inr (by simpa [dataImpl] using hd))
  have hframe := hset.trans (Frame.errorsOnly (ErrorsOnly.load hload) (load_draws_le hload))
  have hpop : popWord s = load .word true false (s.sp - 2#16) (setSp (s.sp - 2#16) s) := by
    rw [popWord, setSp_sp, he]
  rw [hpop, hload, hframe.rest]
  simp [he, poppedFlags]

/-- Settles O33: of a word that is there by whether f is implemented, and of one that is not. -/
theorem popLoadsTheFileRegister : Obligations.PopLoadsTheFileRegister := by
  intro s f he hn
  refine ⟨fun v h0 h hl => ?_, fun hd ha => ?_⟩
  · have hpop := popWord_ok h0 h hl
    refine ⟨fun hd => ?_, fun hd => ?_⟩
    · obtain ⟨hpc, hcfg⟩ := writeData_word_keeps f v { s with w := s.w.set 15 (s.sp - 2#16) }
      have hexec := execPop_of_storeFile hpop (storeFile_implemented (s := { s with w := s.w.set 15 (s.sp - 2#16) }) v he hd)
        (nextImplemented_congr hpc hcfg hn)
      rwa [hpc] at hexec
    · exact execPop_of_storeFile hpop (storeFile_unimplemented (s := { s with w := s.w.set 15 (s.sp - 2#16) }) v he hd) hn
  · exact ⟨_, execPop_of_storeFile (popWord_unimplemented hd ha) (storeFile_inhibited _ he) hn,
      getLsbD_poppedFlags s (even_sub_two (sp_even s))⟩

end Sys2Proof.Machine
end

section
/-! PROOFS. The instructions that store nothing: what they leave unchanged short of the Reset of a hard trap conflict
(spec/40_interrupt_instructions.md R130, R131, spec/41_referenced_instructions.md R151 to R154, R157). -/

namespace Sys2Proof.Machine

/-- `i` may meet a hard trap conflict at `s`: OSCFAIL is set, or the CPU priority is above 13, or the priority a `RETFIE`
restores is (R197). -/
def MeetsConflict (i : Instr) (s : State) : Prop :=
  trapFlag .oscillatorFailure s = true ∨ 13#4 < s.cpuPri ∨ (i = .retfie ∧ ∃ p, restoresPri s p ∧ 13#4 < p)

/-- W15 after an instruction that stores nothing. -/
def spAfter (i : Instr) (s : State) : Word := if i = .ret ∨ i = .retfie then s.sp - 4#16 else s.sp

/-- `u` is `s` in the middle of `i`, before its cycles are taken: what `i` may change short of a conflict, and where a
conflict of `u` comes from. -/
structure Midway (i : Instr) (s u : State) : Prop where
  rest : u = { s with
    pc := u.pc, w := u.w, sr := u.sr, corcon := u.corcon, intcon1 := u.intcon1, intcon2 := u.intcon2
    disicnt := u.disicnt, disicntStray := u.disicntStray, cpuMode := u.cpuMode, mem := u.mem, draws := u.draws }
  mem : ∀ a, cellGet u.mem a = cellGet s.mem a
  regs : ∀ n : Fin 15, u.w[n.val] = s.w[n.val]
  flags : ∀ b, b ≠ 2 → b ≠ 3 → u.intcon1.getLsbD b = s.intcon1.getLsbD b
  controls : ∀ b, b ≠ 14 → u.intcon2.getLsbD b = s.intcon2.getLsbD b
  status : i ≠ .retfie → u.sr = s.sr ∧ u.corcon = s.corcon
  sp : u.sp = spAfter i s
  mode : (∀ m, i ≠ .pwrsav m) → u.cpuMode = s.cpuMode
  window : (∀ k, i ≠ .disi k) → u.disicntStray = s.disicntStray ∧ u.disicnt = s.disicnt ∧ u.intcon2 = s.intcon2
  draws : s.draws ≤ u.draws
  conflict : trapConflict .addressError u = true → MeetsConflict i s

/-- `t` is what `i`, storing nothing, makes of `s`: the device reset in a conflict, or what `i` may change changed. -/
def StoresNothing (i : Instr) (s t : State) : Prop :=
  (MeetsConflict i s ∧ ∃ d, s.draws ≤ d ∧ t = deviceReset .trapConflict { s with draws := d }) ∨
  ((∀ a, cellGet t.mem a = cellGet s.mem a) ∧ t.ifs = s.ifs ∧ t.iec = s.iec ∧ t.ipc = s.ipc ∧ t.splim = s.splim ∧
    t.splimEnabled = s.splimEnabled ∧ (∀ n : Fin 15, t.w[n.val] = s.w[n.val]) ∧ t.trapr = s.trapr ∧ t.cf = s.cf ∧
    (∀ b, b ≠ 2 → b ≠ 3 → t.intcon1.getLsbD b = s.intcon1.getLsbD b) ∧
    (∀ b, b ≠ 14 → t.intcon2.getLsbD b = s.intcon2.getLsbD b) ∧
    (i ≠ .retfie → t.sr = s.sr ∧ t.corcon = s.corcon) ∧
    t.sp = spAfter i s ∧
    ((∀ m, i ≠ .pwrsav m) → t.cpuMode = s.cpuMode) ∧
    ((∀ k, i ≠ .disi k) → t.disicntStray = s.disicntStray ∧
      t.disicnt = (tick (ticksOf s.cfg.cycles i) s).disicnt ∧ t.intcon2 = (tick (ticksOf s.cfg.cycles i) s).intcon2))

/-- A conflict now is one the instruction may meet. -/
theorem meetsConflict_of_trapConflict {i : Instr} {s : State} (h : trapConflict .addressError s = true) :
    MeetsConflict i s :=
  ((trapConflict_addressError s).1 h).imp_right .inl

theorem ConflictReset.storesNothing {i : Instr} {s t : State} (h : ConflictReset s t) : StoresNothing i s t :=
  .inl ⟨meetsConflict_of_trapConflict h.1, h.2⟩

/-- The cycles of an instruction change of INTCON2 the DISI bit alone. -/
theorem getLsbD_tick_intcon2 (c : Nat) (s : State) {b : Nat} (hb : b ≠ 14) :
    (tick c s).intcon2.getLsbD b = s.intcon2.getLsbD b := by
  by_cases hz : s.disicnt = 0#14
  · rw [tick_zero c hz]
  · exact ((tickCountsDisicntDown s c).2 hz).2.2.2 b hb

/-- No cycles. -/
theorem tick_noCycles (s : State) : tick 0 s = s := by
  by_cases hz : s.disicnt = 0#14
  · exact tick_zero 0 hz
  · have hpos : 0 < s.disicnt.toNat := Nat.pos_of_ne_zero fun e => hz (BitVec.eq_of_toNat_eq e)
    rw [tick_of_lt hpos]
    simp

namespace Midway

variable {i : Instr} {s u v : State}

/-- A frame in which no byte was written is midway, with W15 where the instruction leaves it. -/
theorem ofFrame (h : Frame noBytes s u) (hsp : u.sp = spAfter i s) : Midway i s u where
  rest := by rw [h.rest]
  mem a := h.mem a id
  regs := h.regs
  flags := h.flags
  controls _ _ := by rw [h.rest]
  status _ := by rw [h.rest]; exact ⟨rfl, rfl⟩
  sp := hsp
  mode _ := by rw [h.rest]
  window _ := by rw [h.rest]; exact ⟨rfl, rfl, rfl⟩
  draws := h.draws
  conflict hc := meetsConflict_of_trapConflict (h.trapConflict.symm.trans hc)

/-- The power mode `PWRSAV` enters (R151). -/
theorem enterMode (m : LowPower) (s : State) : Midway (.pwrsav m) s { s with cpuMode := powerMode m } :=
  { ofFrame (Frame.refl s) rfl with
    rest := rfl
    mode := fun h => absurd rfl (h m)
    conflict := fun hc => meetsConflict_of_trapConflict (s := s) hc }

/-- The window `DISI` opens (R130). -/
theorem openWindow (k : BitVec 14) (s : State) : Midway (.disi k) s (openWindow k s) :=
  { ofFrame (Frame.refl s) rfl with
    rest := rfl
    controls := fun b hb => by
      show (withBit s.intcon2 14 _).getLsbD b = _
      rw [getLsbD_withBit, if_neg fun e => hb e.1]
    window := fun h => absurd rfl (h k)
    conflict := fun hc => meetsConflict_of_trapConflict (s := s) hc }

/-- The status a `RETFIE` restores from the frame it popped (R131). -/
theorem restoreStatus {high low : Word} {bad : Bool} (hp : popFrame s = .ok (high, bad, low, u))
    (hf : Frame noBytes s u) (hsp : u.sp = s.sp - 4#16) : Midway .retfie s (restoreStatus high u) :=
  { ofFrame (i := .retfie) hf hsp with
    rest := by rw [hf.rest]; rfl
    status := fun h => absurd rfl h
    conflict := fun hc => by
      rw [trapConflict_addressError, cpuPri_restoreStatus] at hc
      exact hc.imp hf.oscillatorFailure.symm.trans fun hlt => .inr ⟨rfl, _, ⟨high, bad, low, u, hp, rfl⟩, hlt⟩ }

/-- A jump or a pop goes on midway. -/
theorem trans (h : Midway i s u) (hf : Frame noBytes u v) (hsp : v.sp = u.sp) : Midway i s v where
  rest := by
    have hu := h.rest
    have hv := hf.rest
    rw [hu] at hv
    rw [hv]
  mem a := (hf.mem a id).trans (h.mem a)
  regs n := (hf.regs n).trans (h.regs n)
  flags b h2 h3 := (hf.flags b h2 h3).trans (h.flags b h2 h3)
  controls b hb := by rw [hf.rest]; exact h.controls b hb
  status hi := by rw [hf.rest]; exact h.status hi
  sp := hsp.trans h.sp
  mode hi := by rw [hf.rest]; exact h.mode hi
  window hi := by rw [hf.rest]; exact h.window hi
  draws := h.draws.trans hf.draws
  conflict hc := h.conflict (hf.trapConflict.symm.trans hc)

/-- The Reset of a conflict met midway. -/
theorem conflictReset {t : State} (h : Midway i s u) (hc : ConflictReset u t) : StoresNothing i s t := by
  obtain ⟨hconf, d, hd, rfl⟩ := hc
  exact .inl ⟨h.conflict hconf, d, h.draws.trans hd, by rw [h.rest]; rfl⟩

/-- The cycles end the instruction. -/
theorem tick (h : Midway i s u) : StoresNothing i s (tick (ticksOf s.cfg.cycles i) u) := by
  have hrest := h.rest
  refine .inr ⟨fun a => ?_, ?_, ?_, ?_, ?_, ?_, fun n => ?_, ?_, ?_, fun b h2 h3 => ?_, fun b hb => ?_, fun hi => ?_, ?_,
    fun hi => ?_, fun hi => ?_⟩
  · rw [tick_mem, h.mem]
  · rw [tick_ifs, hrest]
  · rw [tick_iec, hrest]
  · rw [tick_ipc, hrest]
  · rw [tick_splim, hrest]
  · rw [tick_splimEnabled, hrest]
  · simpa using h.regs n
  · rw [tick_trapr, hrest]
  · rw [tick_cf, hrest]
  · rw [tick_intcon1, h.flags b h2 h3]
  · rw [getLsbD_tick_intcon2 _ _ hb, h.controls b hb]
  · rw [tick_sr, tick_corcon]; exact h.status hi
  · simpa [State.sp] using h.sp
  · rw [tick_cpuMode, h.mode hi]
  · obtain ⟨hstray, hcnt, hdisi⟩ := h.window hi
    exact ⟨by rw [tick_disicntStray, hstray], tick_window _ hcnt hdisi⟩

/-- A jump, and then the cycles of the instruction. -/
theorem leaves_jump (h : Midway i s u) (p : Pc) : Leaves (StoresNothing i s) (Midway i s) (jump p u) :=
  leaves_mono ((Frame.refl u).leaves_jump p) (fun _ => h.conflictReset) fun _ ht => h.trans ht.1 ht.2

theorem keeps_jump_tick (h : Midway i s u) (p : Pc) :
    Keeps (StoresNothing i s) (finish ((jump p u).map (Machine.tick (ticksOf s.cfg.cycles i)))) :=
  keeps_finish (leaves_map (h.leaves_jump p) fun _ ht => ht.tick)

end Midway

/-- `RETURN` pops a frame and jumps (R154). -/
theorem execReturn_storesNothing (s : State) : Keeps (StoresNothing .ret s) (execReturn s) :=
  keeps_finish (leaves_bind (leaves_mono (Frame.leaves_popFrame s) (fun _ ht => ht.storesNothing) fun _ hr => hr) fun _ hr =>
    leaves_bind ((Midway.ofFrame (i := .ret) hr.1 hr.2).leaves_jump _) fun _ ht => leaves_ok ht.tick)

/-- `RETFIE` restores the status in between (R131). -/
theorem execRetfie_storesNothing (s : State) : Keeps (StoresNothing .retfie s) (execRetfie s) := by
  have hframe : Leaves (StoresNothing .retfie s)
      (fun r => popFrame s = .ok r ∧ Frame noBytes s r.2.2.2 ∧ r.2.2.2.sp = s.sp - 4#16) (popFrame s) := by
    have hpop := Frame.leaves_popFrame (A := noBytes) s
    exact ⟨fun r hr => ⟨hr, hpop.1 r hr⟩, fun t ht => (hpop.2 t ht).storesNothing⟩
  refine keeps_finish (leaves_map (leaves_bind hframe ?_) fun _ ht => Midway.tick ht)
  rintro ⟨high, bad, low, u⟩ ⟨hpop, hu, hsp⟩
  dsimp only
  split
  · exact leaves_error (keeps_refused _)
  · exact (Midway.restoreStatus hpop hu hsp).leaves_jump _

/-- Settles O39, by the instruction: each is midway after a frame, a mode, a window or a status it may change, and ends with
a jump and its cycles. -/
theorem instructionsThatStoreNothing : Obligations.InstructionsThatStoreNothing := by
  intro s t i hreset hpush hpop ht
  suffices h : Keeps (StoresNothing i s) (exec i s) from h t ht
  cases i with
  | nop | goto | gotoWord2 | bra => exact (Midway.ofFrame (Frame.refl s) rfl).keeps_jump_tick _
  | ret => exact execReturn_storesNothing s
  | retfie => exact execRetfie_storesNothing s
  | push f => exact absurd rfl (hpush f)
  | pop f => exact absurd rfl (hpop f)
  | reset => exact absurd rfl hreset
  | disi k =>
    show Keeps _ (execDisi k s)
    rw [execDisi, openWindow_tick]
    refine keeps_finish (leaves_mono ((Midway.openWindow k s).leaves_jump _) (fun _ h => h) fun u hu => ?_)
    rw [← tick_noCycles u]
    exact hu.tick
  | pwrsav m =>
    show Keeps _ (execPwrsav m s)
    unfold execPwrsav
    split
    · exact keeps_refused _
    · exact (Midway.enterMode m s).keeps_jump_tick _

end Sys2Proof.Machine
end

section
/-! PROOFS. The arbitration: which trap, and which interrupt, is selected (spec/60_exceptions.md R184 to R190, R202). -/

namespace Sys2Proof.Machine

/-! ### The highest trap (R186, R189) -/

/-- The first element of an ordered list that passes a test is in order with every later one that does. -/
theorem rel_of_find?_eq_some {α : Type} {R : α → α → Prop} {p : α → Bool} {l : List α} {a b : α} (hl : l.Pairwise R)
    (hrefl : R a a) (ha : l.find? p = some a) (hb : b ∈ l) (hpb : p b = true) : R a b := by
  induction l with
  | nil => exact nomatch hb
  | cons x xs ih =>
    obtain ⟨hx, hxs⟩ := List.pairwise_cons.1 hl
    cases hpx : p x with
    | true =>
      obtain rfl : x = a := by simpa [hpx] using ha
      rcases List.mem_cons.1 hb with rfl | hb
      · exact hrefl
      · exact hx b hb
    | false =>
      rcases List.mem_cons.1 hb with rfl | hb
      · rw [hpx] at hpb; exact nomatch hpb
      · exact ih hxs (by simpa [hpx] using ha) hb

theorem mem_allTraps (t : Trap) : t ∈ allTraps := by cases t <;> decide

/-- No two traps have the same level. -/
theorem trapLevel_injective {t u : Trap} (h : trapLevel t = trapLevel u) : t = u := by
  cases t <;> cases u <;> simp_all [trapLevel]

/-- The eligible trap found first has the greatest level of them. -/
theorem find?_allTraps_iff (s : State) (t : Trap) : allTraps.find? (eligibleTrap s) = some t ↔
    eligibleTrap s t = true ∧ ∀ u, eligibleTrap s u = true → trapLevel u ≤ trapLevel t := by
  have hfirst : ∀ {t}, allTraps.find? (eligibleTrap s) = some t →
      ∀ u, eligibleTrap s u = true → trapLevel u ≤ trapLevel t := fun ht u hu =>
    rel_of_find?_eq_some (R := fun a b => trapLevel b ≤ trapLevel a) (by decide) (BitVec.le_refl _) ht (mem_allTraps u) hu
  refine ⟨fun h => ⟨List.find?_some h, hfirst h⟩, fun ⟨ht, hbest⟩ => ?_⟩
  cases hf : allTraps.find? (eligibleTrap s) with
  | none => exact absurd ht (List.find?_eq_none.1 hf t (mem_allTraps t))
  | some u => rw [trapLevel_injective (BitVec.le_antisymm (hbest u (List.find?_some hf)) (hfirst hf t ht))]

theorem eligibleTrap_iff (s : State) (t : Trap) :
    eligibleTrap s t = true ↔ trapFlag t s = true ∧ s.cpuPri < trapLevel t := by
  simp [eligibleTrap]

/-! ### The best interrupt (R188, R189) -/

/-- The interrupt of `v` is eligible, of the greatest priority, and the first of that priority. -/
def BestInt (s : State) (v : Nat) : Prop :=
  EligibleInt s v ∧ ∀ u, EligibleInt s u → intPri s u < intPri s v ∨ (intPri s u = intPri s v ∧ v ≤ u)

/-- There is at most one such interrupt. -/
theorem bestInt_unique {s : State} {v u : Nat} (hv : BestInt s v) (hu : BestInt s u) : v = u := by
  obtain ⟨hev, hbv⟩ := hv
  obtain ⟨heu, hbu⟩ := hu
  have h1 := hbv u heu
  have h2 := hbu v hev
  simp only [BitVec.lt_def, ← BitVec.toNat_inj] at h1 h2
  omega

theorem selectInt_eq_none_iff (s : State) : selectInt s = none ↔ ∀ v, ¬ EligibleInt s v := by
  have hb := selectInt_best s
  cases h : selectInt s with
  | none => rw [h] at hb; exact ⟨fun _ v hv => hb v (eligibleInt_lt hv) hv, fun _ => rfl⟩
  | some v =>
    rw [h] at hb
    obtain ⟨-, hv, -⟩ := hb
    exact ⟨nofun, fun hn => absurd hv (hn v)⟩

theorem selectInt_eq_some_iff (s : State) (v : Nat) : selectInt s = some v ↔ BestInt s v := by
  have hbest : ∀ {b}, selectInt s = some b → BestInt s b := fun {b} h => by
    have hb := selectInt_best s
    rw [h] at hb
    obtain ⟨-, he, hmax⟩ := hb
    exact ⟨he, fun u hu => hmax u (eligibleInt_lt hu) hu⟩
  refine ⟨hbest, fun hv => ?_⟩
  cases h : selectInt s with
  | none => exact absurd hv.1 ((selectInt_eq_none_iff s).1 h v)
  | some b => rw [bestInt_unique hv (hbest h)]

/-! ### What is selected (R189) -/

theorem select_trap_iff (s : State) (t : Trap) :
    select s = some (.trap t) ↔ allTraps.find? (eligibleTrap s) = some t := by
  unfold select
  cases allTraps.find? (eligibleTrap s) <;> simp

theorem find?_allTraps_eq_none_iff (s : State) :
    allTraps.find? (eligibleTrap s) = none ↔ ∀ t, ¬ eligibleTrap s t = true := by
  rw [List.find?_eq_none]
  exact ⟨fun h t => h t (mem_allTraps t), fun h t _ => h t⟩

theorem select_int_iff (s : State) (v : Nat) :
    select s = some (.int v) ↔ (∀ t, ¬ eligibleTrap s t = true) ∧ BestInt s v := by
  rw [← find?_allTraps_eq_none_iff, ← selectInt_eq_some_iff]
  unfold select
  cases allTraps.find? (eligibleTrap s) <;> simp

theorem select_none_iff (s : State) :
    select s = none ↔ (∀ t, ¬ eligibleTrap s t = true) ∧ ∀ v, ¬ EligibleInt s v := by
  rw [← find?_allTraps_eq_none_iff, ← selectInt_eq_none_iff]
  unfold select
  cases allTraps.find? (eligibleTrap s) <;> simp

/-- Settles O9: the traps are searched from the highest level down, the interrupts only when none of them is eligible. -/
theorem selectTakesTheHighestRequest : Obligations.SelectTakesTheHighestRequest := by
  intro s level flag eligibleT eligibleI
  have hlevel : ∀ t, level t = trapLevel t := fun t => by cases t <;> rfl
  have hflag : ∀ t, flag t = trapFlag t s := fun t => by cases t <;> rfl
  have htrap : ∀ t, eligibleT t ↔ eligibleTrap s t = true := fun t => by
    rw [eligibleTrap_iff, ← hlevel, ← hflag]
  refine ⟨fun t => ?_, fun v => ?_, ?_⟩
  · simp only [select_trap_iff, find?_allTraps_iff, htrap, hlevel]
  · simp only [select_int_iff, htrap]
    rfl
  · simp only [select_none_iff, htrap]
    rfl

/-! ### Priorities and masks (R184, R202) -/

/-- A priority above the CPU's is above IPL<2:0>, with IPL3 clear (R28). -/
theorem ipl_lt_of_cpuPri_lt {s : State} {p : BitVec 3} (h : s.cpuPri < p.setWidth 4) : s.ipl3 = false ∧ s.ipl < p := by
  have key : ∀ (b : Bool) (l p : BitVec 3), BitVec.ofBool b ++ l < p.setWidth 4 → b = false ∧ l < p := by decide
  exact key s.ipl3 s.ipl p h

/-- Settles O13: no priority of three bits is above such a CPU priority. -/
theorem noInterruptAboveUserLevels : Obligations.NoInterruptAboveUserLevels := by
  intro s v h hs
  obtain ⟨-, -, hpri, -⟩ := eligible_of_select hs
  obtain ⟨hipl3, hipl⟩ := ipl_lt_of_cpuPri_lt hpri
  rcases h with h | h
  · rw [hipl3] at h; exact nomatch h
  · rw [h] at hipl; bv_omega

/-- In a window the eligible interrupts are those of priority 7 that are eligible outside it (R202). -/
theorem eligibleInt_inWindow {s : State} (h : s.disiActive = true) (v : Nat) :
    EligibleInt s v ↔ EligibleInt (s.setDisi false) v ∧ intPri s v = 7#3 := by
  have hpri : ¬ intPri s v ≤ 6#3 ↔ intPri s v = 7#3 := by bv_omega
  have hoff : (s.setDisi false).disiActive = false := getLsbD_withBit_same (by decide) s.intcon2 false
  have hopen : EligibleInt (s.setDisi false) v ↔
      intFlag s v = true ∧ intEnable s v = true ∧ s.cpuPri < (intPri s v).setWidth 4 := by
    unfold EligibleInt
    rw [hoff]
    simp only [Bool.false_eq_true, false_and, not_false_eq_true, and_true]
    rfl
  rw [hopen, EligibleInt, h, ← hpri]
  tauto

/-- Settles O12: a window takes away the interrupts below priority 7, which are behind those of priority 7 anyway. -/
theorem disiMasksLevelsOneToSixOnly : Obligations.DisiMasksLevelsOneToSixOnly := by
  intro s h
  refine ⟨fun v hv => ((eligibleInt_inWindow h v).1 (eligible_of_select hv)).2, fun t => ?_, fun v h7 => ?_⟩
  · rw [select_trap_iff, select_trap_iff]
    rfl
  · rw [select_int_iff, select_int_iff]
    refine and_congr_right fun _ => ?_
    have hpri : ∀ u, intPri (s.setDisi false) u = intPri s u := fun _ => rfl
    have hle : ∀ u, ¬ intPri s u = 7#3 → intPri s u < intPri s v := fun u hu => by rw [h7]; bv_omega
    simp only [BestInt, eligibleInt_inWindow h, h7, hpri, and_true]
    refine and_congr_right fun _ => ⟨fun hbest u hu => ?_, fun hbest u hu => hbest u hu.1⟩
    by_cases hu7 : intPri s u = 7#3
    · exact hbest u ⟨hu, hu7⟩
    · exact .inl (h7 ▸ hle u hu7)

end Sys2Proof.Machine
end

section
/-! PROOFS. The CPU's turn, hard traps, and the turns of the pins and the clock monitor (spec/60_exceptions.md R192 to R199,
R214, R215, R223). -/

namespace Sys2Proof.Machine

/-! ### A turn of the CPU (R192, R214, R223) -/

/-- Settles O4. -/
theorem stepRunsTheDecodedInstruction : Obligations.StepRunsTheDecodedInstruction := by
  intro s t i ht hm hs hd
  obtain ⟨rest, rfl, hstep⟩ := step_executes ht hm hs
  have hfetch : fetch { s with schedule := rest, ackDefer := 0 } = .ok (.instr i) := fetch_instr hd
  rw [hstep, executeNext, hfetch]

/-- A CPU on its turn, awake and with an exception selected, enters it or puts it off. -/
theorem step_enterOrDefer {s t : State} {e : Exc} (ht : cpuTurn s t) (hm : s.cpuMode = .run) (hs : select s = some e) :
    step s = enterOrDefer e t := by
  have key : ∀ u : State, u.cpuMode = .run → select u = some e → cpuStep u = enterOrDefer e u := fun u hm hs => by
    rw [cpuStep, hm, awakeStep, hs]
  rw [step_of_cpuTurn ht]
  rcases ht with ⟨-, rfl⟩ | ⟨rest, -, rfl⟩
  · exact key _ hm hs
  · exact key { s with schedule := rest } hm hs

/-- Only a soft trap or an interrupt may be put off, and only below ACK_SLIP_MAX (R192, R195). -/
theorem mayDefer_iff (e : Exc) (s : State) : mayDefer e s = true ↔
    e ≠ .trap .oscillatorFailure ∧ e ≠ .trap .addressError ∧ s.ackDefer < s.cfg.ackSlipMax := by
  cases e with
  | int v => simp [mayDefer]
  | trap t => cases t <;> simp [mayDefer, isHard]

theorem enterOrDefer_atOnce {e : Exc} {s : State} (h : mayDefer e s = false) : enterOrDefer e s = finish (enter e s) := by
  rw [enterOrDefer, h, if_neg Bool.false_ne_true]

/-- An exception that may be put off is entered, or one more instruction executes: a free value says which. -/
theorem enterOrDefer_free {e : Exc} {s : State} (h : mayDefer e s = true) :
    enterOrDefer e s = finish (enter e { s with draws := s.draws + 1 }) ∨
    enterOrDefer e s = executeNext { s with draws := s.draws + 1, ackDefer := s.ackDefer + 1 } := by
  rw [enterOrDefer, if_pos h]
  dsimp only [drawBit]
  split
  · exact .inr rfl
  · exact .inl rfl

/-- Settles O7. -/
theorem selectedExceptionIsEnteredOrSlips : Obligations.SelectedExceptionIsEnteredOrSlips := by
  intro s t e ht hm hs
  have hsame : mayDefer e t = mayDefer e s := by rcases ht with ⟨-, rfl⟩ | ⟨rest, -, rfl⟩ <;> rfl
  rw [step_enterOrDefer ht hm hs]
  refine ⟨fun h => enterOrDefer_atOnce ?_, fun h1 h2 h3 => enterOrDefer_free ?_⟩
  · rw [hsame, ← Bool.not_eq_true, mayDefer_iff]
    rintro ⟨h1, h2, h3⟩
    rcases h with h | h | h
    · exact h1 h
    · exact h2 h
    · omega
  · rw [hsame, mayDefer_iff]
    exact ⟨h1, h2, h3⟩

/-- What wakes a CPU that sleeps (R214). -/
theorem wake_iff (s : State) :
    wake s = true ↔ ∃ v, intFlag s v = true ∧ intEnable s v = true ∧ 1#3 ≤ intPri s v := by
  have hlt : ∀ v, intFlag s v = true → v < 118 := fun v h => by
    simp only [intFlag, Bool.and_eq_true] at h
    exact lt_of_implemented h.1
  simp only [wake, List.any_eq_true, List.mem_range, intReq, Bool.and_eq_true, decide_eq_true_eq, and_assoc]
  exact ⟨fun ⟨v, _, h⟩ => ⟨v, h⟩, fun ⟨v, h⟩ => ⟨v, hlt v h.1, h⟩⟩

/-- A CPU asleep steps as one awake if something wakes it, and else not at all. -/
theorem cpuStep_asleep {s : State} (h : s.cpuMode ≠ .run) :
    cpuStep s = if wake s then cpuStep { s with cpuMode := .run } else .next s := by
  unfold cpuStep
  cases hm : s.cpuMode with
  | run => exact absurd hm h
  | sleep => rfl
  | idle => rfl

/-- Settles O8. -/
theorem sleepingCpuWaitsForAnEnabledInterrupt : Obligations.SleepingCpuWaitsForAnEnabledInterrupt := by
  intro s t ht hm
  have hwake : wake t = wake s := by rcases ht with ⟨-, rfl⟩ | ⟨rest, -, rfl⟩ <;> rfl
  have hmode : t.cpuMode ≠ .run := by rcases ht with ⟨-, rfl⟩ | ⟨rest, -, rfl⟩ <;> exact hm
  have hrun : cpuTurn { s with cpuMode := .run } { t with cpuMode := .run } := by
    rcases ht with ⟨hs, rfl⟩ | ⟨rest, hs, rfl⟩
    · exact .inl ⟨hs, rfl⟩
    · exact .inr ⟨rest, hs, rfl⟩
  rw [step_of_cpuTurn ht, cpuStep_asleep hmode, hwake, step_of_cpuTurn hrun]
  refine ⟨fun h => if_pos ((wake_iff s).2 h), fun h => if_neg fun hw => ?_⟩
  obtain ⟨v, hflag, henable, hpri⟩ := (wake_iff s).1 hw
  rw [h v hflag henable] at hpri
  exact absurd hpri (by decide)

/-! ### Hard traps (R197, R198) -/

/-- No trap is above the oscillator's, so only the CPU priority conflicts with it. -/
theorem trapConflict_oscillatorFailure (s : State) :
    trapConflict .oscillatorFailure s = true ↔ 14#4 < s.cpuPri := by
  rw [trapConflict, Bool.or_eq_true, decide_eq_true_eq]
  simp [allTraps, trapLevel]

/-- At a trap's own level the spec refuses. -/
theorem raiseHard_refused {t : Trap} {s : State} (hc : trapConflict t s = false) (hp : s.cpuPri = trapLevel t) :
    raiseHard t s = .error (.refused .hardTrapUnacknowledgeable) := by
  rw [raiseHard, hc, if_neg Bool.false_ne_true, if_pos hp]

/-- Below it, short of a conflict, the flag is set. -/
theorem raiseHard_sets {t : Trap} {s : State} (hc : trapConflict t s = false) (hp : s.cpuPri < trapLevel t) :
    raiseHard t s = .ok (setTrapFlag t s) := by
  rw [raiseHard, hc, if_neg Bool.false_ne_true, if_neg fun e => BitVec.lt_irrefl _ (e ▸ hp)]

/-- A clock failure below CPU priority 14 sets OSCFAIL (R198). -/
theorem raiseHard_oscillatorFailure {s : State} (h : s.cpuPri < 14#4) :
    raiseHard .oscillatorFailure s = .ok { s with intcon1 := withBit s.intcon1 1 true } := by
  refine raiseHard_sets ?_ h
  rw [← Bool.not_eq_true, trapConflict_oscillatorFailure]
  bv_omega

/-- Settles O14. -/
theorem hardTrapConflictResetsTheDevice : Obligations.HardTrapConflictResetsTheDevice := by
  refine fun s => ⟨fun h => ?_, fun h hp => ?_, fun h => ?_, fun h => ?_, fun h => ?_, fun h => ?_, rfl⟩
  · exact raiseHard_conflict ((trapConflict_addressError s).2 h)
  · refine raiseHard_refused ?_ hp
    rw [← Bool.not_eq_true, trapConflict_addressError, h, hp]
    decide
  · exact raiseHard_pends h
  · exact raiseHard_conflict ((trapConflict_oscillatorFailure s).2 h)
  · refine raiseHard_refused ?_ h
    rw [← Bool.not_eq_true, trapConflict_oscillatorFailure, h]
    decide
  · exact raiseHard_oscillatorFailure h

/-! ### The other agents (R198, R215) -/

/-- A step on an agent's turn is the agent's. -/
theorem step_of_agentTurn {s : State} {e : Event} {rest : List Turn} (hs : s.schedule = .agent e :: rest) :
    step s = agentStep e { s with schedule := rest } := by
  rw [step, turnStep, hs]

/-- Settles O55. -/
theorem clockFailureRaisesTheOscillatorTrap : Obligations.ClockFailureRaisesTheOscillatorTrap := by
  intro s rest hs
  rw [step_of_agentTurn hs, agentStep]
  refine ⟨fun hf hp => ?_, fun hf => ?_⟩
  · rw [if_pos hf, raiseHard_oscillatorFailure (s := { s with schedule := rest }) hp]
    rfl
  · rw [hf, if_neg Bool.false_ne_true]

/-- When an edge sets the flag of its pin (R5, R35). -/
theorem edgeSelected_iff (pin : Fin 5) (e : Edge) (s : State) : edgeSelected pin e s = true ↔
    pin.val < s.cfg.nExtInt.val ∧ (s.intcon2.getLsbD pin.val = false ↔ e = .rising) := by
  cases e <;> simp [edgeSelected, State.intEdgeNegative]

/-- Settles O54. -/
theorem pinEdgeSetsItsFlagByPolarity : Obligations.PinEdgeSetsItsFlagByPolarity := by
  intro s pin e rest hs hv
  let u : State := { s with schedule := rest }
  have hsel : edgeSelected pin e u = true ↔
      pin.val < s.cfg.nExtInt.val ∧ (s.intcon2.getLsbD pin.val = false ↔ e = .rising) := edgeSelected_iff pin e u
  rw [step_of_agentTurn hs, agentStep]
  refine ⟨fun hn hp => ⟨setIntFlag u s.cfg.extIntVec[pin], ?_, intFlag_setIntFlag hv, setIntFlag_eq u _⟩, fun h => ?_⟩
  · rw [if_pos (hsel.2 ⟨hn, hp⟩)]
  · rw [if_neg fun hx => ?_]
    obtain ⟨hn, hp⟩ := hsel.1 hx
    exact h.elim (fun hge => by omega) fun hne => hne hp

end Sys2Proof.Machine
end

section
/-! PROOFS. Exception entry: the frame, the priority and the vector, and the return by `RETFIE` (spec/60_exceptions.md R190,
R205 to R213). -/

namespace Sys2Proof.Machine

/-! ### The frame (R205, R206) -/

/-- `s` with the frame of an exception at W15 and W15 moved past it. -/
def stacked (s : State) : State :=
  { s with
    mem := (setRamWord (s.sp + 2#16) (frameHigh s) (setRamWord s.sp (frameLow s) s)).mem
    w := s.w.set 15 (s.sp + 4#16) }

/-- INTCON1 once a stack access at `ea` was checked against SPLIM (R90). -/
def limitFlags (ea : Word) (s : State) : Word :=
  if s.splimEnabled && decide (s.splim < ea) then withBit s.intcon1 2 true else s.intcon1

theorem limitCheck_eq (ea : Word) (s : State) : limitCheck ea s = { s with intcon1 := limitFlags ea s } := by
  unfold limitFlags limitCheck
  split <;> rfl

/-- Of two checks the one at the higher address decides. -/
theorem limitFlags_limitFlags {s : State} {a b : Word} (h : a ≤ b) :
    limitFlags b { s with intcon1 := limitFlags a s } = limitFlags b s := by
  unfold limitFlags
  by_cases ha : (s.splimEnabled && decide (s.splim < a)) = true
  · have hb : (s.splimEnabled && decide (s.splim < b)) = true := by
      simp only [Bool.and_eq_true, decide_eq_true_eq] at ha ⊢
      exact ⟨ha.1, by bv_omega⟩
    rw [if_pos ha, if_pos hb, if_pos hb, withBit_withBit]
  · rw [if_neg ha]

/-- `s` with a word pushed to data memory, above the floor and without wrapping. -/
def pushed (v : Word) (s : State) : State :=
  { s with mem := (setRamWord s.sp v s).mem, w := s.w.set 15 (s.sp + 2#16), intcon1 := limitFlags s.sp s }

theorem pushWord_eq_pushed {s : State} {v : Word} (h0 : 0x0800 ≤ s.sp.toNat) (h1 : s.sp.toNat + 2 < 0x10000)
    (hp : plainWord s s.sp) : pushWord false v s = pushed v s := by
  rw [pushWord_ok h0 h1 hp, limitCheck_eq]
  rfl

theorem pushed_sp (v : Word) (s : State) : (pushed v s).sp = s.sp + 2#16 := setSp_sp_even (even_add_two (sp_even s))

/-- The pushes of an exception entry. -/
abbrev pushFrameWords (s : State) : State := pushWord false (frameHigh s) (pushWord false (frameLow s) s)

/-- With room on the stack the pushes leave the frame, and of INTCON1 what the check of the higher one leaves. -/
theorem pushFrameWords_eq {s : State} (h : frameRoom s) :
    pushFrameWords s = { stacked s with intcon1 := limitFlags (s.sp + 2#16) s } := by
  obtain ⟨hfloor, hwrap, hlow, hhigh⟩ := h
  have hn : (s.sp + 2#16).toNat = s.sp.toNat + 2 := by bv_omega
  have hsp := pushed_sp (frameLow s) s
  have hw : (pushed (frameLow s) s).w.set 15 (s.sp + 2#16 + 2#16) = s.w.set 15 (s.sp + 4#16) := by
    rw [BitVec.add_assoc]
    exact Vector.set_set ..
  have hflags : limitFlags (s.sp + 2#16) (pushed (frameLow s) s) = limitFlags (s.sp + 2#16) s :=
    limitFlags_limitFlags (by bv_omega)
  rw [pushFrameWords, pushWord_eq_pushed hfloor (by omega) hlow,
    pushWord_eq_pushed (by rw [hsp]; omega) (by rw [hsp]; omega) (by rw [hsp]; exact hhigh), pushed, hsp, hw, hflags]
  rfl

theorem even_add_four {a : Word} (h : a.getLsbD 0 = false) : (a + 4#16).getLsbD 0 = false := by
  rw [show a + 4#16 = a + 2#16 + 2#16 by bv_omega]
  exact even_add_two (even_add_two h)

/-- Two bytes of memory hold a word whatever else changes. -/
theorem holdsWord_congr {s t : State} {a v : Word} (hcfg : t.cfg = s.cfg) (hmem : t.mem = s.mem) (h : holdsWord s a v) :
    holdsWord t a v := by
  unfold holdsWord plainWord dataImpl
  rw [hcfg, hmem]
  exact h

/-- Both words of the frame are in place. -/
theorem holdsWord_stacked {s : State} (h : frameRoom s) :
    holdsWord (stacked s) s.sp (frameLow s) ∧ holdsWord (stacked s) (s.sp + 2#16) (frameHigh s) := by
  obtain ⟨-, hwrap, hlow, hhigh⟩ := h
  have hn : (s.sp + 2#16).toNat = s.sp.toNat + 2 := by bv_omega
  have hkept : ∀ x, x < (s.sp + 2#16).toNat →
      cellGet (stacked s).mem x = cellGet (setRamWord s.sp (frameLow s) s).mem x := fun x hx =>
    cellGet_setRamWord_other _ _ _ x hhigh.1 (by omega) (by omega)
  refine ⟨⟨hlow, ?_, ?_⟩, hhigh, cellGet_setRamWord_low _ _ hhigh.1, cellGet_setRamWord_high _ _ hhigh.1⟩
  · rw [hkept _ (by omega)]
    exact cellGet_setRamWord_low _ _ hlow.1
  · rw [hkept _ (by omega)]
    exact cellGet_setRamWord_high _ _ hlow.1

/-- The bits of the high word of the frame: PC<22:16>, IPL3, SRL. -/
theorem getLsbD_frameHigh (s : State) {i : Nat} (hi : i < 16) : (frameHigh s).getLsbD i =
    if i < 7 then s.pc.getLsbD (16 + i) else if i = 7 then s.ipl3 else s.sr.getLsbD (i - 8) := by
  unfold frameHigh State.srl
  rw [BitVec.getLsbD_append, BitVec.getLsbD_append]
  by_cases h7 : i < 7
  · simp [h7]
  · by_cases h8 : i = 7
    · simp [h8]
    · have h1 : ¬ i - 7 < 1 := by omega
      have hlt : i - 7 - 1 < 8 := by omega
      rw [if_neg h7, if_neg h1, if_neg h7, if_neg h8, BitVec.getLsbD_extractLsb', decide_eq_true hlt, Bool.true_and,
        Nat.zero_add, Nat.sub_sub]

/-- SRL is the high byte of that word. -/
theorem frameHigh_srl (s : State) : (frameHigh s).extractLsb' 8 8 = s.srl := by
  apply BitVec.eq_of_getLsbD_eq
  intro i hi
  have h7 : ¬ 8 + i < 7 := by omega
  have h8 : ¬ 8 + i = 7 := by omega
  simp [getLsbD_frameHigh s (show 8 + i < 16 by omega), State.srl, h7, h8]

/-- The two words of the frame give pc back. -/
theorem framePc_frame {s : State} (h : evenPc s.pc = true) : framePc (frameHigh s) (frameLow s) = s.pc := by
  apply BitVec.eq_of_getLsbD_eq
  intro i hi
  unfold framePc frameLow
  rw [BitVec.getLsbD_append, BitVec.getLsbD_append]
  by_cases h0 : i < 1
  · obtain rfl : i = 0 := by omega
    simpa [evenPc] using h.symm
  · by_cases h15 : i - 1 < 15
    · have hlt : 1 + (i - 1) < 16 := by omega
      have hi' : 1 + (i - 1) = i := by omega
      simp [h0, h15, hi']
    · have hhigh := getLsbD_frameHigh s (show i - 1 - 15 < 16 by omega)
      have h7 : i - 1 - 15 < 7 := by omega
      have hi' : 16 + (i - 1 - 15) = i := by omega
      rw [if_pos h7, hi'] at hhigh
      simp [h0, h15, h7, hhigh]

/-! ### The vector (R209) -/

/-- `s` with room on the stack once the frame is pushed and the priority written. -/
def entryState (e : Exc) (s : State) : State :=
  setEntryPri e (entryIpl e s) { stacked s with intcon1 := limitFlags (s.sp + 2#16) s }

/-- The end of an entry that has reached its handler: Run mode and four cycles. -/
def atHandler (s : State) : State := tick 4 { s with cpuMode := .run, ackDefer := 0 }

theorem progImpl_entryState (e : Exc) (s : State) (p : Pc) : progImpl (entryState e s) p = progImpl s p := by
  cases e <;> rfl

/-- With room on the stack and a good vector an entry goes to the handler. -/
theorem enter_goodVector {s : State} {e : Exc} {vec : ProgWord} (h : frameRoom s)
    (hvec : cellGet s.prog (vectorAddr e s) = some vec) (h23 : vec.getLsbD 23 = false) (h0 : vec.getLsbD 0 = false) :
    enter e s = (jump (vec.extractLsb' 0 23) (entryState e s)).map atHandler := by
  have hslot : vectorAddr e (entryState e s) = vectorAddr e s := by cases e <;> rfl
  have hread : progRead (vectorAddr e s) (entryState e s) = .ok vec := by
    have hprog : (entryState e s).prog = s.prog := by cases e <;> rfl
    rw [progRead, hprog, hvec]
  have hunfold : enter e s = progRead (vectorAddr e (entryState e s)) (entryState e s) >>= fun vec =>
      if vec.getLsbD 23 || vec.getLsbD 0 then .error (.refused (.badVector (vectorAddr e (entryState e s))))
      else jump (vec.extractLsb' 0 23) (entryState e s) >>= fun t => .ok (atHandler t) := by
    rw [entryState, ← pushFrameWords_eq h]
    rfl
  rw [hunfold, hslot, hread, ok_bind, h23, h0, Bool.or_self, if_neg Bool.false_ne_true]
  rfl

/-- A good vector word is an even address. -/
theorem evenPc_vector {vec : ProgWord} (h0 : vec.getLsbD 0 = false) : evenPc (vec.extractLsb' 0 23) = true := by
  simpa [evenPc] using h0

/-- A jump to an even unimplemented address raises the address error there (R89). -/
theorem jump_raises {s : State} {p : Pc} (he : evenPc p = true) (hp : progImpl s p = false) :
    jump p s = raiseHard .addressError { s with pc := p } := by
  have hp' : progImpl { s with pc := p } p = false := hp
  simp only [jump, show p &&& 0x7FFFFE#23 = p from evenTarget_of_even he, hp']
  rfl

theorem limitFlags_within {s : State} {ea : Word} (h : withinLimit s ea) : limitFlags ea s = s.intcon1 := by
  have hcheck := limitCheck_ok h
  rw [limitCheck_eq] at hcheck
  exact congrArg State.intcon1 hcheck

theorem limitFlags_beyond {s : State} {ea : Word} (h : ¬ withinLimit s ea) :
    limitFlags ea s = withBit s.intcon1 2 true := by
  rw [withinLimit, Classical.not_imp, BitVec.not_le] at h
  rw [limitFlags, if_pos (by simpa using h)]

/-- The state in which an entry with room on the stack reaches the handler at `p`. -/
def vectored (e : Exc) (s : State) (p : Pc) : State := { entryState e s with pc := p }

section
variable {s : State} {e : Exc} {vec : ProgWord} (h : frameRoom s) (hvec : cellGet s.prog (vectorAddr e s) = some vec)
  (h23 : vec.getLsbD 23 = false) (h0 : vec.getLsbD 0 = false)
include h hvec h23 h0

/-- An entry to an implemented handler. -/
theorem enter_implemented (hp : progImpl s (vec.extractLsb' 0 23) = true) :
    enter e s = .ok (atHandler (vectored e s (vec.extractLsb' 0 23))) := by
  rw [enter_goodVector h hvec h23 h0, jump_even (evenPc_vector h0) ((progImpl_entryState e s _).trans hp)]
  rfl

/-- An entry to an unimplemented one raises the address error there, at the new priority. -/
theorem enter_unimplemented (hp : progImpl s (vec.extractLsb' 0 23) = false) :
    enter e s = (raiseHard .addressError (vectored e s (vec.extractLsb' 0 23))).map atHandler := by
  rw [enter_goodVector h hvec h23 h0, jump_raises (evenPc_vector h0) ((progImpl_entryState e s _).trans hp)]
  rfl

end

theorem vectored_intcon1 (e : Exc) (s : State) (p : Pc) :
    (vectored e s p).intcon1 = limitFlags (s.sp + 2#16) s := by
  cases e <;> rfl

/-- Settles O17: the handler is reached as it is, or the address error is raised there. -/
theorem entryStacksTheFrameAndVectors : Obligations.EntryStacksTheFrameAndVectors := by
  intro s e vec hroom hl hvec h23 h0 u
  let q : State := vectored e s (vec.extractLsb' 0 23)
  have hx : q.intcon1 = s.intcon1 := (vectored_intcon1 e s _).trans (limitFlags_within hl)
  have hosc : trapFlag .oscillatorFailure q = trapFlag .oscillatorFailure s := by rw [trapFlag, hx]; rfl
  have hpri : q.cpuPri = u.cpuPri := by cases e <;> rfl
  have hreset : deviceReset .trapConflict q = deviceReset .trapConflict s := by cases e <;> rfl
  have hend : ∀ x, atHandler { q with intcon1 := x } = tick 4 { u with intcon1 := x } := fun x => by cases e <;> rfl
  refine ⟨fun hp => ?_, fun hp => ?_⟩
  · rw [enter_implemented hroom hvec h23 h0 hp, show vectored e s _ = { q with intcon1 := s.intcon1 } by rw [← hx], hend]
  · obtain ⟨hconflict, hrefused, -⟩ := hardTrapConflictResetsTheDevice q
    rw [enter_unimplemented hroom hvec h23 h0 hp]
    refine ⟨fun ⟨ho, hlt⟩ => ?_, fun hc => ?_, fun ho h13 => ?_⟩
    · rw [raiseHard_pends ⟨hosc.trans ho, hpri ▸ hlt⟩, map_ok, hend]
      rw [show (vectored e s _).intcon1 = s.intcon1 from hx]
    · rw [hconflict (by rwa [hosc, hpri]), map_error, hreset]
    · rw [hrefused (hosc.trans ho) (hpri.trans h13), map_error]

/-- What an entry with room on the stack leaves at the handler. -/
theorem handler_fields (e : Exc) (s : State) (p : Pc) : ∃ t, t = atHandler (vectored e s p) ∧
    t.pc = p ∧ t.w = s.w.set 15 (s.sp + 4#16) ∧ t.mem = (stacked s).mem ∧ t.sr = withIpl s.sr (entryIpl e s) ∧
    t.intcon1 = limitFlags (s.sp + 2#16) s ∧ t.ifs = s.ifs ∧ t.splim = s.splim ∧ t.splimEnabled = s.splimEnabled ∧
    t.cfg = s.cfg :=
  ⟨_, rfl, by simp [atHandler, vectored, entryState, stacked]⟩

theorem sp_of_w {s t : State} {a : Word} (hw : t.w = s.w.set 15 a) (ha : a.getLsbD 0 = false) : t.sp = a := by
  rw [State.sp, hw]
  exact setSp_sp_even (s := s) ha

/-- Settles O22: the frame is written and W15 moved whatever the check of the second push raises. -/
theorem entryBeyondTheLimitCompletes : Obligations.EntryBeyondTheLimitCompletes := by
  intro s e vec hroom hl hvec h23 h0 hp
  obtain ⟨t, ht, hpc, hw, hmem, -, hx, -, -, -, hcfg⟩ := handler_fields e s (vec.extractLsb' 0 23)
  obtain ⟨hlow, hhigh⟩ := holdsWord_stacked hroom
  refine ⟨t, ht ▸ enter_implemented hroom hvec h23 h0 hp, ?_, hpc, ?_, holdsWord_congr (s := stacked s) hcfg hmem hlow,
    holdsWord_congr (s := stacked s) hcfg hmem hhigh⟩
  · rw [trapFlag, hx, limitFlags_beyond hl]
    exact getLsbD_withBit_same (by decide) _ _
  · exact sp_of_w hw (even_add_four (sp_even s))

/-! ### The priority an entry writes (R207, R208) -/

/-- What a jump that goes on changes: pc and INTCON1. -/
theorem jump_frame {s t : State} {p : Pc} (h : jump p s = .ok t) : t = { s with pc := t.pc, intcon1 := t.intcon1 } := by
  rcases jump_ok h with ⟨-, rfl⟩ | ⟨-, rfl⟩ <;> rfl

/-- What an entry that completes leaves but for pc and INTCON1: the frame pushed, the priority written, Run mode and four
cycles. -/
theorem enter_ok {e : Exc} {s t : State} (h : enter e s = .ok t) : ∃ p x,
    t = atHandler { setEntryPri e (entryIpl e s) (pushFrameWords s) with pc := p, intcon1 := x } := by
  obtain ⟨vec, -, h⟩ := bind_ok h
  split at h
  · exact nomatch h
  · obtain ⟨u, hu, h⟩ := bind_ok h
    cases h
    exact ⟨u.pc, u.intcon1, by rw [← jump_frame hu]; rfl⟩

/-- SR and CORCON after an entry. -/
theorem enter_status {e : Exc} {s t : State} (h : enter e s = .ok t) :
    t.sr = withIpl (pushFrameWords s).sr (entryIpl e s) ∧
    t.corcon = (setEntryPri e (entryIpl e s) (pushFrameWords s)).corcon := by
  obtain ⟨p, x, rfl⟩ := enter_ok h
  simp [atHandler]

theorem enter_ipl {e : Exc} {s t : State} (h : enter e s = .ok t) : t.ipl = entryIpl e s := by
  rw [State.ipl, (enter_status h).1, withIpl_ipl]

/-- Settles O18: with room on the stack the pushes change neither SR nor CORCON. -/
theorem interruptEntryWritesItsPriority : Obligations.InterruptEntryWritesItsPriority := by
  intro s s' v hroom h3 h
  obtain ⟨hsr, hcorcon⟩ := enter_status h
  rw [pushFrameWords_eq hroom] at hsr hcorcon
  refine ⟨enter_ipl h, ?_, fun i hi => ?_⟩
  · rw [State.ipl3, hcorcon]
    exact h3
  · rw [hsr, getLsbD_withIpl, if_neg (by omega)]
    rfl

/-- Settles O19. -/
theorem trapEntryWritesItsLevel : Obligations.TrapEntryWritesItsLevel := by
  intro s s' t h
  have hipl := enter_ipl h
  have hipl3 : s'.ipl3 = true := by
    rw [State.ipl3, (enter_status h).2]
    exact getLsbD_withBit_same (by decide) _ _
  refine ⟨hipl3, ?_, ?_⟩
  · rw [hipl]
    cases t <;> rfl
  · have hlevel : entryIpl (.trap t) s = (trapLevel t).extractLsb' 0 3 := rfl
    rw [State.cpuPri, hipl3, hipl, hlevel]
    cases t <;> decide

/-- Settles O20: IPL<2:0> is 111, above which there is no interrupt. -/
theorem nestingDisabledMasksEveryInterrupt : Obligations.NestingDisabledMasksEveryInterrupt := by
  intro s s' v u _ _ hn h
  have hipl : s'.ipl = 7#3 := by rw [enter_ipl h, entryIpl, if_pos hn]
  exact noInterruptAboveUserLevels s' u (.inr hipl)

/-- Settles O21: IPL<2:0> is the priority of `v`, and what is selected is above it. -/
theorem noPreemptionAtTheSameLevel : Obligations.NoPreemptionAtTheSameLevel := by
  intro s s' v u _ hn h hu
  have hipl : s'.ipl = intPri s v := by rw [enter_ipl h, entryIpl, hn, if_neg Bool.false_ne_true]
  obtain ⟨-, -, hpri, -⟩ := eligible_of_select hu
  rw [← hipl]
  exact (ipl_lt_of_cpuPri_lt hpri).2

/-! ### The way back (R131, R211) -/

/-- The high byte of a status word whose IPL<2:0> was replaced. -/
theorem withIpl_high (sr : Word) (l : BitVec 3) : (withIpl sr l).extractLsb' 8 8 = sr.extractLsb' 8 8 := by
  apply BitVec.eq_of_getLsbD_eq
  intro i hi
  have h : ¬ (5 ≤ 8 + i ∧ 8 + i < 8) := by omega
  rw [BitVec.getLsbD_extractLsb', BitVec.getLsbD_extractLsb', getLsbD_withIpl, if_neg h]

/-- The CPU priority rests on SR and IPL3 (R28). -/
theorem cpuPri_congr {s t : State} (hsr : t.sr = s.sr) (h3 : t.ipl3 = s.ipl3) : t.cpuPri = s.cpuPri := by
  rw [State.cpuPri, State.cpuPri, h3, State.ipl, State.ipl, hsr]

/-- Settles O24: `RETFIE` finds the frame below W15, where the entry wrote it. -/
theorem entryThenRetfieReturns : Obligations.EntryThenRetfieReturns := by
  intro s e vec hroom hl hra heven himpl hvec h23 h0 hp
  obtain ⟨t, ht, -, hw, hmem, hsr, hx, hifs, hsplim, hen, hcfg⟩ := handler_fields e s (vec.extractLsb' 0 23)
  obtain ⟨hlow, hhigh⟩ := holdsWord_stacked hroom
  have ⟨hfloor, hwrap, _, _⟩ := hroom
  have hsp : t.sp = s.sp + 4#16 := sp_of_w hw (even_add_four (sp_even s))
  have h2 : t.sp - 2#16 = s.sp + 2#16 := by rw [hsp]; bv_omega
  have h4 : t.sp - 4#16 = s.sp := by rw [hsp]; bv_omega
  have hpop : withinLimit t (t.sp - 2#16) := by
    unfold withinLimit
    rw [h2, hen, hsplim]
    exact hl
  obtain ⟨hreturn, -⟩ := retfieRestoresTheFrame t (frameHigh s) (frameLow s) (by rw [hsp]; bv_omega)
    (h2 ▸ holdsWord_congr (s := stacked s) hcfg hmem hhigh) (h4 ▸ holdsWord_congr (s := stacked s) hcfg hmem hlow) hpop
  have hpc : framePc (frameHigh s) (frameLow s) = s.pc := framePc_frame heven
  have himpl' : progImpl t (framePc (frameHigh s) (frameLow s)) = true := by rwa [hpc, progImpl, hcfg]
  have hback := hreturn ((getLsbD_frameHigh s (by decide)).trans hra) himpl'
  have hsr' : t.sr.extractLsb' 8 8 ++ (frameHigh s).extractLsb' 8 8 = s.sr := by
    rw [hsr, withIpl_high, frameHigh_srl, State.srl, halves_append]
  have hipl3 : ∀ u : State, u.corcon = withBit t.corcon 3 ((frameHigh s).getLsbD 7) → u.ipl3 = s.ipl3 := fun u hu => by
    rw [State.ipl3, hu, getLsbD_withBit_same (by decide)]
    exact getLsbD_frameHigh s (by decide)
  refine ⟨t, _, ht ▸ enter_implemented hroom hvec h23 h0 hp, hback, ?_, ?_, ?_, ?_, ?_, ?_, ?_⟩
  · exact (tick_pc _ _).trans hpc
  · exact (tick_sr _ _).trans hsr'
  · exact hipl3 _ (tick_corcon _ _)
  · exact cpuPri_congr ((tick_sr _ _).trans hsr') (hipl3 _ (tick_corcon _ _))
  · exact (sp_of_w (s := t) (tick_w _ _) (h4 ▸ sp_even s)).trans h4
  · exact (tick_ifs _ _).trans hifs
  · exact (tick_intcon1 _ _).trans (hx.trans (limitFlags_within hl))

end Sys2Proof.Machine
end

section
/-! PROOFS. Instructions that reach an unimplemented address complete there with the address error raised
(spec/60_exceptions.md R199, spec/20_memory.md R89). -/

namespace Sys2Proof.Machine

/-! ### The next program word (R21, R89) -/

/-- The address error raised at the unimplemented address `p`. -/
abbrev raisedAt (p : Pc) (s : State) : State := { s with pc := p, intcon1 := withBit s.intcon1 3 true }

/-- The address of the next program word, short of the top of program memory, is not implemented. -/
def NextUnimplemented (s : State) : Prop :=
  evenPc s.pc = true ∧ s.pc.toNat + 2 < 0x800000 ∧ progImpl s (s.pc + 2#23) = false

theorem nextUnimplemented_congr {s t : State} (hpc : t.pc = s.pc) (hcfg : t.cfg = s.cfg) (h : NextUnimplemented s) :
    NextUnimplemented t := by
  unfold NextUnimplemented progImpl
  rw [hpc, hcfg]
  exact h

/-- The step to an unimplemented next word raises the address error there. -/
theorem advance_unimplemented {s : State} (ha : addressErrorPends s) (h : NextUnimplemented s) :
    advance s = .ok (raisedAt (s.pc + 2#23) s) := by
  obtain ⟨he, htop, hp⟩ := h
  have hseq : seqPc s.pc = s.pc + 2#23 := if_pos htop
  rw [advance, hseq]
  exact jump_unimplemented ha (hseq ▸ seqPc_even he) hp

/-! ### The instructions right before it -/

/-- A push of a file register ends with the step to the next word and its cycles. -/
theorem execPush_of_advance {s t u u' : State} {f v : Word} {bad : Bool} (hl : loadFile f s = .ok (v, bad, t))
    (hp : pushWord bad v t = u) (ha : advance u = .ok u') : execPush f s = .next (tick s.cfg.cycles.push u') := by
  unfold execPush
  rw [hl, ok_bind]
  dsimp only
  rw [hp, ha]
  rfl

section
variable {s : State} (ha : addressErrorPends s) (hn : NextUnimplemented s)
include ha hn

/-- `NOP` and the second word of a `GOTO` (R157). -/
theorem doNothing_unimplemented : doNothing s = .next (tick 1 (raisedAt (s.pc + 2#23) s)) := by
  rw [doNothing, advance_unimplemented ha hn]
  rfl

/-- `DISI` (R130). -/
theorem execDisi_unimplemented (k : BitVec 14) : execDisi k s = .next (raisedAt (s.pc + 2#23) (openWindow k s)) := by
  rw [execDisi, openWindow_tick, advance_unimplemented (s := openWindow k s) ha hn]
  rfl

/-- `PWRSAV` outside a window (R151). -/
theorem execPwrsav_unimplemented (m : LowPower) (hd : s.disiActive = false) : execPwrsav m s =
    .next (tick s.cfg.cycles.pwrsav (raisedAt (s.pc + 2#23) { s with cpuMode := powerMode m })) := by
  rw [execPwrsav, hd, if_neg Bool.false_ne_true, advance_unimplemented (s := { s with cpuMode := powerMode m }) ha hn]
  rfl

/-- `PUSH` of a readable file register (R155). -/
theorem execPush_unimplemented {f v : Word} {u : State} (hf : f.getLsbD 0 = false) (h0 : 0x0800 ≤ s.sp.toNat)
    (h1 : s.sp.toNat + 2 < 0x10000) (hp : plainWord s s.sp) (hl : withinLimit s s.sp) (hd : dataImpl s f = true)
    (hr : readData .word f s = .ok (v, u)) : execPush f s = .next (tick s.cfg.cycles.push
      { u with
        mem := (setRamWord s.sp v s).mem, w := s.w.set 15 (s.sp + 2#16), pc := s.pc + 2#23
        intcon1 := withBit s.intcon1 3 true }) := by
  obtain ⟨d, rfl⟩ : ∃ d, u = { s with draws := d } := ⟨_, readData_ok hr⟩
  let t : State := { s with draws := d, mem := (setRamWord s.sp v s).mem, w := s.w.set 15 (s.sp + 2#16) }
  exact execPush_of_advance (loadFile_readable hf hd hr) (pushWord_within (s := { s with draws := d }) v h0 h1 hp hl)
    (advance_unimplemented (s := t) ha hn)

end

/-- `POP` to an implemented file register (R156), where the error can pend after the write. -/
theorem execPop_unimplemented {s : State} {f v : Word} (hn : NextUnimplemented s) (hf : f.getLsbD 0 = false)
    (h0 : 0x0802 ≤ s.sp.toNat) (h : holdsWord s (s.sp - 2#16) v) (hl : withinLimit s (s.sp - 2#16))
    (hd : dataImpl s f = true)
    (ha : addressErrorPends (writeData .word f v { s with w := s.w.set 15 (s.sp - 2#16) })) :
    execPop f s = .next (tick s.cfg.cycles.pop
      (raisedAt (s.pc + 2#23) (writeData .word f v { s with w := s.w.set 15 (s.sp - 2#16) }))) := by
  obtain ⟨hpc, hcfg⟩ := writeData_word_keeps f v { s with w := s.w.set 15 (s.sp - 2#16) }
  unfold execPop
  rw [popWord_ok h0 h hl, ok_bind]
  dsimp only
  rw [storeFile_implemented (s := { s with w := s.w.set 15 (s.sp - 2#16) }) v hf hd, ok_bind,
    advance_unimplemented ha (nextUnimplemented_congr hpc hcfg hn), hpc]
  rfl

/-- Settles O28. -/
theorem jumpToUnimplementedRaisesTheAddressError : Obligations.JumpToUnimplementedRaisesTheAddressError := by
  refine fun s ha => ⟨fun target he hp => ?_, fun he slit16 hp => ?_, fun he htop hp => ?_⟩
  · show execGoto target s = _
    rw [execGoto, jump_unimplemented ha he hp]
    rfl
  · rw [← branchTarget_eq_ofInt] at hp ⊢
    show execBra slit16 s = _
    rw [execBra, jump_unimplemented ha (branchTarget_even he slit16) hp]
    rfl
  · have hn : NextUnimplemented s := ⟨he, htop, hp⟩
    exact ⟨doNothing_unimplemented ha hn, fun _ => doNothing_unimplemented ha hn, execDisi_unimplemented ha hn,
      fun hd => ⟨execPwrsav_unimplemented ha hn .sleep hd, execPwrsav_unimplemented ha hn .idle hd⟩,
      fun f v u hf h0 h1 hp hl hd hr => execPush_unimplemented ha hn hf h0 h1 hp hl hd hr,
      fun f v hf h0 h hl hd ha' => execPop_unimplemented hn hf h0 h hl hd ha'⟩

/-! ### Returns (R131, R154) -/

/-- A return to an unimplemented address raises the address error there. -/
theorem jump_framePc_unimplemented {s : State} {high low : Word} (ha : addressErrorPends s)
    (hp : progImpl s (framePc high low) = false) :
    jump (framePc high low) s = .ok (raisedAt (framePc high low) s) :=
  jump_unimplemented ha (framePc_even high low) hp

theorem addressError_tick_raisedAt (c : Nat) (p : Pc) (s : State) :
    trapFlag .addressError (tick c (raisedAt p s)) = true := by
  rw [trapFlag, tick_intcon1]
  exact getLsbD_withBit_same (by decide) _ _

/-- Settles O31: the frame is popped, and the address error pends at the CPU priority, for `RETFIE` the restored one. -/
theorem returnToUnimplementedRaisesTheAddressError : Obligations.ReturnToUnimplementedRaisesTheAddressError := by
  intro s high low hsp h h' hl hosc hp
  have hpop := popFrame_ok hsp h h' hl
  refine ⟨fun hpri => ?_, fun hra hpri => ?_⟩
  · have hjump := jump_framePc_unimplemented (s := { s with w := s.w.set 15 (s.sp - 4#16) }) ⟨hosc, hpri⟩ hp
    refine ⟨_, ?_, addressError_tick_raisedAt s.cfg.cycles.ret (framePc high low) { s with w := s.w.set 15 (s.sp - 4#16) },
      tick_pc _ _, tick_sr _ _, tick_corcon _ _⟩
    show execReturn s = _
    rw [execReturn, hpop, ok_bind]
    dsimp only
    rw [hjump]
    rfl
  · let u : State := restoreStatus high { s with w := s.w.set 15 (s.sp - 4#16) }
    have hjump := jump_framePc_unimplemented (s := u) ⟨hosc, (cpuPri_restoreStatus high _).symm ▸ hpri⟩ hp
    refine ⟨_, ?_, addressError_tick_raisedAt 3 (framePc high low) u, tick_pc _ _, ?_, ?_⟩
    · show execRetfie s = _
      rw [execRetfie, returnFromException_of_frame hpop hra, hjump]
      rfl
    · rw [State.srl, tick_sr, ← clearRa_of_clear hra]
      exact withSrl_low _ _
    · rw [State.ipl3, tick_corcon]
      exact getLsbD_withBit_same (by decide) _ _

end Sys2Proof.Machine
end
